-- ==== Sys2Proof/Word.lean ====
section
/-! DEFINITION. The words of the block: bytes, 32-bit words and 128-bit blocks (00_scope.md R9). -/

namespace Sys2Proof

/-- A byte: 8 bits (R9). -/
abbrev Byte := BitVec 8

/-- A word: 32 bits, bit 0 the least significant (R9). -/
abbrev Word := BitVec 32

/-- A 16-byte block `b`, held as the integer `BE(b)` (20_memory.md R53, R54).
DEDUCED (log 8), safe: a block and its big-endian integer determine each other. -/
abbrev Block := BitVec 128

end Sys2Proof
end

