-- ==== Sys2Proof/Config.lean ====
section
/-! DEFINITION. The parameters of 00_scope.md R7: the fixed limits, and the OPEN parameters as opaque constants
of which nothing can be proved but their types. -/

namespace Sys2Proof.Config

/-- Bytes in the OUT result buffer (R7). -/
abbrev outMax : Nat := 64

/-- The largest digest block size HMAC stores a pad for (R7). -/
abbrev bMax : Nat := 128

/-- The largest total message length of a counting unit (R7, R105). -/
abbrev maxMsg : Nat := 2 ^ 61 - 1

/-- The largest payload of one command (R7). -/
abbrev lenMax : Nat := 65535

/-- The largest output capacity a command can declare (R7). -/
abbrev capMax : Nat := 255

/-- The key lengths `E` accepts, in bytes (R7, R190). -/
abbrev cipherKeyLengths : List Nat := [16, 24, 32]

/-- RIPEMD-160's block size and output size (R7, R79). -/
abbrev rmdBlockSize : Nat := 64
abbrev rmdOutSize : Nat := 20

/-- The block size and the tag size of CMAC, GMAC and Poly1305 (R7). -/
abbrev macSize : Nat := 16

/-- Poly1305's key length (R7). -/
abbrev polyKeyLength : Nat := 32

/-- A block cipher: a key and a block give a block (R4). -/
abbrev Cipher := List Byte → Block → Block

/-- The descriptor of a registered digest (R5): its block size, its output size, its digest function, and the
bounds that R5 puts on them. -/
structure ExtDigest where
  B : Nat
  L : Nat
  hash : List Byte → List Byte
  one_le_L : 1 ≤ L
  L_le_B : L ≤ B
  B_le_bMax : B ≤ bMax
  L_le_outMax : L ≤ outMax
  hash_length : ∀ bs, (hash bs).length = L

/-- A digest registry: a partial map from codes to descriptors (R5). Only codes 1 to 15 are looked up. -/
abbrev Registry := BitVec 4 → Option ExtDigest

/-- `E`, the block cipher (R4, D29): OPEN, so no value of it is known (log 4). -/
opaque cipher : Cipher

/-- `ExtDigest`, the digest registry (R5, D30): OPEN (log 5). -/
opaque extDigest : Registry

/-- `P_HMAC_EMPTY_KEY` (R7, D17): OPEN (log 6). -/
opaque hmacEmptyKey : Bool

/-- FREE VALUE: what the digest of a code that names no digest would be. No state that meets the invariant asks
for it (log 7). -/
opaque unboundHash : BitVec 4 → List Byte → List Byte

end Sys2Proof.Config
end

