-- ==== Sys2Proof/Syntax.lean ====
section
/-! DEFINITION. The 34 commands (30_encoding.md R74), their operands (R75, R76), and the pair that travels on the
command channel (R70). -/

namespace Sys2Proof

/-- The five units (R72). -/
inductive UnitId where
  | rmd | hmac | cmac | gmac | p1305
deriving DecidableEq, Repr

/-- The eight operations (R73). -/
inductive OpId where
  | reset | setkey | setnonce | absorb | finalize | compute | verify | zeroize
deriving DecidableEq, Repr

/-- A command of the channel: a 32-bit command word and a payload (R70). -/
structure Command where
  word : Word
  payload : List Byte
deriving DecidableEq, Repr

/-- One constructor per row of the opcode table. `cap` is CAP, `algIn` and `algOut` are ALG_IN and ALG_OUT; `data`,
`key`, `nonce` and `tag` are the payload. -/
inductive Instr where
  | rmdReset
  | rmdAbsorb (data : List Byte)
  | rmdFinalize (cap : BitVec 8)
  | rmdCompute (cap : BitVec 8) (data : List Byte)
  | rmdZeroize
  | hmacReset
  | hmacSetkey (algIn algOut : BitVec 4) (key : List Byte)
  | hmacAbsorb (data : List Byte)
  | hmacFinalize (cap : BitVec 8)
  | hmacCompute (cap : BitVec 8) (data : List Byte)
  | hmacVerify (tag : List Byte)
  | hmacZeroize
  | cmacReset
  | cmacSetkey (key : List Byte)
  | cmacAbsorb (data : List Byte)
  | cmacFinalize (cap : BitVec 8)
  | cmacCompute (cap : BitVec 8) (data : List Byte)
  | cmacVerify (tag : List Byte)
  | cmacZeroize
  | gmacReset
  | gmacSetkey (key : List Byte)
  | gmacSetnonce (nonce : List Byte)
  | gmacAbsorb (data : List Byte)
  | gmacFinalize (cap : BitVec 8)
  | gmacCompute (cap : BitVec 8) (data : List Byte)
  | gmacVerify (tag : List Byte)
  | gmacZeroize
  | p1305Reset
  | p1305Setkey (key : List Byte)
  | p1305Absorb (data : List Byte)
  | p1305Finalize (cap : BitVec 8)
  | p1305Compute (cap : BitVec 8) (data : List Byte)
  | p1305Verify (tag : List Byte)
  | p1305Zeroize
deriving DecidableEq, Repr

/-- The unit a command addresses (R72). -/
def Instr.unit : Instr → UnitId
  | .rmdReset | .rmdAbsorb _ | .rmdFinalize _ | .rmdCompute _ _ | .rmdZeroize => .rmd
  | .hmacReset | .hmacSetkey _ _ _ | .hmacAbsorb _ | .hmacFinalize _ | .hmacCompute _ _ | .hmacVerify _
  | .hmacZeroize => .hmac
  | .cmacReset | .cmacSetkey _ | .cmacAbsorb _ | .cmacFinalize _ | .cmacCompute _ _ | .cmacVerify _
  | .cmacZeroize => .cmac
  | .gmacReset | .gmacSetkey _ | .gmacSetnonce _ | .gmacAbsorb _ | .gmacFinalize _ | .gmacCompute _ _
  | .gmacVerify _ | .gmacZeroize => .gmac
  | .p1305Reset | .p1305Setkey _ | .p1305Absorb _ | .p1305Finalize _ | .p1305Compute _ _ | .p1305Verify _
  | .p1305Zeroize => .p1305

/-- The operation a command performs (R73). -/
def Instr.op : Instr → OpId
  | .rmdReset | .hmacReset | .cmacReset | .gmacReset | .p1305Reset => .reset
  | .hmacSetkey _ _ _ | .cmacSetkey _ | .gmacSetkey _ | .p1305Setkey _ => .setkey
  | .gmacSetnonce _ => .setnonce
  | .rmdAbsorb _ | .hmacAbsorb _ | .cmacAbsorb _ | .gmacAbsorb _ | .p1305Absorb _ => .absorb
  | .rmdFinalize _ | .hmacFinalize _ | .cmacFinalize _ | .gmacFinalize _ | .p1305Finalize _ => .finalize
  | .rmdCompute _ _ | .hmacCompute _ _ | .cmacCompute _ _ | .gmacCompute _ _ | .p1305Compute _ _ => .compute
  | .hmacVerify _ | .cmacVerify _ | .gmacVerify _ | .p1305Verify _ => .verify
  | .rmdZeroize | .hmacZeroize | .cmacZeroize | .gmacZeroize | .p1305Zeroize => .zeroize

/-- The ARG field a command carries: CAP, or ALG_IN then ALG_OUT, or 0 (R75). -/
def Instr.arg : Instr → BitVec 8
  | .rmdFinalize cap | .hmacFinalize cap | .cmacFinalize cap | .gmacFinalize cap | .p1305Finalize cap => cap
  | .rmdCompute cap _ | .hmacCompute cap _ | .cmacCompute cap _ | .gmacCompute cap _ | .p1305Compute cap _ => cap
  | .hmacSetkey algIn algOut _ => algIn ++ algOut
  | .rmdReset | .hmacReset | .cmacReset | .gmacReset | .p1305Reset => 0
  | .cmacSetkey _ | .gmacSetkey _ | .p1305Setkey _ | .gmacSetnonce _ => 0
  | .rmdAbsorb _ | .hmacAbsorb _ | .cmacAbsorb _ | .gmacAbsorb _ | .p1305Absorb _ => 0
  | .hmacVerify _ | .cmacVerify _ | .gmacVerify _ | .p1305Verify _ => 0
  | .rmdZeroize | .hmacZeroize | .cmacZeroize | .gmacZeroize | .p1305Zeroize => 0

/-- The payload a command carries (R76). -/
def Instr.payload : Instr → List Byte
  | .rmdAbsorb d | .hmacAbsorb d | .cmacAbsorb d | .gmacAbsorb d | .p1305Absorb d => d
  | .rmdCompute _ d | .hmacCompute _ d | .cmacCompute _ d | .gmacCompute _ d | .p1305Compute _ d => d
  | .hmacSetkey _ _ k | .cmacSetkey k | .gmacSetkey k | .p1305Setkey k => k
  | .gmacSetnonce n => n
  | .hmacVerify t | .cmacVerify t | .gmacVerify t | .p1305Verify t => t
  | .rmdReset | .hmacReset | .cmacReset | .gmacReset | .p1305Reset => []
  | .rmdFinalize _ | .hmacFinalize _ | .cmacFinalize _ | .gmacFinalize _ | .p1305Finalize _ => []
  | .rmdZeroize | .hmacZeroize | .cmacZeroize | .gmacZeroize | .p1305Zeroize => []

end Sys2Proof
end

