-- ==== Sys2Proof/WellFormed.lean ====
section
/-! DEFINITION. When a command can be written down as a command word: its payload fits the 16-bit LEN field
(30_encoding.md R70, R76; 00_scope.md R7, LENMAX). The widths of CAP, ALG_IN and ALG_OUT are in their types. -/

namespace Sys2Proof

/-- A payload fits the LEN field. -/
def fitsLen (payload : List Byte) : Bool := payload.length ≤ Config.lenMax

/-- The check, constructor by constructor. -/
def Instr.wellFormed : Instr → Bool
  | .rmdReset | .hmacReset | .cmacReset | .gmacReset | .p1305Reset => true
  | .rmdFinalize _ | .hmacFinalize _ | .cmacFinalize _ | .gmacFinalize _ | .p1305Finalize _ => true
  | .rmdZeroize | .hmacZeroize | .cmacZeroize | .gmacZeroize | .p1305Zeroize => true
  | .rmdAbsorb d | .hmacAbsorb d | .cmacAbsorb d | .gmacAbsorb d | .p1305Absorb d => fitsLen d
  | .rmdCompute _ d | .hmacCompute _ d | .cmacCompute _ d | .gmacCompute _ d | .p1305Compute _ d => fitsLen d
  | .hmacSetkey _ _ k | .cmacSetkey k | .gmacSetkey k | .p1305Setkey k => fitsLen k
  | .gmacSetnonce n => fitsLen n
  | .hmacVerify t | .cmacVerify t | .gmacVerify t | .p1305Verify t => fitsLen t

end Sys2Proof
end

