-- ==== Sys2Proof/Decode.lean ====
section
/-! DEFINITION. Decoding a command (30_encoding.md R70 to R78, R83), total on every word and payload, and the
encoder written from the same tables. -/

namespace Sys2Proof

/-- Why a pair is no command. `payloadLength` is R70's refusal at the boundary; the others are the causes of
ILLEGAL in R77. -/
inductive Reject where
  | payloadLength | reservedUnit | reservedOp | illegalPair | lenNotZero | argNotZero
deriving DecidableEq, Repr

/-- UNIT, word[31:28] (R71). -/
def unitField (w : Word) : BitVec 4 := w.extractLsb' 28 4

/-- OP, word[27:24] (R71). -/
def opField (w : Word) : BitVec 4 := w.extractLsb' 24 4

/-- ARG, word[23:16] (R71). -/
def argField (w : Word) : BitVec 8 := w.extractLsb' 16 8

/-- LEN, word[15:0], zero-extended (R71, R76). -/
def lenField (w : Word) : Nat := (w.extractLsb' 0 16).toNat

/-- ALG_IN, word[23:20], from ARG (R71, R75). -/
def algInField (arg : BitVec 8) : BitVec 4 := arg.extractLsb' 4 4

/-- ALG_OUT, word[19:16], from ARG (R71, R75). -/
def algOutField (arg : BitVec 8) : BitVec 4 := arg.extractLsb' 0 4

/-- The command word of four fields (R71). -/
def packWord (unit op : BitVec 4) (arg : BitVec 8) (len : BitVec 16) : Word := unit ++ op ++ arg ++ len

/-- UNIT codes (R72). -/
def unitCode : UnitId → BitVec 4
  | .rmd => 0 | .hmac => 1 | .cmac => 2 | .gmac => 3 | .p1305 => 4

/-- Codes 5 to 15 are reserved (R72). -/
def unitOf (code : BitVec 4) : Option UnitId :=
  match code.toNat with
  | 0 => some .rmd | 1 => some .hmac | 2 => some .cmac | 3 => some .gmac | 4 => some .p1305
  | _ => none

/-- OP codes (R73). -/
def opCode : OpId → BitVec 4
  | .reset => 0 | .setkey => 1 | .setnonce => 2 | .absorb => 3
  | .finalize => 4 | .compute => 5 | .verify => 6 | .zeroize => 7

/-- Codes 8 to 15 are reserved (R73). -/
def opOf (code : BitVec 4) : Option OpId :=
  match code.toNat with
  | 0 => some .reset | 1 => some .setkey | 2 => some .setnonce | 3 => some .absorb
  | 4 => some .finalize | 5 => some .compute | 6 => some .verify | 7 => some .zeroize
  | _ => none

/-- RESET, FINALIZE and ZEROIZE require LEN = 0 (R76). -/
def wantsNoPayload : OpId → Bool
  | .reset | .finalize | .zeroize => true
  | .setkey | .setnonce | .absorb | .compute | .verify => false

/-- FINALIZE, COMPUTE and HMAC.SETKEY read ARG; every other command requires ARG = 0 (R75). -/
def readsArg : UnitId → OpId → Bool
  | _, .finalize | _, .compute => true
  | u, .setkey => u == .hmac
  | _, .reset | _, .setnonce | _, .absorb | _, .verify | _, .zeroize => false

/-- The command of a (UNIT, OP) pair, with its operands: the 34 pairs of R74, none for the six illegal ones. -/
def build (u : UnitId) (o : OpId) (arg : BitVec 8) (payload : List Byte) : Option Instr :=
  match u, o with
  | .rmd, .reset => some .rmdReset
  | .rmd, .setkey => none
  | .rmd, .setnonce => none
  | .rmd, .absorb => some (.rmdAbsorb payload)
  | .rmd, .finalize => some (.rmdFinalize arg)
  | .rmd, .compute => some (.rmdCompute arg payload)
  | .rmd, .verify => none
  | .rmd, .zeroize => some .rmdZeroize
  | .hmac, .reset => some .hmacReset
  | .hmac, .setkey => some (.hmacSetkey (algInField arg) (algOutField arg) payload)
  | .hmac, .setnonce => none
  | .hmac, .absorb => some (.hmacAbsorb payload)
  | .hmac, .finalize => some (.hmacFinalize arg)
  | .hmac, .compute => some (.hmacCompute arg payload)
  | .hmac, .verify => some (.hmacVerify payload)
  | .hmac, .zeroize => some .hmacZeroize
  | .cmac, .reset => some .cmacReset
  | .cmac, .setkey => some (.cmacSetkey payload)
  | .cmac, .setnonce => none
  | .cmac, .absorb => some (.cmacAbsorb payload)
  | .cmac, .finalize => some (.cmacFinalize arg)
  | .cmac, .compute => some (.cmacCompute arg payload)
  | .cmac, .verify => some (.cmacVerify payload)
  | .cmac, .zeroize => some .cmacZeroize
  | .gmac, .reset => some .gmacReset
  | .gmac, .setkey => some (.gmacSetkey payload)
  | .gmac, .setnonce => some (.gmacSetnonce payload)
  | .gmac, .absorb => some (.gmacAbsorb payload)
  | .gmac, .finalize => some (.gmacFinalize arg)
  | .gmac, .compute => some (.gmacCompute arg payload)
  | .gmac, .verify => some (.gmacVerify payload)
  | .gmac, .zeroize => some .gmacZeroize
  | .p1305, .reset => some .p1305Reset
  | .p1305, .setkey => some (.p1305Setkey payload)
  | .p1305, .setnonce => none
  | .p1305, .absorb => some (.p1305Absorb payload)
  | .p1305, .finalize => some (.p1305Finalize arg)
  | .p1305, .compute => some (.p1305Compute arg payload)
  | .p1305, .verify => some (.p1305Verify payload)
  | .p1305, .zeroize => some .p1305Zeroize

/-- R78's checks of a known (UNIT, OP) pair, in its order: the pair, then LEN, then ARG. -/
def decodePair (u : UnitId) (o : OpId) (arg : BitVec 8) (len : Nat) (payload : List Byte) : Except Reject Instr :=
  match build u o arg payload with
  | none => .error .illegalPair
  | some i =>
    if wantsNoPayload o && len != 0 then .error .lenNotZero
    else if !readsArg u o && arg != 0 then .error .argNotZero
    else .ok i

/-- R78's decode of a word whose payload has length LEN. -/
def decodeWord (w : Word) (payload : List Byte) : Except Reject Instr :=
  match unitOf (unitField w) with
  | none => .error .reservedUnit
  | some u =>
    match opOf (opField w) with
    | none => .error .reservedOp
    | some o => decodePair u o (argField w) (lenField w) payload

/-- `hasLength l n` says that `l` has length `n`; it walks both at once, so that it evaluates on long payloads. -/
def hasLength : List Byte → Nat → Bool
  | [], 0 => true
  | _ :: t, n + 1 => hasLength t n
  | [], _ + 1 => false
  | _ :: _, 0 => false

/-- The decoder of the channel: R70's check at the boundary first (log 3), then R78. -/
def decode (c : Command) : Except Reject Instr :=
  if hasLength c.payload (lenField c.word) then decodeWord c.word c.payload else .error .payloadLength

/-- The pair of a well-formed command (R70, R71, R74 to R76). -/
def encode (i : Instr) : Command :=
  ⟨packWord (unitCode i.unit) (opCode i.op) i.arg (BitVec.ofNat 16 i.payload.length), i.payload⟩

/-- A row of the opcode table: a word is the row's when `word & mask = match` (R78). -/
structure OpRow where
  mnemonic : String
  pattern : Word
  mask : Word
deriving DecidableEq, Repr

/-- The word is a word of the row (R78). -/
def OpRow.covers (r : OpRow) (w : Word) : Bool := w &&& r.mask == r.pattern

/-- The 34 rows of R74 with the masks of the opcode table. -/
def opTable : List OpRow :=
  [⟨"RMD.RESET", 0x00000000, 0xFFFFFFFF⟩, ⟨"RMD.ABSORB", 0x03000000, 0xFFFF0000⟩,
   ⟨"RMD.FINALIZE", 0x04000000, 0xFF00FFFF⟩, ⟨"RMD.COMPUTE", 0x05000000, 0xFF000000⟩,
   ⟨"RMD.ZEROIZE", 0x07000000, 0xFFFFFFFF⟩] ++
  [⟨"HMAC.RESET", 0x10000000, 0xFFFFFFFF⟩, ⟨"HMAC.SETKEY", 0x11000000, 0xFF000000⟩,
   ⟨"HMAC.ABSORB", 0x13000000, 0xFFFF0000⟩, ⟨"HMAC.FINALIZE", 0x14000000, 0xFF00FFFF⟩,
   ⟨"HMAC.COMPUTE", 0x15000000, 0xFF000000⟩, ⟨"HMAC.VERIFY", 0x16000000, 0xFFFF0000⟩,
   ⟨"HMAC.ZEROIZE", 0x17000000, 0xFFFFFFFF⟩] ++
  [⟨"CMAC.RESET", 0x20000000, 0xFFFFFFFF⟩, ⟨"CMAC.SETKEY", 0x21000000, 0xFFFF0000⟩,
   ⟨"CMAC.ABSORB", 0x23000000, 0xFFFF0000⟩, ⟨"CMAC.FINALIZE", 0x24000000, 0xFF00FFFF⟩,
   ⟨"CMAC.COMPUTE", 0x25000000, 0xFF000000⟩, ⟨"CMAC.VERIFY", 0x26000000, 0xFFFF0000⟩,
   ⟨"CMAC.ZEROIZE", 0x27000000, 0xFFFFFFFF⟩] ++
  [⟨"GMAC.RESET", 0x30000000, 0xFFFFFFFF⟩, ⟨"GMAC.SETKEY", 0x31000000, 0xFFFF0000⟩,
   ⟨"GMAC.SETNONCE", 0x32000000, 0xFFFF0000⟩, ⟨"GMAC.ABSORB", 0x33000000, 0xFFFF0000⟩,
   ⟨"GMAC.FINALIZE", 0x34000000, 0xFF00FFFF⟩, ⟨"GMAC.COMPUTE", 0x35000000, 0xFF000000⟩,
   ⟨"GMAC.VERIFY", 0x36000000, 0xFFFF0000⟩, ⟨"GMAC.ZEROIZE", 0x37000000, 0xFFFFFFFF⟩] ++
  [⟨"P1305.RESET", 0x40000000, 0xFFFFFFFF⟩, ⟨"P1305.SETKEY", 0x41000000, 0xFFFF0000⟩,
   ⟨"P1305.ABSORB", 0x43000000, 0xFFFF0000⟩, ⟨"P1305.FINALIZE", 0x44000000, 0xFF00FFFF⟩,
   ⟨"P1305.COMPUTE", 0x45000000, 0xFF000000⟩, ⟨"P1305.VERIFY", 0x46000000, 0xFFFF0000⟩,
   ⟨"P1305.ZEROIZE", 0x47000000, 0xFFFFFFFF⟩]

/-- The pair of an opcode-table word: its `nbits` bits, the rest 0, and a payload of LEN zero bytes (log 1). -/
def tableCommand (nbits w : Nat) : Command :=
  let word : Word := BitVec.ofNat 32 (w % 2 ^ nbits)
  ⟨word, List.replicate (lenField word) 0⟩

/-- The instruction the decoder reads from an opcode-table word. -/
def decodeTableWord (nbits w : Nat) : Option Instr :=
  match decode (tableCommand nbits w) with
  | .ok i => some i
  | .error _ => none

end Sys2Proof
end

