-- ==== Sys2Proof/Machine/Bytes.lean ====
section
/-! DEFINITION. Byte strings: little- and big-endian readings and writings, zero padding, bytewise xor, blocks
(00_scope.md R9, R10; 20_memory.md R52 to R55). -/

namespace Sys2Proof.Machine

/-- `zeros(n)` (R9). -/
def zeros (n : Nat) : List Byte := List.replicate n 0

/-- `LE(bs)` (R9). -/
def leNat : List Byte → Nat
  | [] => 0
  | b :: bs => b.toNat + 256 * leNat bs

/-- `BE(bs)` (R9): the first byte is the most significant. -/
def beNat (bs : List Byte) : Nat := leNat bs.reverse

/-- `LEbytes_n(v)` (R9). -/
def leBytes : Nat → Nat → List Byte
  | 0, _ => []
  | n + 1, v => BitVec.ofNat 8 v :: leBytes n (v / 256)

/-- `BEbytes_n(v)` (R9). -/
def beBytes (n v : Nat) : List Byte := (leBytes n v).reverse

/-- `xor(a, b)`, bytewise (R10). -/
def xorBytes (a b : List Byte) : List Byte := List.zipWith (· ^^^ ·) a b

/-- A byte string as the first bytes of an `n`-byte array, zero beyond its end. -/
def toArray (n : Nat) (bs : List Byte) : Vector Byte n :=
  ⟨⟨(bs ++ zeros n).take n⟩, by simp [zeros]⟩

/-- The block of a 16-byte string: `BE` of it (R53, R54). -/
def blockOf (bs : List Byte) : Block := BitVec.ofNat 128 (beNat bs)

/-- The 16-byte string of a block (R53, R54). -/
def blockBytes (b : Block) : List Byte := beBytes 16 b.toNat

/-- The consecutive `n`-byte pieces of a byte string, the last one perhaps shorter. `fuel` bounds their number. -/
def piecesUpTo (n : Nat) : Nat → List Byte → List (List Byte)
  | 0, _ => []
  | fuel + 1, bs => if bs.isEmpty then [] else bs.take n :: piecesUpTo n fuel (bs.drop n)

/-- The consecutive `n`-byte pieces of a byte string (for `0 < n`). -/
def pieces (n : Nat) (bs : List Byte) : List (List Byte) := piecesUpTo n bs.length bs

end Sys2Proof.Machine
end

