-- ==== Sys2Proof/Machine/State.lean ====
section
/-! DEFINITION. The state of the block as plain data (10_state.md R20 to R39), its power-on value, the error codes
and the reasons a step or a read can stop. -/

namespace Sys2Proof.Machine

/-- The phase of a unit (R24). -/
inductive Phase where
  | unkeyed | nonceWait | active | finalized
deriving DecidableEq, Repr

/-- The error codes by name (60_exceptions.md R251). -/
inductive ErrCode where
  | ok | illegal | keyInvalid | unknownAlg | algMismatch | outputTooSmall | invalidState | nonceInvalid
  | tagLength | authFail | msgTooLong
deriving DecidableEq, Repr

/-- A pending-block buffer: `n` bytes and the count of valid bytes at its front (R27, R30 to R32, R110). -/
structure Buf (n : Nat) where
  bytes : Vector Byte n
  fill : Nat
deriving DecidableEq, Repr

/-- The empty buffer, all bytes zero. -/
def Buf.zero (n : Nat) : Buf n := ⟨Vector.replicate n 0, 0⟩

/-- RmdCtx, the RIPEMD-160 context without a phase (R27). `nbytes` is the 61-bit count of message bytes. -/
structure RmdCtx where
  h : Chain
  buf : Buf 64
  nbytes : BitVec 61
deriving DecidableEq, Repr

/-- The RMD context, unit 0 (R27). -/
structure RmdUnit extends RmdCtx where
  phase : Phase
deriving DecidableEq, Repr

/-- DigestCtx, the inner digest context of HMAC (R29): RIPEMD-160's, or the bytes an external digest has absorbed. -/
inductive DigestCtx where
  | rmd (c : RmdCtx)
  | ext (absorbed : List Byte)
deriving DecidableEq, Repr

/-- The HMAC context, unit 1 (R28). -/
structure HmacUnit where
  phase : Phase
  alg : BitVec 4
  B : Nat
  L : Nat
  ipad : Vector Byte 128
  opad : Vector Byte 128
  inner : DigestCtx
deriving DecidableEq, Repr

/-- The CMAC context, unit 2 (R30). -/
structure CmacUnit where
  phase : Phase
  keylen : Nat
  key : Vector Byte 32
  K1 : Block
  K2 : Block
  C : Block
  buf : Buf 16
deriving DecidableEq, Repr

/-- The GMAC context, unit 3 (R31). -/
structure GmacUnit where
  phase : Phase
  keylen : Nat
  key : Vector Byte 32
  H : Block
  J0 : Block
  X : Block
  buf : Buf 16
  nbytes : BitVec 61
deriving DecidableEq, Repr

/-- The P1305 context, unit 4 (R32). `h` is the exact residue modulo 2^130 - 5 (45_poly1305.md R231). -/
structure PolyUnit where
  phase : Phase
  r : BitVec 128
  s : BitVec 128
  h : Nat
  buf : Buf 16
deriving DecidableEq, Repr

/-- The state of the block (R20), and the model's own two fields, the host's command sequence and the index of its
next command (R22; DESIGN CHOICE, log 1, safe). `err` is STATUS[3:0], `outlen` is OUTLEN[7:0]; the reserved bits have
no storage (R23, R25; DEDUCED, log 9, safe). -/
structure State where
  cmds : List Command
  pos : Nat
  err : BitVec 4
  outlen : BitVec 8
  out : Vector Byte 64
  rmd : RmdUnit
  hmac : HmacUnit
  cmac : CmacUnit
  gmac : GmacUnit
  p1305 : PolyUnit
deriving DecidableEq, Repr

/-- The RMD row of R39: power-on, and what RMD.ZEROIZE installs. -/
def RmdUnit.zero : RmdUnit := ⟨⟨ripemdIV, Buf.zero 64, 0⟩, .active⟩

/-- Z_HMAC (R39). -/
def HmacUnit.zero : HmacUnit :=
  ⟨.unkeyed, 0, 0, 0, Vector.replicate 128 0, Vector.replicate 128 0, .rmd ⟨⟨0, 0, 0, 0, 0⟩, Buf.zero 64, 0⟩⟩

/-- Z_CMAC (R39). -/
def CmacUnit.zero : CmacUnit := ⟨.unkeyed, 0, Vector.replicate 32 0, 0, 0, 0, Buf.zero 16⟩

/-- Z_GMAC (R39). -/
def GmacUnit.zero : GmacUnit := ⟨.unkeyed, 0, Vector.replicate 32 0, 0, 0, 0, Buf.zero 16, 0⟩

/-- Z_P1305 (R39). -/
def PolyUnit.zero : PolyUnit := ⟨.unkeyed, 0, 0, 0, Buf.zero 16⟩

/-- Power-on reset (R39, 70_reset_and_hazards.md R280), with nothing on the command channel (log 1). -/
def State.reset : State where
  cmds := []
  pos := 0
  err := 0
  outlen := 0
  out := Vector.replicate 64 0
  rmd := RmdUnit.zero
  hmac := HmacUnit.zero
  cmac := CmacUnit.zero
  gmac := GmacUnit.zero
  p1305 := PolyUnit.zero

/-- The reasons a step can stop the machine with a fault: none. No command traps, hangs or stops the block
(60_exceptions.md R250, R256; 40_contract_and_buffer.md R101). Safe: no step answers a fault. -/
inductive Fault where
deriving DecidableEq, Repr

/-- What is refused because it is no input of the interface. -/
inductive Refusal where
  /-- Raised by an arm of `exec` whose instruction has no meaning yet; no arm does. Safe. -/
  | notModelled (mnemonic : String)
  /-- Raised by `step` on a pair whose payload length differs from LEN (R70, U11): refused before any step. Safe. -/
  | payloadLength
  /-- Raised by `readPort` on an offset that is not a multiple of 4 (R58, U10). Safe. -/
  | readMisaligned
  /-- Raised by `readPort` on an offset of 0x1000 or more (R59, U10). Safe. -/
  | readBeyondMap
deriving DecidableEq, Repr

end Sys2Proof.Machine
end

