-- ==== Sys2Proof/Machine/Buffer.lean ====
section
/-! DEFINITION. The block buffer engine (40_contract_and_buffer.md R110 to R112) over any accumulator `α` and block
transform `T`. -/

namespace Sys2Proof.Machine

variable {α : Type} {n : Nat}

/-- `buf[fill] <- b; fill <- fill + 1`. A write outside the buffer is dropped; no state that meets the invariant does
one (DESIGN CHOICE, log 16). -/
def Buf.push (b : Buf n) (x : Byte) : Buf n := ⟨b.bytes.setIfInBounds b.fill x, b.fill + 1⟩

/-- `fill <- 0`; the bytes stay, now stale (R35, log 12). -/
def Buf.empty (b : Buf n) : Buf n := ⟨b.bytes, 0⟩

/-- `buf[0 .. fill)`. -/
def Buf.pending (b : Buf n) : List Byte := b.bytes.toList.take b.fill

/-- One byte of EAGER_ABSORB (R110). -/
def eagerByte (T : α → List Byte → α) (p : α × Buf n) (x : Byte) : α × Buf n :=
  let b := p.2.push x
  if b.fill = n then (T p.1 b.bytes.toList, b.empty) else (p.1, b)

/-- EAGER_ABSORB (R110), less the length count. -/
def eagerAbsorb (T : α → List Byte → α) (p : α × Buf n) (data : List Byte) : α × Buf n :=
  data.foldl (eagerByte T) p

/-- One byte of HOLDBACK_ABSORB (R112). -/
def holdbackByte (T : α → List Byte → α) (p : α × Buf n) (x : Byte) : α × Buf n :=
  if p.2.fill = n then (T p.1 p.2.bytes.toList, p.2.empty.push x) else (p.1, p.2.push x)

/-- HOLDBACK_ABSORB (R112). -/
def holdbackAbsorb (T : α → List Byte → α) (p : α × Buf n) (data : List Byte) : α × Buf n :=
  data.foldl (holdbackByte T) p

/-- Steps (b) and (c) of the source's procedure (R111): full blocks straight from the input, then the tail. `fuel`
bounds the number of blocks. -/
def directBlocks (n : Nat) (T : α → List Byte → α) : Nat → α → List Byte → α × List Byte
  | 0, acc, bs => (acc, bs)
  | fuel + 1, acc, bs => if bs.length < n then (acc, bs) else directBlocks n T fuel (T acc (bs.take n)) (bs.drop n)

/-- The source's block-form procedure (R111), on the accumulator and the pending bytes: (a) complete a pending block,
(b) process full blocks directly from the input, (c) keep the tail. -/
def blockFormAbsorb (n : Nat) (T : α → List Byte → α) (acc : α) (pending data : List Byte) : α × List Byte :=
  if pending.isEmpty then directBlocks n T data.length acc data
  else if pending.length + data.length < n then (acc, pending ++ data)
  else
    let missing := n - pending.length
    directBlocks n T data.length (T acc (pending ++ data.take missing)) (data.drop missing)

end Sys2Proof.Machine
end

