-- ==== Sys2Proof/Machine/Flags.lean ====
section
/-! DEFINITION. The block's only flag, STATUS.ERR: its codes (60_exceptions.md R251), writing it (10_state.md R23), the
words the host reads it and the phases in (R23, R24, R25), and VERIFY's comparison (40_contract_and_buffer.md R108). -/

namespace Sys2Proof.Machine

/-- The numeric codes (R251). -/
def errValue : ErrCode → BitVec 4
  | .ok => 0
  | .illegal => 1
  | .keyInvalid => 2
  | .unknownAlg => 3
  | .algMismatch => 4
  | .outputTooSmall => 5
  | .invalidState => 6
  | .nonceInvalid => 7
  | .tagLength => 8
  | .authFail => 9
  | .msgTooLong => 10

/-- `STATUS.ERR <- c` (R23). -/
def State.setErr (s : State) (c : ErrCode) : State := { s with err := errValue c }

/-- The 2-bit code of a phase (R24). -/
def phaseValue : Phase → BitVec 2
  | .unkeyed => 0
  | .nonceWait => 1
  | .active => 2
  | .finalized => 3

/-- STATUS as the host reads it: ERR in [3:0], the rest 0 (R23). -/
def State.statusWord (s : State) : Word := s.err.setWidth 32

/-- UNITSTATE: bits [2u+1:2u] hold the phase of unit u, bits [31:10] read as 0 (R24). -/
def State.unitStateWord (s : State) : Word :=
  (0 : BitVec 22) ++ phaseValue s.p1305.phase ++ phaseValue s.gmac.phase ++ phaseValue s.cmac.phase
    ++ phaseValue s.hmac.phase ++ phaseValue s.rmd.phase

/-- OUTLEN as the host reads it: the count in [7:0], the rest 0 (R25). -/
def State.outlenWord (s : State) : Word := s.outlen.setWidth 32

/-- The `diff` of R108: the or of the xors of all bytes, with no early exit (R254). -/
def tagDiff (computed expected : List Byte) : Byte := (xorBytes computed expected).foldl (· ||| ·) 0

/-- VERIFY's result: OK when no byte differs, else AUTH_FAIL (R108). -/
def verifyResult (computed expected : List Byte) : ErrCode :=
  if tagDiff computed expected = 0 then .ok else .authFail

end Sys2Proof.Machine
end

