-- ==== Sys2Proof/Machine/Operands.lean ====
section
/-! DEFINITION. What the operands of a command stand for and when they are valid (30_encoding.md R75, R76). The field
extraction itself is the decoder's. -/

namespace Sys2Proof.Machine

/-- CAP: ARG zero-extended, the declared output capacity in bytes (R75). -/
def capValue (cap : BitVec 8) : Nat := cap.toNat

/-- A cipher key is valid when its length is in CIPHER_KEY_LENGTHS (43_cmac.md R190, 44_gmac.md R217). -/
def validCipherKey (key : List Byte) : Bool := Config.cipherKeyLengths.contains key.length

/-- A Poly1305 key is exactly 32 bytes (45_poly1305.md R235). -/
def validPolyKey (key : List Byte) : Bool := key.length == Config.polyKeyLength

/-- An HMAC key is refused only when it is empty and P_HMAC_EMPTY_KEY is false (42_hmac.md R175). -/
def validHmacKey (emptyOk : Bool) (key : List Byte) : Bool := !key.isEmpty || emptyOk

/-- A nonce is not empty (44_gmac.md R218). -/
def validNonce (nonce : List Byte) : Bool := !nonce.isEmpty

end Sys2Proof.Machine
end

