-- ==== Sys2Proof/Machine/Ops.lean ====
section
/-! DEFINITION. The operations every unit shares: raising an error, ending a command, writing a result, taking the next
command of the channel, power-on reset, and the common shapes of RESET, ABSORB, FINALIZE, COMPUTE, VERIFY and ZEROIZE
(40_contract_and_buffer.md R100 to R109). -/

namespace Sys2Proof.Machine

/-- What every meaning answers: the type of a step. -/
abbrev Answer := Host.Outcome State Fault Refusal

/-- `raise Err(c)`, this block's way of taking an exception (60_exceptions.md R253): STATUS.ERR takes the code and
nothing else changes. There is no handler, no saved register and so no return (R250, R256). -/
def State.raise (s : State) (c : ErrCode) : State := s.setErr c

/-- A command that ended without a raise: `STATUS.ERR <- OK` (R100). -/
def State.succeed (s : State) : State := s.setErr .ok

def State.setRmd (s : State) (c : RmdUnit) : State := { s with rmd := c }
def State.setHmac (s : State) (c : HmacUnit) : State := { s with hmac := c }
def State.setCmac (s : State) (c : CmacUnit) : State := { s with cmac := c }
def State.setGmac (s : State) (c : GmacUnit) : State := { s with gmac := c }
def State.setP1305 (s : State) (c : PolyUnit) : State := { s with p1305 := c }

/-- `OUT[i] <- T[i]` for the bytes of `T`; the bytes beyond keep their values (10_state.md R26). -/
def overlay (out : Vector Byte 64) (T : List Byte) : Vector Byte 64 :=
  ⟨⟨(T ++ out.toList.drop T.length).take 64⟩, by simp; omega⟩

/-- `OUT[0..L-1] <- T; OUTLEN <- L` (R106). -/
def State.writeResult (s : State) (T : List Byte) (L : Nat) : State :=
  { s with out := overlay s.out T, outlen := BitVec.ofNat 8 L }

/-- Power-on reset while the host's sequence goes on (70_reset_and_hazards.md R280, R281, 60_exceptions.md R262): every
field of the block takes its R39 value (DESIGN CHOICE, log 15: the channel is the host's and stays). -/
def State.powerOn (s : State) : State := { State.reset with cmds := s.cmds, pos := s.pos }

/-- The command the host presents next, if any (10_state.md R22). -/
def fetch (s : State) : Option Command := s.cmds[s.pos]?

/-- The index of the next command advances by one (R22). -/
def State.advance (s : State) : State := { s with pos := s.pos + 1 }

/-- The list with `x` at index `i`, lengthened by copies of `x` where it is too short. -/
def placeAt {α : Type} (x : α) : List α → Nat → List α
  | [], 0 => [x]
  | _ :: t, 0 => x :: t
  | [], i + 1 => x :: placeAt x [] i
  | a :: t, i + 1 => a :: placeAt x t i

/-- The pieces a unit supplies to the common shapes (R103 to R109): where its context is, its phase, `L_u`, `INIT_u`,
`ABSORB_u`, `FINAL_u`, its length count (none when it keeps none, R105) and `Z_u`. -/
structure UnitShape (C : Type) where
  get : State → C
  put : State → C → State
  phase : C → Phase
  setPhase : C → Phase → C
  outSize : C → Nat
  init : C → C
  absorb : C → List Byte → C
  final : C → C × List Byte
  count : C → Option Nat
  zero : C

variable {C : Type}

/-- The phases in which RESET and COMPUTE are legal (R102). -/
def Phase.isKeyed (p : Phase) : Bool := p == .active || p == .finalized

/-- Whether `n` more bytes would raise a count above MAXMSG (R105). -/
def exceedsMaxMsg (count : Option Nat) (n : Nat) : Bool :=
  match count with
  | none => false
  | some m => decide (Config.maxMsg < m + n)

/-- RESET: the phase check of R102, then `INIT_u` and ACTIVE. -/
def resetShape (U : UnitShape C) (s : State) : State :=
  if (U.phase (U.get s)).isKeyed then (U.put s (U.setPhase (U.init (U.get s)) .active)).succeed
  else s.raise .invalidState

/-- ABSORB (R104, R105). -/
def absorbShape (U : UnitShape C) (data : List Byte) (s : State) : State :=
  if U.phase (U.get s) ≠ .active then s.raise .invalidState
  else if exceedsMaxMsg (U.count (U.get s)) data.length then s.raise .msgTooLong
  else (U.put s (U.absorb (U.get s) data)).succeed

/-- The end of FINALIZE and COMPUTE: `T <- FINAL_u(ctx)`, the result written, FINALIZED (R106, R107). -/
def produce (U : UnitShape C) (c : C) (s : State) : State :=
  ((U.put s (U.setPhase (U.final c).1 .finalized)).writeResult (U.final c).2 (U.outSize c)).succeed

/-- FINALIZE (R106). -/
def finalizeShape (U : UnitShape C) (cap : BitVec 8) (s : State) : State :=
  if U.phase (U.get s) ≠ .active then s.raise .invalidState
  else if capValue cap < U.outSize (U.get s) then s.raise .outputTooSmall
  else produce U (U.get s) s

/-- COMPUTE (R107). -/
def computeShape (U : UnitShape C) (cap : BitVec 8) (data : List Byte) (s : State) : State :=
  if !(U.phase (U.get s)).isKeyed then s.raise .invalidState
  else if capValue cap < U.outSize (U.get s) then s.raise .outputTooSmall
  else produce U (U.absorb (U.init (U.get s)) data) s

/-- VERIFY (R108). It writes STATUS.ERR itself, and neither OUT nor OUTLEN. -/
def verifyShape (U : UnitShape C) (tag : List Byte) (s : State) : State :=
  if U.phase (U.get s) ≠ .active then s.raise .invalidState
  else if tag.length ≠ U.outSize (U.get s) then s.raise .tagLength
  else (U.put s (U.setPhase (U.final (U.get s)).1 .finalized)).setErr (verifyResult (U.final (U.get s)).2 tag)

/-- ZEROIZE (R109). -/
def zeroizeShape (U : UnitShape C) (s : State) : State := (U.put s U.zero).succeed

end Sys2Proof.Machine
end

