-- ==== Sys2Proof/Machine/Cmac.lean ====
section
/-! DEFINITION. The CMAC unit (43_cmac.md): doubling, subkeys, chaining, the last-block selector, and the meanings of
the seven CMAC commands. `E` is the block cipher. -/

namespace Sys2Proof.Machine

open Config (Cipher)

/-- DOUBLE (R191): shift left, and xor 0x87 when the bit shifted out was 1. -/
def cmacDouble (b : Block) : Block := if b.msb then (b <<< 1) ^^^ 0x87 else b <<< 1

/-- CMAC_SUBKEYS (R192): K1 and K2. `L` is a local value only (10_state.md R37). -/
def cmacSubkeys (E : Cipher) (key : List Byte) : Block × Block :=
  let L := E key 0
  (cmacDouble L, cmacDouble (cmacDouble L))

/-- The loaded key: `key[0 .. keylen)`. -/
def CmacUnit.cipherKey (u : CmacUnit) : List Byte := u.key.toList.take u.keylen

/-- CMAC_BLOCK (R193). -/
def cmacBlock (E : Cipher) (key : List Byte) (C : Block) (blk : List Byte) : Block := E key (C ^^^ blockOf blk)

/-- The last block `M` of the selector (R194): a full block under K1, a padded one under K2. -/
def cmacLastBlock (K1 K2 : Block) (buf : Buf 16) : Block :=
  if buf.fill = 16 then blockOf buf.bytes.toList ^^^ K1
  else blockOf (buf.pending ++ 0x80 :: zeros (15 - buf.fill)) ^^^ K2

/-- CMAC_FINAL (R194): `buf` and `fill` are zeroed, `C` is kept (log 13). -/
def cmacFinal (E : Cipher) (u : CmacUnit) : CmacUnit × List Byte :=
  ({ u with buf := Buf.zero 16 }, blockBytes (E u.cipherKey (u.C ^^^ cmacLastBlock u.K1 u.K2 u.buf)))

/-- CMAC_INIT (R202). -/
def cmacInit (u : CmacUnit) : CmacUnit := { u with C := 0, buf := Buf.zero 16 }

/-- HOLDBACK_ABSORB with CMAC_BLOCK (R112, R197). -/
def cmacAbsorb (E : Cipher) (u : CmacUnit) (data : List Byte) : CmacUnit :=
  { u with
    C := (holdbackAbsorb (cmacBlock E u.cipherKey) (u.C, u.buf) data).1
    buf := (holdbackAbsorb (cmacBlock E u.cipherKey) (u.C, u.buf) data).2 }

/-- The CMAC unit's pieces of the common shapes (43_cmac.md section 2). It keeps no length count (R202). -/
def cmacShape (E : Cipher) : UnitShape CmacUnit where
  get := State.cmac
  put := State.setCmac
  phase := CmacUnit.phase
  setPhase := fun u p => { u with phase := p }
  outSize := fun _ => Config.macSize
  init := cmacInit
  absorb := cmacAbsorb E
  final := cmacFinal E
  count := fun _ => none
  zero := CmacUnit.zero

/-- The context a successful SETKEY installs (R195). -/
def cmacKeyed (E : Cipher) (key : List Byte) : CmacUnit :=
  ⟨.active, key.length, toArray 32 key, (cmacSubkeys E key).1, (cmacSubkeys E key).2, 0, Buf.zero 16⟩

/-- CMAC.SETKEY over a cipher (R195). -/
def cmacSetkey (E : Cipher) (key : List Byte) (s : State) : State :=
  if !validCipherKey key then s.raise .keyInvalid else (s.setCmac (cmacKeyed E key)).succeed

/-- CMAC.SETKEY (R195). -/
def execCmacSetkey (key : List Byte) (s : State) : Answer := .next (cmacSetkey Config.cipher key s)

/-- CMAC.RESET (R196). -/
def execCmacReset (s : State) : Answer := .next (resetShape (cmacShape Config.cipher) s)

/-- CMAC.ABSORB (R197). -/
def execCmacAbsorb (data : List Byte) (s : State) : Answer := .next (absorbShape (cmacShape Config.cipher) data s)

/-- CMAC.FINALIZE (R198). -/
def execCmacFinalize (cap : BitVec 8) (s : State) : Answer :=
  .next (finalizeShape (cmacShape Config.cipher) cap s)

/-- CMAC.COMPUTE (R199). -/
def execCmacCompute (cap : BitVec 8) (data : List Byte) (s : State) : Answer :=
  .next (computeShape (cmacShape Config.cipher) cap data s)

/-- CMAC.VERIFY (R200). -/
def execCmacVerify (tag : List Byte) (s : State) : Answer := .next (verifyShape (cmacShape Config.cipher) tag s)

/-- CMAC.ZEROIZE (R201). -/
def execCmacZeroize (s : State) : Answer := .next (zeroizeShape (cmacShape Config.cipher) s)

end Sys2Proof.Machine
end

