-- ==== Sys2Proof/Machine/Gmac.lean ====
section
/-! DEFINITION. The GMAC unit (44_gmac.md): the GF(2^128) multiplier, GHASH, J0, the tag, and the meanings of the eight
GMAC commands. `E` is the block cipher. -/

namespace Sys2Proof.Machine

open Config (Cipher)

/-- One iteration of GFMUL (R211): `Z` takes `V` when bit `127 - i` of `x` is set; `V` is shifted right, with 0xE1
entering the top byte when a 1-bit is shifted out. -/
def gfStep (x : Block) (p : Block × Block) (i : Nat) : Block × Block :=
  (if x.getLsbD (127 - i) then p.1 ^^^ p.2 else p.1,
    if p.2.getLsbD 0 then (p.2 >>> 1) ^^^ ((0xE1 : Block) <<< 120) else p.2 >>> 1)

/-- GFMUL (R211), on blocks read big-endian (R210). -/
def gfMul (x y : Block) : Block := ((List.range 128).foldl (gfStep x) (0, y)).1

/-- GHASH_BLOCK (R212). -/
def ghashBlock (H : Block) (X : Block) (blk : List Byte) : Block := gfMul (X ^^^ blockOf blk) H

/-- `GHASH(H, D)` (R212). -/
def ghash (H : Block) (D : List Byte) : Block := (pieces 16 D).foldl (ghashBlock H) 0

/-- DERIVE_J0 (R214). -/
def deriveJ0 (H : Block) (N : List Byte) : Block :=
  if N.length = 12 then blockOf (N ++ [0x00, 0x00, 0x00, 0x01])
  else ghash H (N ++ zeros ((16 - N.length % 16) % 16) ++ zeros 8 ++ beBytes 8 (8 * N.length))

/-- The loaded key: `key[0 .. keylen)`. -/
def GmacUnit.cipherKey (u : GmacUnit) : List Byte := u.key.toList.take u.keylen

/-- GMAC_INIT (R215). -/
def gmacInit (u : GmacUnit) : GmacUnit := { u with X := 0, buf := Buf.zero 16, nbytes := 0 }

/-- EAGER_ABSORB with GHASH_BLOCK, and the count (R110, R220). -/
def gmacAbsorb (u : GmacUnit) (data : List Byte) : GmacUnit :=
  { u with
    X := (eagerAbsorb (ghashBlock u.H) (u.X, u.buf) data).1
    buf := (eagerAbsorb (ghashBlock u.H) (u.X, u.buf) data).2
    nbytes := u.nbytes + BitVec.ofNat 61 data.length }

/-- The accumulator after the zero-padded partial block and the length block (R216). -/
def gmacLastX (u : GmacUnit) : Block :=
  let X := if 0 < u.buf.fill then ghashBlock u.H u.X (u.buf.pending ++ zeros (16 - u.buf.fill)) else u.X
  ghashBlock u.H X (beBytes 8 (8 * u.nbytes.toNat) ++ zeros 8)

/-- GMAC_FINAL (R216): `X` is the last accumulator, `buf` and `fill` are zeroed, `nbytes` is kept (log 13). -/
def gmacFinal (E : Cipher) (u : GmacUnit) : GmacUnit × List Byte :=
  ({ u with X := gmacLastX u, buf := Buf.zero 16 }, blockBytes (gmacLastX u ^^^ E u.cipherKey u.J0))

/-- The GMAC unit's pieces of the common shapes (44_gmac.md section 4). -/
def gmacShape (E : Cipher) : UnitShape GmacUnit where
  get := State.gmac
  put := State.setGmac
  phase := GmacUnit.phase
  setPhase := fun u p => { u with phase := p }
  outSize := fun _ => Config.macSize
  init := gmacInit
  absorb := gmacAbsorb
  final := gmacFinal E
  count := fun u => some u.nbytes.toNat
  zero := GmacUnit.zero

/-- The context a successful SETKEY installs (R217). -/
def gmacKeyed (E : Cipher) (key : List Byte) : GmacUnit :=
  ⟨.nonceWait, key.length, toArray 32 key, E key 0, 0, 0, Buf.zero 16, 0⟩

/-- GMAC.SETKEY over a cipher (R217). -/
def gmacSetkey (E : Cipher) (key : List Byte) (s : State) : State :=
  if !validCipherKey key then s.raise .keyInvalid else (s.setGmac (gmacKeyed E key)).succeed

/-- The context a successful SETNONCE leaves (R218): J0 derived, the nonce itself not stored, ACTIVE. -/
def gmacNonced (u : GmacUnit) (nonce : List Byte) : GmacUnit :=
  { gmacInit u with J0 := deriveJ0 u.H nonce, phase := .active }

/-- GMAC.SETNONCE on the state (R218). -/
def gmacSetnonce (nonce : List Byte) (s : State) : State :=
  if s.gmac.phase = .unkeyed then s.raise .invalidState
  else if !validNonce nonce then s.raise .nonceInvalid
  else (s.setGmac (gmacNonced s.gmac nonce)).succeed

/-- GMAC.SETKEY (R217). -/
def execGmacSetkey (key : List Byte) (s : State) : Answer := .next (gmacSetkey Config.cipher key s)

/-- GMAC.SETNONCE (R218). -/
def execGmacSetnonce (nonce : List Byte) (s : State) : Answer := .next (gmacSetnonce nonce s)

/-- GMAC.RESET (R219). -/
def execGmacReset (s : State) : Answer := .next (resetShape (gmacShape Config.cipher) s)

/-- GMAC.ABSORB (R220). -/
def execGmacAbsorb (data : List Byte) (s : State) : Answer := .next (absorbShape (gmacShape Config.cipher) data s)

/-- GMAC.FINALIZE (R221). -/
def execGmacFinalize (cap : BitVec 8) (s : State) : Answer :=
  .next (finalizeShape (gmacShape Config.cipher) cap s)

/-- GMAC.COMPUTE (R222). -/
def execGmacCompute (cap : BitVec 8) (data : List Byte) (s : State) : Answer :=
  .next (computeShape (gmacShape Config.cipher) cap data s)

/-- GMAC.VERIFY (R223). -/
def execGmacVerify (tag : List Byte) (s : State) : Answer := .next (verifyShape (gmacShape Config.cipher) tag s)

/-- GMAC.ZEROIZE (R224). -/
def execGmacZeroize (s : State) : Answer := .next (zeroizeShape (gmacShape Config.cipher) s)

end Sys2Proof.Machine
end

