-- ==== Sys2Proof/Machine/Rmd.lean ====
section
/-! DEFINITION. The RIPEMD-160 unit (41_ripemd160.md): the compression function, padding, and the meanings of
RMD.RESET, RMD.ABSORB, RMD.FINALIZE, RMD.COMPUTE and RMD.ZEROIZE. -/

namespace Sys2Proof.Machine

/-- `rol32(x, n)`, for 0 < n < 32 (00_scope.md R10). -/
def rol32 (x : Word) (n : Nat) : Word := x <<< n ||| x >>> (32 - n)

/-- `X[i] <- LE(blk[4i .. 4i+4))` (R147, 20_memory.md R52). -/
def ripemdWords (blk : List Byte) : List Word := (pieces 4 blk).map (fun b => BitVec.ofNat 32 (leNat b))

/-- One round of one line (R147): the boolean function of round `j`, message word `x`, constant `k`, rotation `s`. -/
def ripemdRound (j : Nat) (x k : Word) (s : Nat) : Chain → Chain
  | ⟨a, b, c, d, e⟩ => ⟨e, rol32 (a + ripemdF j b c d + x + k) s + e, b, rol32 c 10, d⟩

/-- Round `j` of the left line (R147). -/
def leftRound (X : List Word) (c : Chain) (j : Nat) : Chain :=
  ripemdRound j (X.getD (ripemdR.getD j 0) 0) (ripemdK.getD (j / 16) 0) (ripemdS.getD j 0) c

/-- Round `j` of the right line, with the boolean functions in reverse order (R141, R147). -/
def rightRound (X : List Word) (c : Chain) (j : Nat) : Chain :=
  ripemdRound (79 - j) (X.getD (ripemdR'.getD j 0) 0) (ripemdK'.getD (j / 16) 0) (ripemdS'.getD j 0) c

/-- The final cross-mixing of the two lines into the chaining state (R147). -/
def crossMix (h l r : Chain) : Chain :=
  ⟨h.h1 + l.h2 + r.h3, h.h2 + l.h3 + r.h4, h.h3 + l.h4 + r.h0, h.h4 + l.h0 + r.h1, h.h0 + l.h1 + r.h2⟩

/-- RMD_BLOCK, the compression function (R147). -/
def rmdBlock (h : Chain) (blk : List Byte) : Chain :=
  let X := ripemdWords blk
  crossMix h ((List.range 80).foldl (leftRound X) h) ((List.range 80).foldl (rightRound X) h)

/-- RMD_INIT (R149). -/
def rmdInit : RmdCtx := ⟨ripemdIV, Buf.zero 64, 0⟩

/-- EAGER_ABSORB with RMD_BLOCK, and the count (R110, R151). -/
def rmdAbsorb (c : RmdCtx) (data : List Byte) : RmdCtx :=
  ⟨(eagerAbsorb rmdBlock (c.h, c.buf) data).1, (eagerAbsorb rmdBlock (c.h, c.buf) data).2,
    c.nbytes + BitVec.ofNat 61 data.length⟩

/-- The padding's 0x80 byte, zero bytes and little-endian bit length (R148). -/
def rmdTail (fill nbytes : Nat) : List Byte :=
  let padlen := if fill < 56 then 56 - fill else 120 - fill
  0x80 :: zeros (padlen - 1) ++ leBytes 8 (8 * nbytes)

/-- The digest of a chaining state: its five words, little-endian (R148, 20_memory.md R52). -/
def chainBytes (h : Chain) : List Byte :=
  leBytes 4 h.h0.toNat ++ leBytes 4 h.h1.toNat ++ leBytes 4 h.h2.toNat ++ leBytes 4 h.h3.toNat ++ leBytes 4 h.h4.toNat

/-- RMD_FINAL (R148): `buf` and `fill` are zeroed, `h` is the last chaining state, `nbytes` is kept (log 13). -/
def rmdFinal (c : RmdCtx) : RmdCtx × List Byte :=
  let h := (pieces 64 (c.buf.pending ++ rmdTail c.buf.fill c.nbytes.toNat)).foldl rmdBlock c.h
  (⟨h, Buf.zero 64, c.nbytes⟩, chainBytes h)

/-- The RMD unit's pieces of the common shapes (41_ripemd160.md section 3). -/
def rmdShape : UnitShape RmdUnit where
  get := State.rmd
  put := State.setRmd
  phase := RmdUnit.phase
  setPhase := fun u p => { u with phase := p }
  outSize := fun _ => Config.rmdOutSize
  init := fun u => { u with toRmdCtx := rmdInit }
  absorb := fun u data => { u with toRmdCtx := rmdAbsorb u.toRmdCtx data }
  final := fun u => ({ u with toRmdCtx := (rmdFinal u.toRmdCtx).1 }, (rmdFinal u.toRmdCtx).2)
  count := fun u => some u.nbytes.toNat
  zero := RmdUnit.zero

/-- RMD.RESET (R150). -/
def execRmdReset (s : State) : Answer := .next (resetShape rmdShape s)

/-- RMD.ABSORB (R151). -/
def execRmdAbsorb (data : List Byte) (s : State) : Answer := .next (absorbShape rmdShape data s)

/-- RMD.FINALIZE (R152). -/
def execRmdFinalize (cap : BitVec 8) (s : State) : Answer := .next (finalizeShape rmdShape cap s)

/-- RMD.COMPUTE (R153). -/
def execRmdCompute (cap : BitVec 8) (data : List Byte) (s : State) : Answer := .next (computeShape rmdShape cap data s)

/-- RMD.ZEROIZE (R154). -/
def execRmdZeroize (s : State) : Answer := .next (zeroizeShape rmdShape s)

end Sys2Proof.Machine
end

