-- ==== Sys2Proof/Machine/Hmac.lean ====
section
/-! DEFINITION. The HMAC unit (42_hmac.md): the digest operations of 40_contract_and_buffer.md R114, the pads, and the
meanings of the seven HMAC commands. `R` is the digest registry. -/

namespace Sys2Proof.Machine

open Config (Registry)

/-- `desc(a)`: the block size and the output size of a digest code (R170, 30_encoding.md R79). -/
def digestDesc (R : Registry) (a : BitVec 4) : Option (Nat × Nat) :=
  if a = 0 then some (Config.rmdBlockSize, Config.rmdOutSize) else (R a).map (fun d => (d.B, d.L))

/-- `ExtHash_alg(bs)` (00_scope.md R5). A code that names no digest has a free value here (log 7). -/
def extHash (R : Registry) (a : BitVec 4) (bs : List Byte) : List Byte :=
  match R a with
  | some d => d.hash bs
  | none => Config.unboundHash a bs

/-- `DInit(alg)` (R114). -/
def dInit (a : BitVec 4) : DigestCtx := if a = 0 then .rmd rmdInit else .ext []

/-- `DAbsorb(d, bs)` (R114): the context's form says which digest it is (log 16). -/
def dAbsorb (d : DigestCtx) (bs : List Byte) : DigestCtx :=
  match d with
  | .rmd c => .rmd (rmdAbsorb c bs)
  | .ext absorbed => .ext (absorbed ++ bs)

/-- `DFinal(d)` (R114): the context it leaves (log 10) and the digest. -/
def dFinal (R : Registry) (a : BitVec 4) (d : DigestCtx) : DigestCtx × List Byte :=
  match d with
  | .rmd c => (.rmd (rmdFinal c).1, (rmdFinal c).2)
  | .ext absorbed => (.ext absorbed, extHash R a absorbed)

/-- `Digest(alg, bs)` (R114). -/
def digest (R : Registry) (a : BitVec 4) (bs : List Byte) : List Byte := (dFinal R a (dAbsorb (dInit a) bs)).2

/-- KPRIME, the processed key K' (R171). -/
def kPrime (R : Registry) (a : BitVec 4) (B : Nat) (key : List Byte) : List Byte :=
  let k := if B < key.length then digest R a key else key
  k ++ zeros (B - k.length)

/-- A pad: K' xor a repeated byte, zero beyond B (R172). -/
def hmacPad (k' : List Byte) (x : Byte) : Vector Byte 128 := toArray 128 (k'.map (· ^^^ x))

/-- HMAC_INIT (R173). -/
def hmacInit (u : HmacUnit) : HmacUnit := { u with inner := dAbsorb (dInit u.alg) (u.ipad.toList.take u.B) }

/-- HMAC_FINAL (R174): the context with the completed inner digest (log 10), and the tag. -/
def hmacFinal (R : Registry) (u : HmacUnit) : HmacUnit × List Byte :=
  ({ u with inner := (dFinal R u.alg u.inner).1 },
    digest R u.alg (u.opad.toList.take u.B ++ (dFinal R u.alg u.inner).2))

/-- The length count: kept only when alg = 0 (R105, R177). -/
def hmacCount (u : HmacUnit) : Option Nat :=
  match u.inner with
  | .rmd c => if u.alg = 0 then some c.nbytes.toNat else none
  | .ext _ => none

/-- The HMAC unit's pieces of the common shapes (42_hmac.md section 2). -/
def hmacShape (R : Registry) : UnitShape HmacUnit where
  get := State.hmac
  put := State.setHmac
  phase := HmacUnit.phase
  setPhase := fun u p => { u with phase := p }
  outSize := HmacUnit.L
  init := hmacInit
  absorb := fun u data => { u with inner := dAbsorb u.inner data }
  final := hmacFinal R
  count := hmacCount
  zero := HmacUnit.zero

/-- The context a successful SETKEY installs (R175): the binding, the pads, the inner digest after the ipad, ACTIVE. -/
def hmacKeyed (R : Registry) (a : BitVec 4) (B L : Nat) (key : List Byte) : HmacUnit :=
  let k' := kPrime R a B key
  hmacInit ⟨.active, a, B, L, hmacPad k' 0x36, hmacPad k' 0x5c, dInit a⟩

/-- HMAC.SETKEY over a registry and a value of P_HMAC_EMPTY_KEY (R175). -/
def hmacSetkey (R : Registry) (emptyOk : Bool) (algIn algOut : BitVec 4) (key : List Byte) (s : State) : State :=
  match digestDesc R algIn, digestDesc R algOut with
  | some (B, L), some _ =>
    if algIn ≠ algOut then s.raise .algMismatch
    else if !validHmacKey emptyOk key then s.raise .keyInvalid
    else (s.setHmac (hmacKeyed R algIn B L key)).succeed
  | _, _ => s.raise .unknownAlg

/-- HMAC.SETKEY (R175). -/
def execHmacSetkey (algIn algOut : BitVec 4) (key : List Byte) (s : State) : Answer :=
  .next (hmacSetkey Config.extDigest Config.hmacEmptyKey algIn algOut key s)

/-- HMAC.RESET (R176). -/
def execHmacReset (s : State) : Answer := .next (resetShape (hmacShape Config.extDigest) s)

/-- HMAC.ABSORB (R177). -/
def execHmacAbsorb (data : List Byte) (s : State) : Answer :=
  .next (absorbShape (hmacShape Config.extDigest) data s)

/-- HMAC.FINALIZE (R178). -/
def execHmacFinalize (cap : BitVec 8) (s : State) : Answer :=
  .next (finalizeShape (hmacShape Config.extDigest) cap s)

/-- HMAC.COMPUTE (R179). -/
def execHmacCompute (cap : BitVec 8) (data : List Byte) (s : State) : Answer :=
  .next (computeShape (hmacShape Config.extDigest) cap data s)

/-- HMAC.VERIFY (R180). -/
def execHmacVerify (tag : List Byte) (s : State) : Answer :=
  .next (verifyShape (hmacShape Config.extDigest) tag s)

/-- HMAC.ZEROIZE (R181). -/
def execHmacZeroize (s : State) : Answer := .next (zeroizeShape (hmacShape Config.extDigest) s)

end Sys2Proof.Machine
end

