-- ==== Sys2Proof/Machine/Poly.lean ====
section
/-! DEFINITION. The Poly1305 unit (45_poly1305.md): clamping, the accumulator modulo 2^130 - 5, and the meanings of the
seven P1305 commands. -/

namespace Sys2Proof.Machine

/-- The prime `p` (R230). -/
def polyP : Nat := 2 ^ 130 - 5

/-- CLAMP (R230). -/
def polyClamp : BitVec 128 := 0x0ffffffc0ffffffc0ffffffc0fffffff

/-- `r` of a key: its first 16 bytes, little-endian, clamped (R230). -/
def polyR (key : List Byte) : BitVec 128 := BitVec.ofNat 128 (leNat (key.take 16)) &&& polyClamp

/-- `s` of a key: its last 16 bytes, little-endian (R230). -/
def polyS (key : List Byte) : BitVec 128 := BitVec.ofNat 128 (leNat ((key.drop 16).take 16))

/-- `h <- ((h + n) * r) mod p` (R232, R233). -/
def polyMulAdd (r : BitVec 128) (h n : Nat) : Nat := ((h + n) * r.toNat) % polyP

/-- POLY_BLOCK (R232): a full block with the bit 2^128. -/
def polyBlock (r : BitVec 128) (h : Nat) (blk : List Byte) : Nat := polyMulAdd r h (leNat blk + 2 ^ 128)

/-- POLY_PARTIAL's block (R233): the pending bytes, one 0x01 byte, zeros. -/
def polyPartialBlock (buf : Buf 16) : List Byte := buf.pending ++ 0x01 :: zeros (15 - buf.fill)

/-- The accumulator after a pending partial block (R234). -/
def polyLastH (u : PolyUnit) : Nat :=
  if 0 < u.buf.fill then polyMulAdd u.r u.h (leNat (polyPartialBlock u.buf)) else u.h

/-- POLY_FINAL (R234): `h` is the last accumulator, `buf` and `fill` are zeroed (log 13). -/
def polyFinal (u : PolyUnit) : PolyUnit × List Byte :=
  ({ u with h := polyLastH u, buf := Buf.zero 16 }, leBytes 16 ((polyLastH u + u.s.toNat) % 2 ^ 128))

/-- POLY_INIT (R242). -/
def polyInit (u : PolyUnit) : PolyUnit := { u with h := 0, buf := Buf.zero 16 }

/-- EAGER_ABSORB with POLY_BLOCK (R110, R237). -/
def polyAbsorb (u : PolyUnit) (data : List Byte) : PolyUnit :=
  { u with
    h := (eagerAbsorb (polyBlock u.r) (u.h, u.buf) data).1
    buf := (eagerAbsorb (polyBlock u.r) (u.h, u.buf) data).2 }

/-- The P1305 unit's pieces of the common shapes (45_poly1305.md section 2). It keeps no length count (R242). -/
def polyShape : UnitShape PolyUnit where
  get := State.p1305
  put := State.setP1305
  phase := PolyUnit.phase
  setPhase := fun u p => { u with phase := p }
  outSize := fun _ => Config.macSize
  init := polyInit
  absorb := polyAbsorb
  final := polyFinal
  count := fun _ => none
  zero := PolyUnit.zero

/-- The context a successful SETKEY installs (R235). -/
def polyKeyed (key : List Byte) : PolyUnit := ⟨.active, polyR key, polyS key, 0, Buf.zero 16⟩

/-- P1305.SETKEY on the state (R235). -/
def polySetkey (key : List Byte) (s : State) : State :=
  if !validPolyKey key then s.raise .keyInvalid else (s.setP1305 (polyKeyed key)).succeed

/-- P1305.SETKEY (R235). -/
def execP1305Setkey (key : List Byte) (s : State) : Answer := .next (polySetkey key s)

/-- P1305.RESET (R236). -/
def execP1305Reset (s : State) : Answer := .next (resetShape polyShape s)

/-- P1305.ABSORB (R237). -/
def execP1305Absorb (data : List Byte) (s : State) : Answer := .next (absorbShape polyShape data s)

/-- P1305.FINALIZE (R238). -/
def execP1305Finalize (cap : BitVec 8) (s : State) : Answer := .next (finalizeShape polyShape cap s)

/-- P1305.COMPUTE (R239). -/
def execP1305Compute (cap : BitVec 8) (data : List Byte) (s : State) : Answer :=
  .next (computeShape polyShape cap data s)

/-- P1305.VERIFY (R240). -/
def execP1305Verify (tag : List Byte) (s : State) : Answer := .next (verifyShape polyShape tag s)

/-- P1305.ZEROIZE (R241). -/
def execP1305Zeroize (s : State) : Answer := .next (zeroizeShape polyShape s)

end Sys2Proof.Machine
end

