-- ==== Sys2Proof/Machine/Dispatch.lean ====
section
/-! DEFINITION. The meaning of every command: one arm per row of the opcode table (30_encoding.md R74). -/

namespace Sys2Proof.Machine

def exec (i : Instr) (s : State) : Host.Outcome State Fault Refusal :=
  match i with
  | .rmdReset => Sys2Proof.Machine.execRmdReset s
  | .rmdAbsorb data => Sys2Proof.Machine.execRmdAbsorb data s
  | .rmdFinalize cap => Sys2Proof.Machine.execRmdFinalize cap s
  | .rmdCompute cap data => Sys2Proof.Machine.execRmdCompute cap data s
  | .rmdZeroize => Sys2Proof.Machine.execRmdZeroize s
  | .hmacReset => Sys2Proof.Machine.execHmacReset s
  | .hmacSetkey algIn algOut key => Sys2Proof.Machine.execHmacSetkey algIn algOut key s
  | .hmacAbsorb data => Sys2Proof.Machine.execHmacAbsorb data s
  | .hmacFinalize cap => Sys2Proof.Machine.execHmacFinalize cap s
  | .hmacCompute cap data => Sys2Proof.Machine.execHmacCompute cap data s
  | .hmacVerify tag => Sys2Proof.Machine.execHmacVerify tag s
  | .hmacZeroize => Sys2Proof.Machine.execHmacZeroize s
  | .cmacReset => Sys2Proof.Machine.execCmacReset s
  | .cmacSetkey key => Sys2Proof.Machine.execCmacSetkey key s
  | .cmacAbsorb data => Sys2Proof.Machine.execCmacAbsorb data s
  | .cmacFinalize cap => Sys2Proof.Machine.execCmacFinalize cap s
  | .cmacCompute cap data => Sys2Proof.Machine.execCmacCompute cap data s
  | .cmacVerify tag => Sys2Proof.Machine.execCmacVerify tag s
  | .cmacZeroize => Sys2Proof.Machine.execCmacZeroize s
  | .gmacReset => Sys2Proof.Machine.execGmacReset s
  | .gmacSetkey key => Sys2Proof.Machine.execGmacSetkey key s
  | .gmacSetnonce nonce => Sys2Proof.Machine.execGmacSetnonce nonce s
  | .gmacAbsorb data => Sys2Proof.Machine.execGmacAbsorb data s
  | .gmacFinalize cap => Sys2Proof.Machine.execGmacFinalize cap s
  | .gmacCompute cap data => Sys2Proof.Machine.execGmacCompute cap data s
  | .gmacVerify tag => Sys2Proof.Machine.execGmacVerify tag s
  | .gmacZeroize => Sys2Proof.Machine.execGmacZeroize s
  | .p1305Reset => Sys2Proof.Machine.execP1305Reset s
  | .p1305Setkey key => Sys2Proof.Machine.execP1305Setkey key s
  | .p1305Absorb data => Sys2Proof.Machine.execP1305Absorb data s
  | .p1305Finalize cap => Sys2Proof.Machine.execP1305Finalize cap s
  | .p1305Compute cap data => Sys2Proof.Machine.execP1305Compute cap data s
  | .p1305Verify tag => Sys2Proof.Machine.execP1305Verify tag s
  | .p1305Zeroize => Sys2Proof.Machine.execP1305Zeroize s

end Sys2Proof.Machine
end

