-- ==== Sys2Proof/Machine/Issue.lean ====
section
/-! DEFINITION. What the core does with the command the host presents (40_contract_and_buffer.md R100, 30_encoding.md
R70, R77). -/

namespace Sys2Proof.Machine

/-- `Exec(S, word, payload)` (R100): decode first; an illegal word raises ILLEGAL; a pair whose payload length differs
from LEN is refused at the boundary (R70). -/
def issue (c : Command) (s : State) : Answer :=
  match decode c with
  | .ok i => exec i s
  | .error .payloadLength => .refused .payloadLength
  | .error .reservedUnit | .error .reservedOp | .error .illegalPair | .error .lenNotZero | .error .argNotZero =>
    .next (s.raise .illegal)

/-- One step: the next command of the channel is taken and executed, and the index of the next command advances by one
(10_state.md R22). With no command pending the block is idle and its state is held (60_exceptions.md R262; DEDUCED,
log 2). -/
def stepChannel (s : State) : Answer :=
  match fetch s with
  | none => .next s
  | some c => issue c s.advance

end Sys2Proof.Machine
end

