-- ==== Sys2Proof/Machine/Step.lean ====
section
/-! DEFINITION. One step of the machine, and the placing of a command on the channel. -/

namespace Sys2Proof.Machine

/-- One step (R100, R22). -/
def step (s : State) : Host.Outcome State Fault Refusal := stepChannel s

/-- The state with an opcode-table word, and LEN zero payload bytes, as the command the host presents next (log 1). -/
def State.withFetchWord (s : State) (nbits w : Nat) : State :=
  { s with cmds := placeAt (tableCommand nbits w) s.cmds s.pos }

end Sys2Proof.Machine
end

