-- ==== Sys2Proof/Machine/Assembler.lean ====
section
/-! DEFINITION. The spec's assembly language as abstract syntax (30_encoding.md R80; log 19) and its pseudo-instructions
(R81). -/

namespace Sys2Proof.Machine

/-- A payload expression (R80). -/
inductive AsmPayload where
  | text (s : String)
  | hex (bytes : List Byte)
  | rep (b : Byte) (n : Nat)
  | cat (a b : AsmPayload)
deriving DecidableEq, Repr

/-- The bytes of a payload expression: a text gives its ASCII bytes with no terminator (R80). -/
def asmBytes : AsmPayload → List Byte
  | .text s => s.toList.map (fun c => BitVec.ofNat 8 c.toNat)
  | .hex bytes => bytes
  | .rep b n => List.replicate n b
  | .cat a b => asmBytes a ++ asmBytes b

/-- A line: `<UNIT>.<OP> [cap=<n>] [alg=<in>,<out>] [<payload>]` (R80). -/
structure AsmLine where
  unit : UnitId
  op : OpId
  cap : Option (BitVec 8)
  alg : Option (BitVec 4 × BitVec 4)
  payload : Option AsmPayload
deriving DecidableEq, Repr

/-- ARG of a line: `cap=` for FINALIZE and COMPUTE, `alg=` for HMAC.SETKEY, 0 where missing (R80). R80's grammar admits
`cap=` and `alg=` on every other command too and does not say what they do there: they are ignored and ARG is 0 (DESIGN
CHOICE, log 19, safe). -/
def asmArg (l : AsmLine) : BitVec 8 :=
  match l.unit, l.op with
  | _, .finalize | _, .compute => l.cap.getD 0
  | .hmac, .setkey => (l.alg.getD (0, 0)).1 ++ (l.alg.getD (0, 0)).2
  | _, _ => 0

/-- The pair a line stands for; LEN is always the payload's length (R80). R80 does not say what a payload longer than
65535 bytes assembles to: LEN is then the length modulo 2^16, and the pair is one that R70 refuses (DESIGN CHOICE, log 19,
safe). -/
def assemble (l : AsmLine) : Command :=
  let payload := (l.payload.map asmBytes).getD []
  ⟨packWord (unitCode l.unit) (opCode l.op) (asmArg l) (BitVec.ofNat 16 payload.length), payload⟩

/-- `<U>.ABSORB`. -/
def absorbInstr : UnitId → List Byte → Instr
  | .rmd, d => .rmdAbsorb d
  | .hmac, d => .hmacAbsorb d
  | .cmac, d => .cmacAbsorb d
  | .gmac, d => .gmacAbsorb d
  | .p1305, d => .p1305Absorb d

/-- `<U>.RESET`. -/
def resetInstr : UnitId → Instr
  | .rmd => .rmdReset
  | .hmac => .hmacReset
  | .cmac => .cmacReset
  | .gmac => .gmacReset
  | .p1305 => .p1305Reset

/-- `<U>.COMPUTE`. -/
def computeInstr : UnitId → BitVec 8 → List Byte → Instr
  | .rmd, cap, d => .rmdCompute cap d
  | .hmac, cap, d => .hmacCompute cap d
  | .cmac, cap, d => .cmacCompute cap d
  | .gmac, cap, d => .gmacCompute cap d
  | .p1305, cap, d => .p1305Compute cap d

/-- `<U>.VERIFY`; RMD has none (R74). -/
def verifyInstr : UnitId → List Byte → Option Instr
  | .rmd, _ => none
  | .hmac, t => some (.hmacVerify t)
  | .cmac, t => some (.cmacVerify t)
  | .gmac, t => some (.gmacVerify t)
  | .p1305, t => some (.p1305Verify t)

/-- `<U>.ABSORB_LONG <msg>`: one ABSORB per 65535-byte piece, none for the empty message (R81, R290). -/
def absorbLong (u : UnitId) (msg : List Byte) : List Instr := (pieces Config.lenMax msg).map (absorbInstr u)

/-- `RMD.HASH <msg>` (R81). -/
def rmdHash (msg : List Byte) : List Instr := [.rmdCompute 20 msg]

/-- `HMAC.INIT <key>` (R81). -/
def hmacInitKey (key : List Byte) : List Instr := [.hmacSetkey 0 0 key]

/-- `GMAC.INIT <key>, <nonce>` (R81). -/
def gmacInitKey (key nonce : List Byte) : List Instr := [.gmacSetkey key, .gmacSetnonce nonce]

/-- L_U, the capacity `<U>.TAG` gives: 16 for CMAC, GMAC and P1305, and for HMAC the bound L, given as `boundL` (R81).
R81 gives no L_U for RMD: the model takes RMD's output size, 20 (DESIGN CHOICE, log 19, safe). -/
def tagCapacity (boundL : Nat) : UnitId → Nat
  | .rmd => Config.rmdOutSize
  | .hmac => boundL
  | .cmac | .gmac | .p1305 => Config.macSize

/-- `<U>.TAG <msg>` where HMAC's bound digest has output size `boundL`: `<U>.COMPUTE cap=L_U <msg>` (R81). -/
def unitTagOf (u : UnitId) (boundL : Nat) (msg : List Byte) : List Instr :=
  [computeInstr u (BitVec.ofNat 8 (tagCapacity boundL u)) msg]

/-- `<U>.CHECK <msg>, <tag>`; none for RMD, which has no VERIFY (R81). -/
def unitCheck (u : UnitId) (msg tag : List Byte) : Option (List Instr) :=
  (verifyInstr u tag).map (fun v => resetInstr u :: absorbLong u msg ++ [v])

end Sys2Proof.Machine
end

