-- ==== Sys2Proof/Machine/Hosts.lean ====
section
/-! DEFINITION. The host's side: presenting a command sequence, sequences of commands, and the merging of several
hosts' sequences (00_scope.md R8; 20_memory.md R60, R65; 10_state.md R22). -/

namespace Sys2Proof.Machine

/-- `m` is an interleaving of `a` and `b`: one of the orders in which the channel may serialise the commands of two
hosts (R65, U1). No order is picked (log 17). -/
inductive Interleaves {α : Type} : List α → List α → List α → Prop where
  | done : Interleaves [] [] []
  | left (x : α) {a b m : List α} : Interleaves a b m → Interleaves (x :: a) b (x :: m)
  | right (x : α) {a b m : List α} : Interleaves a b m → Interleaves a (x :: b) (x :: m)

/-- The host presents a sequence of commands after those already taken. -/
def State.present (s : State) (cs : List Command) : State := { s with cmds := s.cmds.take s.pos ++ cs }

/-- A sequence of decoded commands, executed in order (R60); it stops where one does not answer a next state. -/
def execAll : List Instr → State → Answer
  | [], s => .next s
  | i :: is, s =>
    match exec i s with
    | .next t => execAll is t
    | .fault f => .fault f
    | .refused r => .refused r

end Sys2Proof.Machine
end

