-- ==== Sys2Proof/Machine/OneShot.lean ====
section
/-! DEFINITION. The algorithms on a whole message, with no buffer and no context: what the streaming commands compute of
the concatenation of the payloads they absorb (20_memory.md R51). -/

namespace Sys2Proof.Machine

open Config (Cipher Registry)

/-- The chaining state after a whole message (41_ripemd160.md R147, R148): pad the message, compress its 64-byte blocks
from IV. -/
def ripemdChain (m : List Byte) : Chain :=
  (pieces 64 (m ++ rmdTail (m.length % 64) m.length)).foldl rmdBlock ripemdIV

/-- RIPEMD-160 of a message (R148): the five words of its chaining state, little-endian. -/
def ripemd160 (m : List Byte) : List Byte := chainBytes (ripemdChain m)

/-- A digest of a message by its code (40_contract_and_buffer.md R114). -/
def digestOf (R : Registry) (a : BitVec 4) (m : List Byte) : List Byte :=
  if a = 0 then ripemd160 m else extHash R a m

/-- K' of a key (42_hmac.md R171), over whole-message digests. -/
def kPrimeOf (R : Registry) (a : BitVec 4) (B : Nat) (key : List Byte) : List Byte :=
  let k := if B < key.length then digestOf R a key else key
  k ++ zeros (B - k.length)

/-- The HMAC tag of a message (R171 to R174): the outer digest over outer pad and inner digest. -/
def hmacOf (R : Registry) (a : BitVec 4) (B : Nat) (key m : List Byte) : List Byte :=
  let k' := kPrimeOf R a B key
  digestOf R a (k'.map (· ^^^ 0x5c) ++ digestOf R a (k'.map (· ^^^ 0x36) ++ m))

/-- CBC-MAC chaining of the blocks before the last (43_cmac.md R193), then the last-block selector (R194). -/
def cmacBlocks (E : Cipher) (key : List Byte) (C : Block) : List (List Byte) → Block
  | [] => E key (C ^^^ (blockOf (0x80 :: zeros 15) ^^^ (cmacSubkeys E key).2))
  | [b] =>
    if b.length = 16 then E key (C ^^^ (blockOf b ^^^ (cmacSubkeys E key).1))
    else E key (C ^^^ (blockOf (b ++ 0x80 :: zeros (15 - b.length)) ^^^ (cmacSubkeys E key).2))
  | b :: b' :: bs => cmacBlocks E key (E key (C ^^^ blockOf b)) (b' :: bs)

/-- The CMAC tag of a message (R192 to R194). -/
def cmacOf (E : Cipher) (key m : List Byte) : List Byte := blockBytes (cmacBlocks E key 0 (pieces 16 m))

/-- GHASH of a whole message (44_gmac.md R216): the message zero-padded to a block boundary, then its length block. -/
def gmacHash (H : Block) (m : List Byte) : Block :=
  ghash H (m ++ zeros ((16 - m.length % 16) % 16) ++ (beBytes 8 (8 * m.length) ++ zeros 8))

/-- The GMAC tag of a message (R213 to R216): the hash xor E(J0). -/
def gmacOf (E : Cipher) (key nonce m : List Byte) : List Byte :=
  blockBytes (gmacHash (E key 0) m ^^^ E key (deriveJ0 (E key 0) nonce))

/-- One Poly1305 block of a whole message (45_poly1305.md R232, R233): every block, full or partial, is its bytes with a
0x01 byte after the last. -/
def polyStep (r : BitVec 128) (h : Nat) (b : List Byte) : Nat := polyMulAdd r h (leNat (b ++ [0x01]))

/-- The Poly1305 accumulator after a whole message (R231 to R233). -/
def polyHash (r : BitVec 128) (m : List Byte) : Nat := (pieces 16 m).foldl (polyStep r) 0

/-- The Poly1305 tag of a message (R230 to R234). -/
def polyOf (key m : List Byte) : List Byte :=
  leBytes 16 ((polyHash (polyR key) m + (polyS key).toNat) % 2 ^ 128)

end Sys2Proof.Machine
end

