-- ==== Sys2Proof/Machine/ReadPort.lean ====
section
/-! DEFINITION. The host's read port (20_memory.md R58, R59, R64): a function of the state between two commands
(log 14). It writes nothing. -/

namespace Sys2Proof.Machine

/-- The word at OUT offset `0x040 + 4i`: four bytes of OUT, little-endian (R58). -/
def outWord (out : Vector Byte 64) (i : Nat) : Word :=
  BitVec.ofNat 32 (leNat ((out.toList.drop (4 * i)).take 4))

/-- The map of R59 for an offset it decodes. -/
def portWord (s : State) (offset : Nat) : Word :=
  if offset = 0x000 then s.statusWord
  else if offset = 0x004 then s.unitStateWord
  else if offset = 0x008 then s.outlenWord
  else if 0x040 ≤ offset ∧ offset < 0x080 then outWord s.out ((offset - 0x040) / 4)
  else 0

/-- One read of the port (R58, R59): refused when the offset is not a multiple of 4, or is 0x1000 or more. -/
def readPort (s : State) (offset : Nat) : Except Refusal Word :=
  if offset % 4 ≠ 0 then .error .readMisaligned
  else if 0x1000 ≤ offset then .error .readBeyondMap
  else .ok (portWord s offset)

end Sys2Proof.Machine
end

