-- ==== Sys2Proof/Safety.lean ====
section
/-! DEFINITION. The terms the statements use: the invariants of 10_state.md R27 to R34, the phase table of
40_contract_and_buffer.md R102, the error causes and their priority (60_exceptions.md R251, R252), what a command can
touch (R100, R260) and what the host can see (R36). -/

namespace Sys2Proof.Machine

open Config (Cipher Registry)

/-! ## Invariants -/

/-- R34's relation of a buffer's fill and its byte count. R148 and R216 zero the fill and keep the count at FINALIZE,
which R34's relation does not allow for: in phase FINALIZED the fill is 0 (DEDUCED, log 11). -/
structure FillCounted (n fill nbytes : Nat) (phase : Phase) : Prop where
  counted : phase ≠ .finalized → fill = nbytes % n
  emptied : phase = .finalized → fill = 0

/-- R27, R33, R34 for RMD. -/
structure RmdUnit.Inv (u : RmdUnit) : Prop where
  phase_legal : u.phase = .active ∨ u.phase = .finalized
  fill_lt : u.buf.fill < 64
  counted : FillCounted 64 u.buf.fill u.nbytes.toNat u.phase

/-- R29, R34 for HMAC's inner digest: its form is the code's, its fill is in range and counted. -/
def DigestCtx.Shaped (d : DigestCtx) (alg : BitVec 4) (phase : Phase) : Prop :=
  match d with
  | .rmd c => alg = 0 ∧ c.buf.fill < 64 ∧ FillCounted 64 c.buf.fill c.nbytes.toNat phase
  | .ext _ => alg ≠ 0

/-- R28, R33, R34 for HMAC. -/
structure HmacUnit.Inv (R : Registry) (u : HmacUnit) : Prop where
  phase_legal : u.phase ≠ .nonceWait
  unkeyed_zero : u.phase = .unkeyed → u = HmacUnit.zero
  bound : u.phase ≠ .unkeyed → digestDesc R u.alg = some (u.B, u.L)
  shaped : u.inner.Shaped u.alg u.phase
  pads_end : ∀ (i : Nat) (h : i < 128), u.B ≤ i → u.ipad[i] = 0 ∧ u.opad[i] = 0

/-- R30, R33, R34 for CMAC. -/
structure CmacUnit.Inv (u : CmacUnit) : Prop where
  phase_legal : u.phase ≠ .nonceWait
  unkeyed_zero : u.phase = .unkeyed → u = CmacUnit.zero
  keylen_valid : u.phase ≠ .unkeyed → u.keylen ∈ Config.cipherKeyLengths
  key_end : ∀ (i : Nat) (h : i < 32), u.keylen ≤ i → u.key[i] = 0
  fill_le : u.buf.fill ≤ 16

/-- R31, R33, R34 for GMAC; NONCE_WAIT holds a key but no J0 (R24). -/
structure GmacUnit.Inv (u : GmacUnit) : Prop where
  unkeyed_zero : u.phase = .unkeyed → u = GmacUnit.zero
  keylen_valid : u.phase ≠ .unkeyed → u.keylen ∈ Config.cipherKeyLengths
  key_end : ∀ (i : Nat) (h : i < 32), u.keylen ≤ i → u.key[i] = 0
  waiting : u.phase = .nonceWait → u.J0 = 0 ∧ u.X = 0 ∧ u.buf = Buf.zero 16 ∧ u.nbytes = 0
  fill_lt : u.buf.fill < 16
  counted : FillCounted 16 u.buf.fill u.nbytes.toNat u.phase

/-- R32, R33, R34 for P1305. -/
structure PolyUnit.Inv (u : PolyUnit) : Prop where
  phase_legal : u.phase ≠ .nonceWait
  unkeyed_zero : u.phase = .unkeyed → u = PolyUnit.zero
  clamped : u.r &&& ~~~polyClamp = 0
  h_lt : u.h < polyP
  fill_lt : u.buf.fill < 16

/-- What holds between commands (R34), with ERR at most 10 (R251) and OUTLEN at most OUTMAX (R25, R26). -/
structure State.Inv (s : State) : Prop where
  err_le : s.err.toNat ≤ 10
  outlen_le : s.outlen.toNat ≤ Config.outMax
  rmd : s.rmd.Inv
  hmac : s.hmac.Inv Config.extDigest
  cmac : s.cmac.Inv
  gmac : s.gmac.Inv
  p1305 : s.p1305.Inv

/-- The cached subkeys are those of the loaded key (43_cmac.md R192, 44_gmac.md R213). -/
structure State.SubkeysMatch (E : Cipher) (s : State) : Prop where
  cmac : s.cmac.phase ≠ .unkeyed → (s.cmac.K1, s.cmac.K2) = cmacSubkeys E s.cmac.cipherKey
  gmac : s.gmac.phase ≠ .unkeyed → s.gmac.H = E s.gmac.cipherKey 0

/-! ## Units -/

/-- The phase of a unit. -/
def State.phaseOf (s : State) : UnitId → Phase
  | .rmd => s.rmd.phase
  | .hmac => s.hmac.phase
  | .cmac => s.cmac.phase
  | .gmac => s.gmac.phase
  | .p1305 => s.p1305.phase

/-- Two states hold the same context of a unit. -/
def sameUnit : UnitId → State → State → Prop
  | .rmd, s, t => s.rmd = t.rmd
  | .hmac, s, t => s.hmac = t.hmac
  | .cmac, s, t => s.cmac = t.cmac
  | .gmac, s, t => s.gmac = t.gmac
  | .p1305, s, t => s.p1305 = t.p1305

/-- `L_u` of a unit (40_contract_and_buffer.md section 2). -/
def State.outSizeOf (s : State) : UnitId → Nat
  | .rmd => Config.rmdOutSize
  | .hmac => s.hmac.L
  | .cmac | .gmac | .p1305 => Config.macSize

/-- The count a unit keeps, if it keeps one (R105). -/
def State.countOf (s : State) : UnitId → Option Nat
  | .rmd => some s.rmd.nbytes.toNat
  | .hmac => hmacCount s.hmac
  | .cmac => none
  | .gmac => some s.gmac.nbytes.toNat
  | .p1305 => none

/-- The tag or digest a unit would finalize to now: `FINAL_u`. -/
def State.resultOf (s : State) : UnitId → List Byte
  | .rmd => (rmdFinal s.rmd.toRmdCtx).2
  | .hmac => (hmacFinal Config.extDigest s.hmac).2
  | .cmac => (cmacFinal Config.cipher s.cmac).2
  | .gmac => (gmacFinal Config.cipher s.gmac).2
  | .p1305 => (polyFinal s.p1305).2

/-- `<U>.FINALIZE`. -/
def finalizeInstr : UnitId → BitVec 8 → Instr
  | .rmd, cap => .rmdFinalize cap
  | .hmac, cap => .hmacFinalize cap
  | .cmac, cap => .cmacFinalize cap
  | .gmac, cap => .gmacFinalize cap
  | .p1305, cap => .p1305Finalize cap

/-! ## The phase table -/

/-- A cell of the phase table: the phase after success, INVALID_STATE, or a phase the unit never has (R102). -/
inductive Cell where
  | to (p : Phase)
  | invalidState
  | unreachable
deriving DecidableEq, Repr

/-- A row of R102: its cells for UNKEYED, NONCE_WAIT, ACTIVE and FINALIZED, in the table's column order. -/
def tableRow (unkeyed nonceWait active finalized : Cell) : Phase → Cell
  | .unkeyed => unkeyed
  | .nonceWait => nonceWait
  | .active => active
  | .finalized => finalized

/-- The phase table (R102), operation by operation. A pair that is no command has no row and stands as
`unreachable`. -/
def lifecycle (u : UnitId) (o : OpId) : Phase → Cell :=
  match o with
  | .reset =>
    match u with
    | .rmd => tableRow .unreachable .unreachable (.to .active) (.to .active)
    | .hmac | .cmac | .gmac | .p1305 => tableRow .invalidState .invalidState (.to .active) (.to .active)
  | .setkey =>
    match u with
    | .rmd => fun _ => .unreachable
    | .hmac | .cmac | .p1305 => tableRow (.to .active) .unreachable (.to .active) (.to .active)
    | .gmac => tableRow (.to .nonceWait) (.to .nonceWait) (.to .nonceWait) (.to .nonceWait)
  | .setnonce =>
    match u with
    | .gmac => tableRow .invalidState (.to .active) (.to .active) (.to .active)
    | .rmd | .hmac | .cmac | .p1305 => fun _ => .unreachable
  | .absorb => tableRow .invalidState .invalidState (.to .active) .invalidState
  | .finalize => tableRow .invalidState .invalidState (.to .finalized) .invalidState
  | .verify =>
    match u with
    | .rmd => fun _ => .unreachable
    | .hmac | .cmac | .gmac | .p1305 => tableRow .invalidState .invalidState (.to .finalized) .invalidState
  | .compute =>
    match u with
    | .rmd => tableRow .unreachable .unreachable (.to .finalized) (.to .finalized)
    | .hmac | .cmac | .gmac | .p1305 => tableRow .invalidState .invalidState (.to .finalized) (.to .finalized)
  | .zeroize =>
    match u with
    | .rmd => tableRow .unreachable .unreachable (.to .active) (.to .active)
    | .hmac | .cmac | .gmac | .p1305 => tableRow (.to .unkeyed) (.to .unkeyed) (.to .unkeyed) (.to .unkeyed)

/-! ## Error causes and their priority -/

/-- The cause of a code for a decoded command, as the table of R251 states it. -/
def errCause (s : State) (i : Instr) : ErrCode → Bool
  | .ok | .illegal => false
  | .unknownAlg =>
    match i with
    | .hmacSetkey a b _ => (digestDesc Config.extDigest a).isNone || (digestDesc Config.extDigest b).isNone
    | _ => false
  | .algMismatch =>
    match i with
    | .hmacSetkey a b _ => a != b
    | _ => false
  | .keyInvalid =>
    match i with
    | .hmacSetkey _ _ key => key.length == 0 && !Config.hmacEmptyKey
    | .cmacSetkey key | .gmacSetkey key => key.length != 16 && key.length != 24 && key.length != 32
    | .p1305Setkey key => key.length != 32
    | _ => false
  | .invalidState => lifecycle i.unit i.op (s.phaseOf i.unit) == .invalidState
  | .nonceInvalid =>
    match i with
    | .gmacSetnonce nonce => nonce.length == 0
    | _ => false
  | .tagLength => i.op == .verify && i.payload.length != s.outSizeOf i.unit
  | .outputTooSmall => (i.op == .finalize || i.op == .compute) && decide (i.arg.toNat < s.outSizeOf i.unit)
  | .msgTooLong =>
    i.op == .absorb &&
      (match s.countOf i.unit with
       | none => false
       | some n => decide (Config.maxMsg < n + i.payload.length))
  | .authFail => i.op == .verify && s.resultOf i.unit != i.payload

/-- The cause of a code for a pair on the channel: ILLEGAL when the word is no command, else that of the command. -/
def errCauseOfPair (s : State) (c : Command) (e : ErrCode) : Bool :=
  match decode c with
  | .ok i => errCause s i e
  | .error _ => e == .illegal

/-- The order of R252. -/
def errPriority : List ErrCode :=
  [.illegal, .unknownAlg, .algMismatch, .keyInvalid, .invalidState, .nonceInvalid, .tagLength, .outputTooSmall,
   .msgTooLong, .authFail]

/-! ## What the host can see -/

/-- Two states agree on everything the host can read (R36). -/
structure samePublic (s t : State) : Prop where
  err : s.err = t.err
  outlen : s.outlen = t.outlen
  out : s.out = t.out
  phases : ∀ u, s.phaseOf u = t.phaseOf u

/-! ## What a hold-back unit has processed -/

/-- A message cut into the blocks before its last piece, and that last piece (R112): the last piece is a complete block
when the length is a non-zero multiple of `n`. -/
def holdbackSplit (n : Nat) (m : List Byte) : List (List Byte) × List Byte :=
  ((pieces n m).dropLast, ((pieces n m).getLast?).getD [])

end Sys2Proof.Machine
end

