-- ==== Sys2Proof/Certificates/Slice0/Obligations.lean ====
section
/-! DEFINITION. The statements for the provers. Each docstring names the rules of spec/ it rests on. -/

open Sys2Proof Sys2Proof.Machine

/-! ## Encoding -/

/-- 30_encoding.md R70 to R76: no bit of a command's encoding is dropped. -/
def Obligations.DecodeOfEncodeIsSame : Prop :=
  ∀ i : Instr, i.wellFormed = true → decode (encode i) = .ok i

/-- R70 to R78: a pair has one meaning; only the encoding of a command decodes to it. -/
def Obligations.EncodeOfDecodeIsSame : Prop :=
  ∀ (c : Command) (i : Instr), decode c = .ok i → i.wellFormed = true ∧ encode i = c

/-- R78: a word is legal iff exactly one row of the opcode table covers it, no two rows overlap, and a legal word decodes
to its own four fields. -/
def Obligations.WordIsLegalIffExactlyOneRowCovers : Prop :=
  ∀ (w : Word) (payload : List Byte), payload.length = lenField w →
    ((∃ i, decode ⟨w, payload⟩ = .ok i) ↔ (opTable.filter (fun r => r.covers w)).length = 1) ∧
    (∀ i, decode ⟨w, payload⟩ = .ok i →
      unitCode i.unit = unitField w ∧ opCode i.op = opField w ∧ i.arg = argField w ∧ i.payload = payload) ∧
    (∀ r₁ ∈ opTable, ∀ r₂ ∈ opTable, r₁.covers w = true → r₂.covers w = true → r₁ = r₂)

/-- 95_test_vectors.md section 2.6 and 30_encoding.md R80: words written out there decode to the command they stand
for. -/
def Obligations.SampleWordsDecode : Prop :=
  decode ⟨0x00000000, []⟩ = .ok .rmdReset ∧
  decode ⟨0x03000003, [0x61, 0x62, 0x63]⟩ = .ok (.rmdAbsorb [0x61, 0x62, 0x63]) ∧
  decode ⟨0x04140000, []⟩ = .ok (.rmdFinalize 20) ∧
  decode ⟨0x11110014, List.replicate 20 0x0b⟩ = .ok (.hmacSetkey 1 1 (List.replicate 20 0x0b)) ∧
  decode ⟨0x2600000f, zeros 15⟩ = .ok (.cmacVerify (zeros 15)) ∧
  decode ⟨0x3200000c, zeros 12⟩ = .ok (.gmacSetnonce (zeros 12)) ∧
  decode ⟨0x44100000, []⟩ = .ok (.p1305Finalize 16) ∧
  decode ⟨0x21010010, zeros 16⟩ = .error .argNotZero ∧
  decode ⟨0x07000004, zeros 4⟩ = .error .lenNotZero ∧
  decode ⟨0x42000000, []⟩ = .error .illegalPair

/-- R77: the five ways a word is illegal are all of them, and an illegal word changes nothing but STATUS.ERR. -/
def Obligations.IllegalWordRaisesIllegalOnly : Prop :=
  ∀ (c : Command) (s : State), c.payload.length = lenField c.word →
    ((5 ≤ (unitField c.word).toNat ∨ 8 ≤ (opField c.word).toNat ∨
        (∀ r ∈ opTable, c.word &&& 0xFF000000 ≠ r.pattern) ∨
        (argField c.word ≠ 0 ∧ opField c.word ≠ 4 ∧ opField c.word ≠ 5 ∧
          ¬(unitField c.word = 1 ∧ opField c.word = 1)) ∨
        (lenField c.word ≠ 0 ∧ (opField c.word = 0 ∨ opField c.word = 4 ∨ opField c.word = 7))) ↔
      ¬∃ i, decode c = .ok i) ∧
    ((¬∃ i, decode c = .ok i) → issue c s = .next { s with err := 1 })

/-! ## The step -/

/-- R70: a pair whose payload length differs from LEN is refused at the boundary. -/
def Obligations.LengthMismatchIsRefused : Prop :=
  ∀ (s : State) (c : Command), s.cmds[s.pos]? = some c → c.payload.length ≠ lenField c.word →
    step s = .refused .payloadLength

/-- 40_contract_and_buffer.md R100, 10_state.md R22: a step takes the command the host presents and executes what it
decodes to. That the channel is held in State is the model's choice (log 1). -/
def Obligations.StepRunsDecodedCommand : Prop :=
  ∀ (s : State) (c : Command) (i : Instr), s.cmds[s.pos]? = some c → decode c = .ok i →
    step s = exec i { s with pos := s.pos + 1 }

/-- 10_state.md R22: a step executes the command the host presents, and the index of the next command advances by exactly
one, on success and on error; the sequence is the host's and stays. -/
def Obligations.StepAdvancesPositionByOne : Prop :=
  ∀ (s : State) (c : Command), s.cmds[s.pos]? = some c →
    step s = issue c { s with pos := s.pos + 1 } ∧
    ∀ t, step s = .next t → t.pos = s.pos + 1 ∧ t.cmds = s.cmds

/-- 60_exceptions.md R262: between commands the block is idle with its state held (the model's reading, log 2). -/
def Obligations.IdleStepHoldsState : Prop :=
  ∀ s : State, s.cmds[s.pos]? = none → step s = .next s

/-- R101, R250: no command stops the block; a step answers a next state but for a pair that R70 refuses. -/
def Obligations.StepNextUnlessLengthDiffers : Prop :=
  (∀ (i : Instr) (s : State), ∃ t, exec i s = .next t) ∧
  (∀ s : State, (∃ t, step s = .next t) ∨
    (step s = .refused .payloadLength ∧ ∃ c, s.cmds[s.pos]? = some c ∧ c.payload.length ≠ lenField c.word))

/-- Log 1: a placed opcode-table word is the command the next step runs. The placing is the model's. -/
def Obligations.WithFetchWordRunsTableWord : Prop :=
  ∀ (s : State) (nbits w : Nat) (i : Instr), decodeTableWord nbits w = some i →
    step (s.withFetchWord nbits w) = exec i { s.withFetchWord nbits w with pos := s.pos + 1 }

/-! ## Invariants and reset -/

/-- 10_state.md R33, R34, R39: the invariants hold at reset. -/
def Obligations.InvariantsHoldAtReset : Prop :=
  State.reset.Inv ∧ State.reset.SubkeysMatch Config.cipher

/-- R27 to R34, R251: every step keeps the invariants. The count relation of R34 is stated for units not
FINALIZED; of a FINALIZED one the fill is 0, as R148 and R216 leave it (the model's reading, log 11). -/
def Obligations.StepKeepsInvariant : Prop :=
  ∀ s t : State, s.Inv → step s = .next t → t.Inv

/-- 43_cmac.md R192, 44_gmac.md R213: in a state that meets the invariants, every step keeps the cached subkeys those of
the loaded key. -/
def Obligations.StepKeepsSubkeysMatch : Prop :=
  ∀ s t : State, s.Inv → s.SubkeysMatch Config.cipher → step s = .next t → t.SubkeysMatch Config.cipher

/-- 70_reset_and_hazards.md R280 with the values of 10_state.md R39: power-on reset sets every piece of the block's
state. -/
def Obligations.PowerOnSetsEveryField : Prop :=
  ∀ s : State,
    s.powerOn.statusWord = 0 ∧ s.powerOn.unitStateWord = 0x00000002 ∧ s.powerOn.outlenWord = 0 ∧
    (∀ (i : Nat) (h : i < 64), s.powerOn.out[i] = 0) ∧
    s.powerOn.rmd = ⟨⟨⟨0x67452301, 0xEFCDAB89, 0x98BADCFE, 0x10325476, 0xC3D2E1F0⟩,
      ⟨Vector.replicate 64 0, 0⟩, 0⟩, .active⟩ ∧
    s.powerOn.hmac = ⟨.unkeyed, 0, 0, 0, Vector.replicate 128 0, Vector.replicate 128 0,
      .rmd ⟨⟨0, 0, 0, 0, 0⟩, ⟨Vector.replicate 64 0, 0⟩, 0⟩⟩ ∧
    s.powerOn.cmac = ⟨.unkeyed, 0, Vector.replicate 32 0, 0, 0, 0, ⟨Vector.replicate 16 0, 0⟩⟩ ∧
    s.powerOn.gmac = ⟨.unkeyed, 0, Vector.replicate 32 0, 0, 0, 0, ⟨Vector.replicate 16 0, 0⟩, 0⟩ ∧
    s.powerOn.p1305 = ⟨.unkeyed, 0, 0, 0, ⟨Vector.replicate 16 0, 0⟩⟩ ∧
    State.reset.powerOn = State.reset

/-! ## Errors and phases -/

/-- 60_exceptions.md R253: a raise sets STATUS.ERR to its code, and a command that ends with an error code has changed
nothing but STATUS.ERR; AUTH_FAIL is no raise but VERIFY's result, after which the unit is FINALIZED. -/
def Obligations.RaisedCommandChangesOnlyErr : Prop :=
  (∀ (s : State) (e : ErrCode), s.raise e = { s with err := errValue e }) ∧
  ∀ (c : Command) (s t : State), issue c s = .next t → t.err ≠ 0 →
    (t.err ≠ 9 → t = { s with err := t.err }) ∧
    (t.err = 9 → ∃ i, decode c = .ok i ∧ i.op = .verify ∧ t.phaseOf i.unit = .finalized)

/-- R252: the error a command reports is the first in the priority list whose condition holds, and OK when none does. -/
def Obligations.ErrorReportedIsFirstInPriority : Prop :=
  ∀ (c : Command) (s t : State), s.Inv → issue c s = .next t →
    t.err = errValue ((errPriority.find? (errCauseOfPair s c)).getD .ok)

/-- 40_contract_and_buffer.md R102: in a phase whose cell is INVALID_STATE the command raises it; otherwise a command that
ends without a raise leaves the phase of its cell. -/
def Obligations.PhaseTableHolds : Prop :=
  ∀ (i : Instr) (s t : State), exec i s = .next t →
    (lifecycle i.unit i.op (s.phaseOf i.unit) = .invalidState → t = { s with err := 6 }) ∧
    (∀ p, lifecycle i.unit i.op (s.phaseOf i.unit) = .to p → t.err = 0 ∨ t.err = 9 → t.phaseOf i.unit = p) ∧
    (∀ p, lifecycle i.unit i.op (s.phaseOf i.unit) = .to p → t.err ≠ 6)

/-! ## What a command touches and reads -/

/-- R100, 60_exceptions.md R260: a command of one unit never writes another unit's context, nor the host's sequence. -/
def Obligations.CommandTouchesOnlyItsUnit : Prop :=
  ∀ (i : Instr) (s t : State), exec i s = .next t →
    (∀ u, u ≠ i.unit → sameUnit u s t) ∧ t.cmds = s.cmds ∧ t.pos = s.pos

/-- R100: a step reads no state of any unit other than the addressed one: its unit's new context, the error code and the
result bytes are functions of that unit's context (and of OUT and OUTLEN for the result registers). -/
def Obligations.CommandReadsOnlyItsUnit : Prop :=
  ∀ (i : Instr) (s₁ s₂ t₁ t₂ : State), sameUnit i.unit s₁ s₂ → exec i s₁ = .next t₁ → exec i s₂ = .next t₂ →
    sameUnit i.unit t₁ t₂ ∧ t₁.err = t₂.err ∧
    (s₁.out = s₂.out → s₁.outlen = s₂.outlen → t₁.out = t₂.out ∧ t₁.outlen = t₂.outlen)

/-- R60, R100, R260: what a sequence of commands leaves in a unit is what that unit's own commands alone leave. -/
def Obligations.UnitDependsOnOwnCommandsOnly : Prop :=
  ∀ (u : UnitId) (is : List Instr) (s t t' : State), execAll is s = .next t →
    execAll (is.filter (fun i => i.unit = u)) s = .next t' → sameUnit u t t'

/-- 20_memory.md R65: however the commands of two hosts merge, a unit that only the first host uses ends as the first
host's commands alone would leave it. -/
def Obligations.DisjointHostsDoNotInterfere : Prop :=
  ∀ (u : UnitId) (a b m : List Instr) (s t t' : State), Interleaves a b m → (∀ i ∈ b, i.unit ≠ u) →
    execAll m s = .next t → execAll a s = .next t' → sameUnit u t t'

/-- 10_state.md R25, R26: only a successful FINALIZE or COMPUTE writes OUT and OUTLEN, and of OUT only its first L bytes;
the bytes beyond keep their values. OUTLEN reads as the count in its low 8 bits and 0 above. -/
def Obligations.OnlyFinalizeAndComputeWriteOut : Prop :=
  (∀ (i : Instr) (s t : State), s.Inv → exec i s = .next t →
    ((i.op ≠ .finalize ∧ i.op ≠ .compute) ∨ t.err ≠ 0 → t.out = s.out ∧ t.outlen = s.outlen) ∧
    (i.op = .finalize ∨ i.op = .compute → t.err = 0 →
      t.outlen.toNat = s.outSizeOf i.unit ∧
      ∀ (n : Nat) (h : n < 64), s.outSizeOf i.unit ≤ n → t.out[n] = s.out[n])) ∧
  (∀ (n : Nat) (h : n < 64), State.reset.out[n] = 0) ∧
  (∀ s : State, s.outlenWord.extractLsb' 0 8 = s.outlen ∧ s.outlenWord.extractLsb' 8 24 = 0) ∧
  State.reset.outlenWord = 0

/-! ## The read port -/

/-- 20_memory.md R59, with R58's packing: the map of the read port and its refusals. -/
def Obligations.ReadPortFollowsMap : Prop :=
  ∀ s : State,
    readPort s 0x000 = .ok (s.err.setWidth 32) ∧
    readPort s 0x004 = .ok s.unitStateWord ∧
    readPort s 0x008 = .ok (s.outlen.setWidth 32) ∧
    (∀ (i : Nat) (h : i < 16), readPort s (0x040 + 4 * i) =
      .ok ((s.out[4 * i]).setWidth 32 ||| (s.out[4 * i + 1]).setWidth 32 <<< 8
        ||| (s.out[4 * i + 2]).setWidth 32 <<< 16 ||| (s.out[4 * i + 3]).setWidth 32 <<< 24)) ∧
    (∀ n, n % 4 = 0 → (0x00C ≤ n ∧ n < 0x040 ∨ 0x080 ≤ n ∧ n < 0x1000) → readPort s n = .ok 0) ∧
    (∀ n, n % 4 ≠ 0 → readPort s n = .error .readMisaligned) ∧
    (∀ n, n % 4 = 0 → 0x1000 ≤ n → readPort s n = .error .readBeyondMap)

/-- 10_state.md R24: UNITSTATE holds the phase of unit u in bits [2u+1:2u], 0 in bits [31:10], and reads 2 after reset. -/
def Obligations.UnitStateHoldsPhases : Prop :=
  (∀ (s : State) (u : UnitId),
    s.unitStateWord.extractLsb' (2 * (unitCode u).toNat) 2 = phaseValue (s.phaseOf u)) ∧
  (∀ (s : State) (i : Nat), 10 ≤ i → s.unitStateWord.getLsbD i = false) ∧
  phaseValue .unkeyed = 0 ∧ phaseValue .nonceWait = 1 ∧ phaseValue .active = 2 ∧ phaseValue .finalized = 3 ∧
  State.reset.unitStateWord = 0x00000002

/-- R36, 20_memory.md R64: no offset returns secret state: what the port answers depends on STATUS, the phases, OUTLEN and
OUT alone. -/
def Obligations.ReadPortShowsOnlyPublicState : Prop :=
  ∀ s t : State, samePublic s t → ∀ n, readPort s n = readPort t n

/-! ## The shared engines -/

/-- 60_exceptions.md R254: VERIFY's result depends only on whether all bytes match: OK when they do, AUTH_FAIL with one and
the same state whichever bytes differ. -/
def Obligations.VerifyDependsOnlyOnMatch : Prop :=
  ∀ (u : UnitId) (s : State) (tag tag' : List Byte) (i i' : Instr), s.Inv →
    verifyInstr u tag = some i → verifyInstr u tag' = some i' → s.phaseOf u = .active →
    tag.length = s.outSizeOf u → tag'.length = s.outSizeOf u →
    (∃ t, exec i s = .next t ∧ t.err = if tag = s.resultOf u then 0 else 9) ∧
    (tag ≠ s.resultOf u → tag' ≠ s.resultOf u → exec i s = exec i' s)

/-- 40_contract_and_buffer.md R113: for every unit and every split, absorbing a message in pieces, or by ABSORB_LONG, leaves
the state that absorbing it whole leaves, so every later result is the same. A whole payload that R105 rejects as too long
(code 10) is no absorbed message. -/
def Obligations.ChunkedAbsorbEqualsWhole : Prop :=
  ∀ (u : UnitId) (ps : List (List Byte)) (s t : State), ps ≠ [] →
    exec (absorbInstr u ps.flatten) s = .next t → t.err ≠ 10 →
    execAll (ps.map (absorbInstr u)) s = .next t ∧
    (ps.flatten ≠ [] → execAll (absorbLong u ps.flatten) s = .next t)

/-- R111: the source's block-form procedure leaves what the byte-wise procedure of R110 leaves: the same accumulator, the
same pending bytes, the same fill. Bytes at and beyond fill are no part of it (10_state.md R35). -/
def Obligations.EagerAbsorbEqualsBlockForm : Prop :=
  ∀ (α : Type) (n : Nat) (T : α → List Byte → α) (acc : α) (buf : Buf n) (data : List Byte), buf.fill < n →
    ((eagerAbsorb T (acc, buf) data).1, (eagerAbsorb T (acc, buf) data).2.pending) =
      blockFormAbsorb n T acc buf.pending data ∧
    (eagerAbsorb T (acc, buf) data).2.fill = (eagerAbsorb T (acc, buf) data).2.pending.length ∧
    (eagerAbsorb T (acc, buf) data).2.fill < n

/-- R112: the hold-back procedure transforms exactly the blocks before the last piece of the message, and holds that last
piece, complete or not; after a non-empty payload 1 <= fill <= 16. -/
def Obligations.HoldbackKeepsLastBlock : Prop :=
  ∀ (α : Type) (T : α → List Byte → α) (acc : α) (buf : Buf 16) (data : List Byte), buf.fill ≤ 16 → data ≠ [] →
    (holdbackAbsorb T (acc, buf) data).1 = (holdbackSplit 16 (buf.pending ++ data)).1.foldl T acc ∧
    (holdbackAbsorb T (acc, buf) data).2.pending = (holdbackSplit 16 (buf.pending ++ data)).2 ∧
    1 ≤ (holdbackAbsorb T (acc, buf) data).2.fill ∧ (holdbackAbsorb T (acc, buf) data).2.fill ≤ 16

/-- R107: COMPUTE equals RESET, then ABSORBs of its payload in any pieces, then FINALIZE. -/
def Obligations.StreamEqualsCompute : Prop :=
  ∀ (u : UnitId) (ps : List (List Byte)) (cap : BitVec 8) (s : State), (s.phaseOf u).isKeyed = true →
    s.outSizeOf u ≤ cap.toNat → ps.flatten.length ≤ Config.lenMax →
    execAll (resetInstr u :: ps.map (absorbInstr u) ++ [finalizeInstr u cap]) s =
      exec (computeInstr u cap ps.flatten) s

/-- 30_encoding.md R81, 70_reset_and_hazards.md R290: ABSORB_LONG expands to commands that can be encoded, and leaves what
absorbing the whole message at once would leave. -/
def Obligations.AbsorbLongEqualsAbsorb : Prop :=
  ∀ (u : UnitId) (msg : List Byte) (s t : State), msg ≠ [] → exec (absorbInstr u msg) s = .next t → t.err = 0 →
    execAll (absorbLong u msg) s = .next t ∧ ∀ i ∈ absorbLong u msg, i.wellFormed = true

/-! ## The algorithms: COMPUTE gives the whole-message result -/

/-- 41_ripemd160.md R147, R148, R153: RMD.COMPUTE writes RIPEMD-160 of its payload. -/
def Obligations.RmdComputeGivesRipemd160 : Prop :=
  ∀ (cap : BitVec 8) (m : List Byte) (s : State), (s.rmd.phase = .active ∨ s.rmd.phase = .finalized) →
    20 ≤ cap.toNat → m.length ≤ 65535 →
    exec (.rmdCompute cap m) s = .next { s with
      rmd := ⟨⟨ripemdChain m, Buf.zero 64, BitVec.ofNat 61 m.length⟩, .finalized⟩
      out := overlay s.out (ripemd160 m), outlen := 20, err := 0 }

/-- 42_hmac.md R173, R174, R179: HMAC.COMPUTE writes the outer digest over the outer pad and the inner digest. What the inner
context holds after the tag is the model's reading (log 10). -/
def Obligations.HmacComputeGivesHmac : Prop :=
  ∀ (cap : BitVec 8) (m : List Byte) (s : State), (s.hmac.phase = .active ∨ s.hmac.phase = .finalized) →
    s.hmac.L ≤ cap.toNat → m.length ≤ 65535 →
    exec (.hmacCompute cap m) s = .next { s with
      hmac := { s.hmac with
        phase := .finalized
        inner := (dFinal Config.extDigest s.hmac.alg
          (dAbsorb (dInit s.hmac.alg) (s.hmac.ipad.toList.take s.hmac.B ++ m))).1 }
      out := overlay s.out (digestOf Config.extDigest s.hmac.alg (s.hmac.opad.toList.take s.hmac.B ++
        digestOf Config.extDigest s.hmac.alg (s.hmac.ipad.toList.take s.hmac.B ++ m)))
      outlen := BitVec.ofNat 8 s.hmac.L, err := 0 }

/-- 43_cmac.md R192 to R194, R199: with the subkeys of the loaded key, CMAC.COMPUTE writes the CMAC of its payload.
The chaining value C kept after the tag is the model's reading (log 13). -/
def Obligations.CmacComputeGivesCmac : Prop :=
  ∀ (cap : BitVec 8) (m : List Byte) (s : State), s.SubkeysMatch Config.cipher →
    (s.cmac.phase = .active ∨ s.cmac.phase = .finalized) → 16 ≤ cap.toNat →
    exec (.cmacCompute cap m) s = .next { s with
      cmac := { s.cmac with
        phase := .finalized
        C := (holdbackSplit 16 m).1.foldl (cmacBlock Config.cipher s.cmac.cipherKey) 0
        buf := Buf.zero 16 }
      out := overlay s.out (cmacOf Config.cipher s.cmac.cipherKey m), outlen := 16, err := 0 }

/-- 44_gmac.md R215, R216, R222: GMAC.COMPUTE writes GHASH of its payload and length block, xor E(J0), with the current H
and J0. The accumulator X and the count kept after the tag are the model's reading (log 13). -/
def Obligations.GmacComputeGivesGmac : Prop :=
  ∀ (cap : BitVec 8) (m : List Byte) (s : State), (s.gmac.phase = .active ∨ s.gmac.phase = .finalized) →
    16 ≤ cap.toNat → m.length ≤ 65535 →
    exec (.gmacCompute cap m) s = .next { s with
      gmac := { s.gmac with
        phase := .finalized, X := gmacHash s.gmac.H m, buf := Buf.zero 16, nbytes := BitVec.ofNat 61 m.length }
      out := overlay s.out (blockBytes (gmacHash s.gmac.H m ^^^ Config.cipher s.gmac.cipherKey s.gmac.J0))
      outlen := 16, err := 0 }

/-- 45_poly1305.md R232 to R234, R239: P1305.COMPUTE writes the Poly1305 tag of its payload under the loaded r and s. The
accumulator h kept after the tag is the model's reading (log 13). -/
def Obligations.PolyComputeGivesPoly1305 : Prop :=
  ∀ (cap : BitVec 8) (m : List Byte) (s : State), (s.p1305.phase = .active ∨ s.p1305.phase = .finalized) →
    16 ≤ cap.toNat →
    exec (.p1305Compute cap m) s = .next { s with
      p1305 := { s.p1305 with phase := .finalized, h := polyHash s.p1305.r m, buf := Buf.zero 16 }
      out := overlay s.out (leBytes 16 ((polyHash s.p1305.r m + s.p1305.s.toNat) % 2 ^ 128))
      outlen := 16, err := 0 }

/-! ## Where the commands complete, and their frames: each next state is written out whole -/

/-- R109, 70_reset_and_hazards.md R283: ZEROIZE, in every phase, installs the unit's part of power-on reset and touches
neither OUT nor OUTLEN. -/
def Obligations.ZeroizeCompletes : Prop :=
  ∀ s : State,
    exec .rmdZeroize s = .next { s with rmd := s.powerOn.rmd, err := 0 } ∧
    exec .hmacZeroize s = .next { s with hmac := s.powerOn.hmac, err := 0 } ∧
    exec .cmacZeroize s = .next { s with cmac := s.powerOn.cmac, err := 0 } ∧
    exec .gmacZeroize s = .next { s with gmac := s.powerOn.gmac, err := 0 } ∧
    exec .p1305Zeroize s = .next { s with p1305 := s.powerOn.p1305, err := 0 }

/-- R150, R176, R196, R219, R236: RESET in ACTIVE or FINALIZED restarts the computation and keeps keys and subkeys.
For HMAC with code 0 the inner context is the inner pad's absorption whole; the bytes its buffer then holds beyond fill, which
10_state.md R35 lets a model keep as any value, are the model's reading (log 12). -/
def Obligations.ResetCompletes : Prop :=
  ∀ s : State,
    (s.rmd.phase = .active ∨ s.rmd.phase = .finalized → exec .rmdReset s = .next { s with
      rmd := ⟨⟨ripemdIV, Buf.zero 64, 0⟩, .active⟩, err := 0 }) ∧
    (s.hmac.phase = .active ∨ s.hmac.phase = .finalized → exec .hmacReset s = .next { s with
      hmac := { s.hmac with
        phase := .active, inner := dAbsorb (dInit s.hmac.alg) (s.hmac.ipad.toList.take s.hmac.B) }
      err := 0 }) ∧
    (s.cmac.phase = .active ∨ s.cmac.phase = .finalized → exec .cmacReset s = .next { s with
      cmac := { s.cmac with phase := .active, C := 0, buf := Buf.zero 16 }, err := 0 }) ∧
    (s.gmac.phase = .active ∨ s.gmac.phase = .finalized → exec .gmacReset s = .next { s with
      gmac := { s.gmac with phase := .active, X := 0, buf := Buf.zero 16, nbytes := 0 }, err := 0 }) ∧
    (s.p1305.phase = .active ∨ s.p1305.phase = .finalized → exec .p1305Reset s = .next { s with
      p1305 := { s.p1305 with phase := .active, h := 0, buf := Buf.zero 16 }, err := 0 })

/-- R104, R105, R151, R177, R197, R220, R237: ABSORB in ACTIVE, within MAXMSG where the unit counts, feeds the payload to
the unit's buffer engine and changes nothing else but STATUS.ERR. The buffer bytes at and beyond fill, which 10_state.md R35
leaves open, are those the engine's pseudocode leaves: the model's reading (log 12). -/
def Obligations.AbsorbCompletes : Prop :=
  ∀ (data : List Byte) (s : State),
    (s.rmd.phase = .active → s.rmd.nbytes.toNat + data.length ≤ 2 ^ 61 - 1 →
      exec (.rmdAbsorb data) s = .next { s with
        rmd := { s.rmd with
          h := (eagerAbsorb rmdBlock (s.rmd.h, s.rmd.buf) data).1
          buf := (eagerAbsorb rmdBlock (s.rmd.h, s.rmd.buf) data).2
          nbytes := s.rmd.nbytes + BitVec.ofNat 61 data.length }
        err := 0 }) ∧
    (∀ c : RmdCtx, s.hmac.phase = .active → s.hmac.alg = 0 → s.hmac.inner = .rmd c →
      c.nbytes.toNat + data.length ≤ 2 ^ 61 - 1 →
      exec (.hmacAbsorb data) s = .next { s with
        hmac := { s.hmac with
          inner := .rmd (RmdCtx.mk (eagerAbsorb rmdBlock (c.h, c.buf) data).1
            (eagerAbsorb rmdBlock (c.h, c.buf) data).2 (c.nbytes + BitVec.ofNat 61 data.length)) }
        err := 0 }) ∧
    (∀ m : List Byte, s.hmac.phase = .active → s.hmac.inner = .ext m →
      exec (.hmacAbsorb data) s = .next { s with
        hmac := { s.hmac with inner := .ext (m ++ data) }, err := 0 }) ∧
    (s.cmac.phase = .active → exec (.cmacAbsorb data) s = .next { s with
      cmac := { s.cmac with
        C := (holdbackAbsorb (cmacBlock Config.cipher s.cmac.cipherKey) (s.cmac.C, s.cmac.buf) data).1
        buf := (holdbackAbsorb (cmacBlock Config.cipher s.cmac.cipherKey) (s.cmac.C, s.cmac.buf) data).2 }
      err := 0 }) ∧
    (s.gmac.phase = .active → s.gmac.nbytes.toNat + data.length ≤ 2 ^ 61 - 1 →
      exec (.gmacAbsorb data) s = .next { s with
        gmac := { s.gmac with
          X := (eagerAbsorb (ghashBlock s.gmac.H) (s.gmac.X, s.gmac.buf) data).1
          buf := (eagerAbsorb (ghashBlock s.gmac.H) (s.gmac.X, s.gmac.buf) data).2
          nbytes := s.gmac.nbytes + BitVec.ofNat 61 data.length }
        err := 0 }) ∧
    (s.p1305.phase = .active → exec (.p1305Absorb data) s = .next { s with
      p1305 := { s.p1305 with
        h := (eagerAbsorb (polyBlock s.p1305.r) (s.p1305.h, s.p1305.buf) data).1
        buf := (eagerAbsorb (polyBlock s.p1305.r) (s.p1305.h, s.p1305.buf) data).2 }
      err := 0 })

/-- R106, R152, R178, R198, R221, R238: FINALIZE in ACTIVE with enough capacity writes the unit's result to OUT[0..L-1] and
L to OUTLEN, and leaves the unit FINALIZED with its buffer emptied. What the
accumulators and HMAC's inner context keep is the model's reading (logs 10, 13). -/
def Obligations.FinalizeCompletes : Prop :=
  ∀ (cap : BitVec 8) (s : State),
    (s.rmd.phase = .active → 20 ≤ cap.toNat → exec (.rmdFinalize cap) s = .next { s with
      rmd := ⟨⟨(pieces 64 (s.rmd.buf.pending ++ rmdTail s.rmd.buf.fill s.rmd.nbytes.toNat)).foldl rmdBlock s.rmd.h,
        Buf.zero 64, s.rmd.nbytes⟩, .finalized⟩
      out := overlay s.out (s.resultOf .rmd), outlen := 20, err := 0 }) ∧
    (s.hmac.phase = .active → s.hmac.L ≤ cap.toNat → exec (.hmacFinalize cap) s = .next { s with
      hmac := { s.hmac with
        phase := .finalized, inner := (dFinal Config.extDigest s.hmac.alg s.hmac.inner).1 }
      out := overlay s.out (s.resultOf .hmac), outlen := BitVec.ofNat 8 s.hmac.L, err := 0 }) ∧
    (s.cmac.phase = .active → 16 ≤ cap.toNat → exec (.cmacFinalize cap) s = .next { s with
      cmac := { s.cmac with phase := .finalized, buf := Buf.zero 16 }
      out := overlay s.out (blockBytes (Config.cipher s.cmac.cipherKey
        (s.cmac.C ^^^ cmacLastBlock s.cmac.K1 s.cmac.K2 s.cmac.buf)))
      outlen := 16, err := 0 }) ∧
    (s.gmac.phase = .active → 16 ≤ cap.toNat → exec (.gmacFinalize cap) s = .next { s with
      gmac := { s.gmac with phase := .finalized, X := gmacLastX s.gmac, buf := Buf.zero 16 }
      out := overlay s.out (blockBytes (gmacLastX s.gmac ^^^ Config.cipher s.gmac.cipherKey s.gmac.J0))
      outlen := 16, err := 0 }) ∧
    (s.p1305.phase = .active → 16 ≤ cap.toNat → exec (.p1305Finalize cap) s = .next { s with
      p1305 := { s.p1305 with phase := .finalized, h := polyLastH s.p1305, buf := Buf.zero 16 }
      out := overlay s.out (leBytes 16 ((polyLastH s.p1305 + s.p1305.s.toNat) % 2 ^ 128))
      outlen := 16, err := 0 })

/-- R108, R180, R200, R223, R240: VERIFY in ACTIVE with a tag of length L finalizes the unit, answers OK or AUTH_FAIL, and
writes neither OUT nor OUTLEN. What the accumulators and HMAC's inner context keep is the model's reading (logs 10, 13). -/
def Obligations.VerifyCompletes : Prop :=
  ∀ (tag : List Byte) (s : State),
    (s.Inv → s.hmac.phase = .active → tag.length = s.hmac.L → exec (.hmacVerify tag) s = .next { s with
      hmac := { s.hmac with
        phase := .finalized, inner := (dFinal Config.extDigest s.hmac.alg s.hmac.inner).1 }
      err := if tag = s.resultOf .hmac then 0 else 9 }) ∧
    (s.cmac.phase = .active → tag.length = 16 → exec (.cmacVerify tag) s = .next { s with
      cmac := { s.cmac with phase := .finalized, buf := Buf.zero 16 }
      err := if tag = s.resultOf .cmac then 0 else 9 }) ∧
    (s.gmac.phase = .active → tag.length = 16 → exec (.gmacVerify tag) s = .next { s with
      gmac := { s.gmac with phase := .finalized, X := gmacLastX s.gmac, buf := Buf.zero 16 }
      err := if tag = s.resultOf .gmac then 0 else 9 }) ∧
    (s.p1305.phase = .active → tag.length = 16 → exec (.p1305Verify tag) s = .next { s with
      p1305 := { s.p1305 with phase := .finalized, h := polyLastH s.p1305, buf := Buf.zero 16 }
      err := if tag = s.resultOf .p1305 then 0 else 9 })

/-- 42_hmac.md R171 to R173, R175: HMAC.SETKEY with a known digest code, given twice, and an acceptable key installs the
binding, the two pads of K' and the inner digest of the inner pad, in every phase. For code 0 the bytes the inner buffer holds
beyond fill, which 10_state.md R35 lets a model keep as any value, are the model's reading (log 12). -/
def Obligations.HmacSetkeyCompletes : Prop :=
  ∀ (a : BitVec 4) (key : List Byte) (B L : Nat) (s : State), digestDesc Config.extDigest a = some (B, L) →
    (key ≠ [] ∨ Config.hmacEmptyKey = true) → key.length ≤ 65535 →
    exec (.hmacSetkey a a key) s = .next { s with
      hmac := ⟨.active, a, B, L,
        toArray 128 ((kPrimeOf Config.extDigest a B key).map (· ^^^ 0x36)),
        toArray 128 ((kPrimeOf Config.extDigest a B key).map (· ^^^ 0x5c)),
        dAbsorb (dInit a) ((kPrimeOf Config.extDigest a B key).map (· ^^^ 0x36))⟩
      err := 0 } ∧
    (kPrimeOf Config.extDigest a B key).length = B

/-- 43_cmac.md R190, R192, R195: CMAC.SETKEY with a 16-, 24- or 32-byte key, in every phase. -/
def Obligations.CmacSetkeyCompletes : Prop :=
  ∀ (key : List Byte) (s : State), (key.length = 16 ∨ key.length = 24 ∨ key.length = 32) →
    exec (.cmacSetkey key) s = .next { s with
      cmac := ⟨.active, key.length, toArray 32 key, cmacDouble (Config.cipher key 0),
        cmacDouble (cmacDouble (Config.cipher key 0)), 0, Buf.zero 16⟩
      err := 0 }

/-- 44_gmac.md R213, R214, R217, R218: GMAC.SETKEY with a 16-, 24- or 32-byte key, in every phase, derives H and waits for
a nonce; GMAC.SETNONCE with a non-empty nonce on a keyed unit derives J0, keeps the key and H, and starts a message. -/
def Obligations.GmacSetkeyAndSetnonceComplete : Prop :=
  ∀ (key nonce : List Byte) (s : State),
    (key.length = 16 ∨ key.length = 24 ∨ key.length = 32 → exec (.gmacSetkey key) s = .next { s with
      gmac := ⟨.nonceWait, key.length, toArray 32 key, Config.cipher key 0, 0, 0, Buf.zero 16, 0⟩
      err := 0 }) ∧
    (s.gmac.phase ≠ .unkeyed → nonce ≠ [] → exec (.gmacSetnonce nonce) s = .next { s with
      gmac := { s.gmac with
        phase := .active, J0 := deriveJ0 s.gmac.H nonce, X := 0, buf := Buf.zero 16, nbytes := 0 }
      err := 0 })

/-- 45_poly1305.md R230, R235: P1305.SETKEY with a 32-byte key, in every phase. -/
def Obligations.PolySetkeyCompletes : Prop :=
  ∀ (key : List Byte) (s : State), key.length = 32 →
    exec (.p1305Setkey key) s = .next { s with
      p1305 := ⟨.active, polyR key, polyS key, 0, Buf.zero 16⟩, err := 0 }

/-! ## Arithmetic -/

/-- 43_cmac.md R191: DOUBLE shifts the big-endian integer left modulo 2^128, and xors 0x87 when the top bit was 1. -/
def Obligations.CmacDoubleIsShiftWithReduction : Prop :=
  ∀ b : Block, (cmacDouble b).toNat =
    if b.toNat / 2 ^ 127 = 1 then (2 * b.toNat % 2 ^ 128) ^^^ 0x87 else 2 * b.toNat % 2 ^ 128

/-- 45_poly1305.md R230: the prime; r is the little-endian first half of the key with the named bits cleared, and below 2^124; s is
the second half. -/
def Obligations.PolyKeyIsSplitAndClamped : Prop :=
  polyP = 2 ^ 130 - 5 ∧ ∀ key : List Byte, key.length = 32 →
    (∀ i, i < 128 → (polyR key).getLsbD i =
      (((leNat (key.take 16)).testBit i) &&
        !((i / 8 = 3 || i / 8 = 7 || i / 8 = 11 || i / 8 = 15) && 4 ≤ i % 8) &&
        !((i / 8 = 4 || i / 8 = 8 || i / 8 = 12) && i % 8 < 2))) ∧
    (polyR key).toNat < 2 ^ 124 ∧ (polyR key).toNat = leNat (key.take 16) &&& 0x0ffffffc0ffffffc0ffffffc0fffffff ∧
    (polyS key).toNat = leNat (key.drop 16)

/-- 95_test_vectors.md section 1 item 7, R230 to R234: an all-zero key gives an all-zero tag for any message. -/
def Obligations.PolyZeroKeyGivesZeroTag : Prop :=
  ∀ (cap : BitVec 8) (m : List Byte) (s t : State), 16 ≤ cap.toNat →
    execAll [.p1305Setkey (zeros 32), .p1305Compute cap m] s = .next t →
    t.out = overlay s.out (zeros 16) ∧ t.outlen = 16 ∧ t.err = 0

/-- 44_gmac.md R211: the bit-serial multiplier is commutative. -/
def Obligations.GfMulCommutes : Prop :=
  ∀ x y : Block, gfMul x y = gfMul y x

/-- 44_gmac.md R210, R211: h"80" || zeros(15) is the multiplier's identity, zero gives zero, the product is additive in its
first operand, and multiplying by x^1 (h"40" || zeros(15)), as every next power of x, shifts right once with 0xE1 entering the
top byte when a 1-bit is shifted out. -/
def Obligations.GfMulIdentityAndZero : Prop :=
  (∀ x : Block, gfMul x ((1 : Block) <<< 127) = x ∧ gfMul ((1 : Block) <<< 127) x = x ∧ gfMul x 0 = 0 ∧ gfMul 0 x = 0) ∧
  (∀ x x' y : Block, gfMul (x ^^^ x') y = gfMul x y ^^^ gfMul x' y) ∧
  (∀ y : Block, gfMul ((1 : Block) <<< 126) y = (y >>> 1) ^^^ (if y.getLsbD 0 then (0xE1 : Block) <<< 120 else 0)) ∧
  (∀ (y : Block) (i : Nat), i < 127 →
    gfMul ((1 : Block) <<< (126 - i)) y = (gfMul ((1 : Block) <<< (127 - i)) y >>> 1) ^^^
      (if (gfMul ((1 : Block) <<< (127 - i)) y).getLsbD 0 then (0xE1 : Block) <<< 120 else 0))

/-- 44_gmac.md R214: a 12-byte nonce gives J0 = nonce || 0x00000001; any other nonce's J0 is the GHASH of the nonce, zeros to a
block boundary, eight zero bytes and the nonce's bit length, big-endian in 8 bytes. That string is whole blocks, and its last
8 bytes read as the bit length. -/
def Obligations.TwelveByteNonceIsDirect : Prop :=
  ∀ (H : Block) (nonce : List Byte),
    (nonce.length = 12 → blockBytes (deriveJ0 H nonce) = nonce ++ [0x00, 0x00, 0x00, 0x01]) ∧
    (nonce.length ≠ 12 → ∀ D : List Byte,
      D = nonce ++ zeros ((16 - nonce.length % 16) % 16) ++ zeros 8 ++ beBytes 8 (8 * nonce.length) →
      deriveJ0 H nonce = ghash H D ∧ D.length % 16 = 0 ∧
      beNat (D.drop (D.length - 8)) = 8 * nonce.length % 2 ^ 64)

/-- 41_ripemd160.md R148: the padded length is one block for a fill of at most 55 and two beyond, and the digest has 20
bytes. -/
def Obligations.RipemdPaddingFillsWholeBlocks : Prop :=
  ∀ c : RmdCtx, c.buf.fill < 64 →
    c.buf.fill + (rmdTail c.buf.fill c.nbytes.toNat).length = (if c.buf.fill ≤ 55 then 64 else 128) ∧
    (rmdFinal c).2.length = 20 ∧ (rmdFinal c).1.buf = Buf.zero 64 ∧ (rmdFinal c).1.nbytes = c.nbytes
end

