-- ==== Sys2Proof/Laws/Bytes.lean ====
section
/-! SUPPORT. Lengths and round trips of byte strings, pieces, blocks, and VERIFY's comparison. -/

namespace Sys2Proof.Machine

@[simp] theorem zeros_length (n : Nat) : (zeros n).length = n := by simp [zeros]

@[simp] theorem leBytes_length (n v : Nat) : (leBytes n v).length = n := by
  induction n generalizing v with
  | zero => rfl
  | succ n ih => simp [leBytes, ih]

@[simp] theorem beBytes_length (n v : Nat) : (beBytes n v).length = n := by simp [beBytes]

theorem leNat_lt (bs : List Byte) : leNat bs < 256 ^ bs.length := by
  induction bs with
  | nil => simp [leNat]
  | cons b bs ih =>
    have hb := b.isLt
    simp only [leNat, List.length_cons, Nat.pow_succ]
    omega

theorem leNat_append (a b : List Byte) : leNat (a ++ b) = leNat a + 256 ^ a.length * leNat b := by
  induction a with
  | nil => simp [leNat]
  | cons x a ih => simp [leNat, ih, Nat.pow_succ]; ring

@[simp] theorem leNat_zeros (n : Nat) : leNat (zeros n) = 0 := by
  induction n with
  | zero => rfl
  | succ n ih => simpa [zeros, List.replicate_succ, leNat] using ih

/-- `LE(LEbytes_n(v)) = v mod 256^n`. -/
theorem leNat_leBytes (n v : Nat) : leNat (leBytes n v) = v % 256 ^ n := by
  induction n generalizing v with
  | zero => simp [leBytes, leNat, Nat.mod_one]
  | succ n ih =>
    have hpow : 256 ^ (n + 1) = 256 * 256 ^ n := by ring
    rw [leBytes, leNat, ih, hpow, Nat.mod_mul]
    simp [BitVec.toNat_ofNat]

/-- `LEbytes_n(LE(bs)) = bs` for an n-byte string. -/
theorem leBytes_leNat (bs : List Byte) : leBytes bs.length (leNat bs) = bs := by
  induction bs with
  | nil => rfl
  | cons b bs ih =>
    have hb := b.isLt
    have h1 : BitVec.ofNat 8 (b.toNat + 256 * leNat bs) = b := by
      apply BitVec.eq_of_toNat_eq
      rw [BitVec.toNat_ofNat]
      omega
    have h2 : (b.toNat + 256 * leNat bs) / 256 = leNat bs := by omega
    simp [leBytes, leNat, h1, h2, ih]

@[simp] theorem blockBytes_length (b : Block) : (blockBytes b).length = 16 := by simp [blockBytes]

/-- A 16-byte string is the bytes of its block. -/
theorem blockBytes_blockOf (bs : List Byte) (h : bs.length = 16) : blockBytes (blockOf bs) = bs := by
  have hlt := leNat_lt bs.reverse
  rw [List.length_reverse, h] at hlt
  have hn : (BitVec.ofNat 128 (beNat bs)).toNat = leNat bs.reverse := by
    rw [BitVec.toNat_ofNat]
    exact Nat.mod_eq_of_lt hlt
  have h16 : leBytes 16 (leNat bs.reverse) = bs.reverse := by
    simpa [h] using leBytes_leNat bs.reverse
  unfold blockBytes blockOf
  rw [hn, beBytes, h16, List.reverse_reverse]

/-- A block is the block of its bytes. -/
theorem blockOf_blockBytes (b : Block) : blockOf (blockBytes b) = b := by
  apply BitVec.eq_of_toNat_eq
  have h := b.isLt
  simp only [blockOf, blockBytes, beNat, beBytes, List.reverse_reverse, leNat_leBytes, BitVec.toNat_ofNat]
  rw [Nat.mod_eq_of_lt (a := b.toNat) (by omega), Nat.mod_eq_of_lt h]

@[simp] theorem toArray_toList (n : Nat) (bs : List Byte) : (toArray n bs).toList = (bs ++ zeros n).take n := rfl

/-- The first bytes of the array of a string that fits are the string. -/
theorem toArray_take (n : Nat) (bs : List Byte) (h : bs.length ≤ n) : (toArray n bs).toList.take bs.length = bs := by
  simp [List.take_take, Nat.min_eq_left h]

/-- Beyond the string the array is zero. -/
theorem toArray_getElem_zero (n : Nat) (bs : List Byte) (i : Nat) (hi : i < n) (h : bs.length ≤ i) :
    (toArray n bs)[i] = 0 := by
  have : (toArray n bs)[i] = ((bs ++ zeros n).take n)[i]'(by simp; omega) := rfl
  rw [this, List.getElem_take, List.getElem_append_right h]
  simp [zeros]

/-! ## Pieces -/

theorem piecesUpTo_flatten (n fuel : Nat) (bs : List Byte) (hn : 0 < n) (hf : bs.length ≤ fuel) :
    (piecesUpTo n fuel bs).flatten = bs := by
  induction fuel generalizing bs with
  | zero =>
    have : bs = [] := List.eq_nil_of_length_eq_zero (by omega)
    simp [piecesUpTo, this]
  | succ fuel ih =>
    unfold piecesUpTo
    cases bs with
    | nil => simp
    | cons b bs =>
      have hd : ((b :: bs).drop n).length ≤ fuel := by
        simp only [List.length_drop, List.length_cons] at *
        omega
      simp [ih _ hd]

/-- The pieces of a string make it up. -/
theorem pieces_flatten (n : Nat) (bs : List Byte) (hn : 0 < n) : (pieces n bs).flatten = bs :=
  piecesUpTo_flatten n bs.length bs hn (Nat.le_refl _)

theorem piecesUpTo_length_le (n fuel : Nat) (bs : List Byte) : ∀ b ∈ piecesUpTo n fuel bs, b.length ≤ n := by
  induction fuel generalizing bs with
  | zero => simp [piecesUpTo]
  | succ fuel ih =>
    unfold piecesUpTo
    cases bs with
    | nil => simp
    | cons b bs =>
      intro p hp
      simp only [List.isEmpty_cons, Bool.false_eq_true, if_false, List.mem_cons] at hp
      rcases hp with rfl | hp
      · exact List.length_take_le _ _
      · exact ih _ p hp

/-- No piece is longer than `n`. -/
theorem pieces_length_le (n : Nat) (bs : List Byte) : ∀ b ∈ pieces n bs, b.length ≤ n :=
  piecesUpTo_length_le n bs.length bs

/-- More fuel than bytes changes no piece. -/
theorem piecesUpTo_fuel (n fuel : Nat) (bs : List Byte) (hn : 0 < n) (hf : bs.length ≤ fuel) :
    piecesUpTo n fuel bs = pieces n bs := by
  have key : ∀ f g : Nat, ∀ l : List Byte, l.length ≤ f → l.length ≤ g → piecesUpTo n f l = piecesUpTo n g l := by
    intro f
    induction f with
    | zero =>
      intro g l hl _
      have : l = [] := List.eq_nil_of_length_eq_zero (by omega)
      subst this
      cases g <;> rfl
    | succ f ih =>
      intro g l hl hg
      cases l with
      | nil => cases g <;> rfl
      | cons b l =>
        cases g with
        | zero => simp at hg
        | succ g =>
          have hd : ((b :: l).drop n).length ≤ l.length := by
            simp only [List.length_drop, List.length_cons]
            omega
          simp only [List.length_cons] at hl hg
          simp [piecesUpTo, ih g _ (by omega : ((b :: l).drop n).length ≤ f) (by omega)]
  exact key _ _ _ hf (Nat.le_refl _)

@[simp] theorem pieces_nil (n : Nat) : pieces n [] = [] := rfl

/-- A full block in front is the first piece. -/
theorem pieces_full_append (n : Nat) (a b : List Byte) (hn : 0 < n) (ha : a.length = n) :
    pieces n (a ++ b) = a :: pieces n b := by
  cases a with
  | nil => simp at ha; omega
  | cons x a =>
    simp only [List.length_cons] at ha
    subst ha
    rw [← piecesUpTo_fuel _ (a.length + b.length) b hn (by omega)]
    simp [pieces, piecesUpTo]

/-- A non-empty string of at most `n` bytes is one piece. -/
theorem pieces_short (n : Nat) (a : List Byte) (_hn : 0 < n) (h0 : a ≠ []) (ha : a.length ≤ n) : pieces n a = [a] := by
  cases a with
  | nil => exact absurd rfl h0
  | cons x a =>
    have hd : (x :: a).drop n = [] := List.drop_eq_nil_iff.mpr ha
    have ht : (x :: a).take n = x :: a := List.take_of_length_le ha
    have he : ∀ f, piecesUpTo n f [] = [] := fun f => by cases f <;> rfl
    simp [pieces, piecesUpTo, hd, ht, he]

/-- Full blocks in front are pieces of their own. -/
theorem pieces_append (n : Nat) (a b : List Byte) (hn : 0 < n) (ha : n ∣ a.length) :
    pieces n (a ++ b) = pieces n a ++ pieces n b := by
  obtain ⟨k, hk⟩ := ha
  induction k generalizing a with
  | zero =>
    have : a = [] := List.eq_nil_of_length_eq_zero (by simpa using hk)
    simp [this]
  | succ k ih =>
    have hl : (a.take n).length = n := by
      simp only [List.length_take, hk, Nat.mul_succ]
      omega
    have hd : (a.drop n).length = n * k := by
      simp only [List.length_drop, hk, Nat.mul_succ]
      omega
    have h1 := pieces_full_append n (a.take n) (a.drop n ++ b) hn hl
    have h2 := pieces_full_append n (a.take n) (a.drop n) hn hl
    rw [← List.append_assoc, List.take_append_drop] at h1
    rw [List.take_append_drop] at h2
    rw [h1, h2, ih _ hd, List.cons_append]

/-! ## VERIFY's comparison -/

theorem foldl_or_eq_zero (l : List Byte) (a : Byte) : l.foldl (· ||| ·) a = 0 ↔ a = 0 ∧ ∀ b ∈ l, b = 0 := by
  induction l generalizing a with
  | nil => simp
  | cons b l ih =>
    have hor : a ||| b = 0 ↔ a = 0 ∧ b = 0 := BitVec.or_eq_zero_iff
    simp only [List.foldl_cons, ih, hor, List.mem_cons, forall_eq_or_imp, and_assoc]

/-- Of two strings of one length, the `diff` is zero exactly when they are equal (R108). -/
theorem tagDiff_eq_zero_iff (a b : List Byte) (h : a.length = b.length) : tagDiff a b = 0 ↔ a = b := by
  unfold tagDiff xorBytes
  rw [foldl_or_eq_zero]
  induction a generalizing b with
  | nil => simp [List.length_eq_zero_iff.mp h.symm]
  | cons x a ih =>
    cases b with
    | nil => simp at h
    | cons y b =>
      have := ih b (by simpa using h)
      simp_all [BitVec.xor_eq_zero_iff]

/-- VERIFY's result on tags of one length. -/
theorem verifyResult_eq (a b : List Byte) (h : a.length = b.length) :
    verifyResult a b = if b = a then .ok else .authFail := by
  unfold verifyResult
  simp only [tagDiff_eq_zero_iff a b h, eq_comm]

end Sys2Proof.Machine
end

