-- ==== Sys2Proof/Laws/Buffer.lean ====
section
/-! SUPPORT. The block buffer engine: its fill stays in range, its pending bytes are the message's tail, and it reads a
message byte by byte with no regard to how it was cut (40_contract_and_buffer.md R110 to R113). -/

namespace Sys2Proof.Machine

variable {α : Type} {n : Nat}

@[simp] theorem Buf.zero_fill (n : Nat) : (Buf.zero n).fill = 0 := rfl
@[simp] theorem Buf.zero_pending (n : Nat) : (Buf.zero n).pending = [] := rfl
@[simp] theorem Buf.push_fill (b : Buf n) (x : Byte) : (b.push x).fill = b.fill + 1 := rfl
@[simp] theorem Buf.empty_fill (b : Buf n) : b.empty.fill = 0 := rfl
@[simp] theorem Buf.empty_pending (b : Buf n) : b.empty.pending = [] := rfl

/-- The pending bytes are as many as the fill says. -/
theorem Buf.pending_length (b : Buf n) (h : b.fill ≤ n) : b.pending.length = b.fill := by
  simp [Buf.pending, h]

/-- A byte pushed inside the buffer comes after the pending ones. -/
theorem Buf.push_pending (b : Buf n) (x : Byte) (h : b.fill < n) : (b.push x).pending = b.pending ++ [x] := by
  have hl : b.fill < b.bytes.toList.length := by simpa using h
  simp only [Buf.pending, Buf.push, Vector.toList_setIfInBounds]
  rw [List.take_succ_eq_append_getElem (by simpa using h), List.take_set_of_le (Nat.le_refl _),
    List.getElem_set_self]

/-- A full buffer's bytes are its pending bytes. -/
theorem Buf.toList_of_full (b : Buf n) (h : b.fill = n) : b.bytes.toList = b.pending := by
  simp [Buf.pending, h, List.take_of_length_le]

@[simp] theorem eagerAbsorb_nil (T : α → List Byte → α) (p : α × Buf n) : eagerAbsorb T p [] = p := rfl

/-- Absorbing two strings in turn is absorbing their concatenation (R113). -/
theorem eagerAbsorb_append (T : α → List Byte → α) (p : α × Buf n) (a b : List Byte) :
    eagerAbsorb T p (a ++ b) = eagerAbsorb T (eagerAbsorb T p a) b := by
  simp [eagerAbsorb, List.foldl_append]

/-- Absorbing two strings in turn is absorbing their concatenation (R113). -/
theorem holdbackAbsorb_append (T : α → List Byte → α) (p : α × Buf n) (a b : List Byte) :
    holdbackAbsorb T p (a ++ b) = holdbackAbsorb T (holdbackAbsorb T p a) b := by
  simp [holdbackAbsorb, List.foldl_append]

/-- One byte either completes the block, which is transformed, or is appended to the pending bytes (R110). -/
theorem eagerByte_cases (T : α → List Byte → α) (acc : α) (b : Buf n) (x : Byte) (h : b.fill < n) :
    (b.fill + 1 = n ∧ (eagerByte T (acc, b) x).1 = T acc (b.pending ++ [x]) ∧
      (eagerByte T (acc, b) x).2.pending = [] ∧ (eagerByte T (acc, b) x).2.fill = 0) ∨
    (b.fill + 1 < n ∧ (eagerByte T (acc, b) x).1 = acc ∧
      (eagerByte T (acc, b) x).2.pending = b.pending ++ [x] ∧ (eagerByte T (acc, b) x).2.fill = b.fill + 1) := by
  unfold eagerByte
  by_cases hb : b.fill + 1 = n
  · left
    have hf : (b.push x).fill = n := by simp [hb]
    simp [hb, Buf.toList_of_full _ hf, Buf.push_pending b x h]
  · right
    have hf : (b.push x).fill ≠ n := by simpa using hb
    refine ⟨by omega, ?_⟩
    simp [hb, Buf.push_pending b x h]

/-- The eager procedure keeps `fill < n` (R34, R110). -/
theorem eagerAbsorb_fill_lt (T : α → List Byte → α) (p : α × Buf n) (data : List Byte) (h : p.2.fill < n) :
    (eagerAbsorb T p data).2.fill < n := by
  induction data generalizing p with
  | nil => simpa using h
  | cons x data ih =>
    apply ih
    rcases eagerByte_cases T p.1 p.2 x h with ⟨_, _, _, hf⟩ | ⟨hlt, _, _, hf⟩
    · rw [hf]; omega
    · rw [hf]; exact hlt

/-- The eager procedure's fill is the number of bytes absorbed modulo the block size (R34, R110). -/
theorem eagerAbsorb_fill_mod (T : α → List Byte → α) (p : α × Buf n) (data : List Byte) (h : p.2.fill < n) :
    (eagerAbsorb T p data).2.fill = (p.2.fill + data.length) % n := by
  induction data generalizing p with
  | nil => simpa using (Nat.mod_eq_of_lt h).symm
  | cons x data ih =>
    have hcons : eagerAbsorb T p (x :: data) = eagerAbsorb T (eagerByte T p x) data := rfl
    rw [hcons, List.length_cons]
    rcases eagerByte_cases T p.1 p.2 x h with ⟨heq, _, _, hf⟩ | ⟨hlt, _, _, hf⟩
    · rw [ih _ (by rw [hf]; omega), hf, Nat.zero_add]
      have : p.2.fill + (data.length + 1) = n + data.length := by omega
      rw [this, Nat.add_mod_left]
    · rw [ih _ (by rw [hf]; exact hlt), hf]
      congr 1
      omega

/-- Absorbing transforms the full blocks of the pending bytes and the payload, in order, and leaves the rest pending
(R110). -/
theorem eagerAbsorb_blocks (T : α → List Byte → α) (p : α × Buf n) (data full rest : List Byte) (h : p.2.fill < n)
    (hm : p.2.pending ++ data = full ++ rest) (hf : n ∣ full.length) (hr : rest.length < n) :
    (eagerAbsorb T p data).1 = (pieces n full).foldl T p.1 ∧ (eagerAbsorb T p data).2.pending = rest := by
  induction data generalizing p full with
  | nil =>
    have hl := congrArg List.length hm
    simp only [List.append_nil, List.length_append] at hl
    have hp := p.2.pending_length (Nat.le_of_lt h)
    have h0 : full = [] := List.eq_nil_of_length_eq_zero (Nat.eq_zero_of_dvd_of_lt hf (by omega))
    subst h0
    simpa using hm
  | cons x data ih =>
    have hn : 0 < n := by omega
    have hcons : eagerAbsorb T p (x :: data) = eagerAbsorb T (eagerByte T p x) data := rfl
    have hp := p.2.pending_length (Nat.le_of_lt h)
    rw [hcons]
    rcases eagerByte_cases T p.1 p.2 x h with ⟨heq, h1, h2, h3⟩ | ⟨hlt, h1, h2, h3⟩
    · have hm' : (p.2.pending ++ [x]) ++ data = full ++ rest := by simpa using hm
      have hl := congrArg List.length hm'
      simp only [List.length_append, List.length_cons, List.length_nil] at hl
      have hle : (p.2.pending ++ [x]).length ≤ full.length := by
        obtain ⟨k, hk⟩ := hf
        cases k with
        | zero => simp only [Nat.mul_zero] at hk; omega
        | succ k => simp only [List.length_append, List.length_cons, List.length_nil, hk, Nat.mul_succ]; omega
      obtain ⟨full', rfl, hd⟩ : ∃ full', full = (p.2.pending ++ [x]) ++ full' ∧ data = full' ++ rest := by
        rcases List.append_eq_append_iff.mp hm' with ⟨c, hc1, hc2⟩ | ⟨c, hc1, hc2⟩
        · exact ⟨c, hc1, hc2⟩
        · have : c = [] := by
            have := congrArg List.length hc1
            simp only [List.length_append, List.length_cons, List.length_nil] at this hle
            exact List.eq_nil_of_length_eq_zero (by omega)
          subst this
          exact ⟨[], by simpa using hc1.symm, by simpa using hc2.symm⟩
      have hlen : (p.2.pending ++ [x]).length = n := by simp [hp, heq]
      have hf' : n ∣ full'.length := by
        rw [List.length_append, hlen] at hf
        exact (Nat.dvd_add_right (Nat.dvd_refl n)).mp hf
      have := ih (eagerByte T p x) full' (by rw [h3]; exact hn) (by rw [h2]; simpa using hd) hf'
      rw [this.1, this.2, pieces_full_append n _ _ hn hlen, List.foldl_cons, h1]
      exact ⟨rfl, rfl⟩
    · have := ih (eagerByte T p x) full (by rw [h3]; exact hlt) (by rw [h2]; simpa using hm) hf
      rw [this.1, this.2, h1]
      exact ⟨rfl, rfl⟩

/-- One byte of the hold-back procedure: a full buffer is transformed first (R112). -/
theorem holdbackByte_cases (T : α → List Byte → α) (acc : α) (b : Buf n) (x : Byte) (h : b.fill ≤ n) (hn : 0 < n) :
    (b.fill = n ∧ (holdbackByte T (acc, b) x).1 = T acc b.pending ∧
      (holdbackByte T (acc, b) x).2.pending = [x] ∧ (holdbackByte T (acc, b) x).2.fill = 1) ∨
    (b.fill < n ∧ (holdbackByte T (acc, b) x).1 = acc ∧
      (holdbackByte T (acc, b) x).2.pending = b.pending ++ [x] ∧ (holdbackByte T (acc, b) x).2.fill = b.fill + 1) := by
  unfold holdbackByte
  by_cases hb : b.fill = n
  · left
    simp [hb, Buf.toList_of_full _ hb, Buf.push_pending b.empty x (by simpa using hn)]
  · right
    have hlt : b.fill < n := by omega
    simp [hb, hlt, Buf.push_pending b x hlt]

/-- The hold-back procedure keeps `fill <= n` (R34, R112). -/
theorem holdbackAbsorb_fill_le (T : α → List Byte → α) (p : α × Buf n) (data : List Byte) (h : p.2.fill ≤ n)
    (hn : 0 < n) : (holdbackAbsorb T p data).2.fill ≤ n := by
  induction data generalizing p with
  | nil => exact h
  | cons x data ih =>
    apply ih
    rcases holdbackByte_cases T p.1 p.2 x h hn with ⟨_, _, _, hf⟩ | ⟨hlt, _, _, hf⟩
    · rw [hf]; omega
    · rw [hf]; omega

end Sys2Proof.Machine
end

