-- ==== Sys2Proof/Laws/Decode.lean ====
section
/-! SUPPORT. The fields of a packed word, the unit and operation codes, and the boundary check. -/

namespace Sys2Proof

/-- The boundary check says that the length is LEN (R70). -/
theorem hasLength_iff (l : List Byte) (n : Nat) : hasLength l n = true ↔ l.length = n := by
  induction l generalizing n with
  | nil => cases n <;> simp [hasLength]
  | cons b l ih => cases n <;> simp [hasLength, ih]

variable (u o : BitVec 4) (a : BitVec 8) (l : BitVec 16)

theorem packWord_toNat : (packWord u o a l).toNat = ((u.toNat * 16 + o.toNat) * 256 + a.toNat) * 65536 + l.toNat := by
  have hl := l.isLt
  have ha := a.isLt
  have ho := o.isLt
  unfold packWord
  rw [BitVec.toNat_append, BitVec.toNat_append, BitVec.toNat_append]
  rw [← Nat.shiftLeft_add_eq_or_of_lt ho, ← Nat.shiftLeft_add_eq_or_of_lt ha, ← Nat.shiftLeft_add_eq_or_of_lt hl]
  simp only [Nat.shiftLeft_eq]

@[simp] theorem unitField_packWord : unitField (packWord u o a l) = u := by
  apply BitVec.eq_of_toNat_eq
  have hu := u.isLt; have ho := o.isLt; have ha := a.isLt; have hl := l.isLt
  simp only [unitField, BitVec.extractLsb'_toNat, packWord_toNat, Nat.shiftRight_eq_div_pow]
  omega

@[simp] theorem opField_packWord : opField (packWord u o a l) = o := by
  apply BitVec.eq_of_toNat_eq
  have hu := u.isLt; have ho := o.isLt; have ha := a.isLt; have hl := l.isLt
  simp only [opField, BitVec.extractLsb'_toNat, packWord_toNat, Nat.shiftRight_eq_div_pow]
  omega

@[simp] theorem argField_packWord : argField (packWord u o a l) = a := by
  apply BitVec.eq_of_toNat_eq
  have hu := u.isLt; have ho := o.isLt; have ha := a.isLt; have hl := l.isLt
  simp only [argField, BitVec.extractLsb'_toNat, packWord_toNat, Nat.shiftRight_eq_div_pow]
  omega

@[simp] theorem lenField_packWord : lenField (packWord u o a l) = l.toNat := by
  have hu := u.isLt; have ho := o.isLt; have ha := a.isLt; have hl := l.isLt
  simp only [lenField, BitVec.extractLsb'_toNat, packWord_toNat, Nat.shiftRight_eq_div_pow]
  omega

/-- A word is its four fields. -/
theorem packWord_fields (w : Word) :
    packWord (unitField w) (opField w) (argField w) (BitVec.ofNat 16 (lenField w)) = w := by
  apply BitVec.eq_of_toNat_eq
  have hw := w.isLt
  simp only [packWord_toNat, unitField, opField, argField, lenField, BitVec.extractLsb'_toNat,
    Nat.shiftRight_eq_div_pow, BitVec.toNat_ofNat]
  omega

@[simp] theorem unitOf_unitCode (v : UnitId) : unitOf (unitCode v) = some v := by cases v <;> rfl

@[simp] theorem opOf_opCode (v : OpId) : opOf (opCode v) = some v := by cases v <;> rfl

theorem unitCode_of_unitOf (c : BitVec 4) (v : UnitId) (h : unitOf c = some v) : unitCode v = c := by
  revert v
  revert c
  decide

theorem opCode_of_opOf (c : BitVec 4) (v : OpId) (h : opOf c = some v) : opCode v = c := by
  revert v
  revert c
  decide

@[simp] theorem algInField_append (i o' : BitVec 4) : algInField (i ++ o') = i := by
  revert i o'
  decide

@[simp] theorem algOutField_append (i o' : BitVec 4) : algOutField (i ++ o') = o' := by
  revert i o'
  decide

theorem algFields_append (arg : BitVec 8) : algInField arg ++ algOutField arg = arg := by
  revert arg
  decide

/-- A well-formed payload's length survives the LEN field. -/
theorem fitsLen_toNat (p : List Byte) (h : fitsLen p = true) : (BitVec.ofNat 16 p.length).toNat = p.length := by
  have h' : p.length ≤ 65535 := by simpa [fitsLen, Config.lenMax] using h
  rw [BitVec.toNat_ofNat]
  omega

end Sys2Proof
end

