-- ==== Sys2Proof/Laws/State.lean ====
section
/-! SUPPORT. What each update of State leaves in each field: one lemma per field per update. -/

namespace Sys2Proof.Machine

variable (s : State)

@[simp] theorem State.setErr_cmds (c : ErrCode) : (s.setErr c).cmds = s.cmds := rfl
@[simp] theorem State.setErr_pos (c : ErrCode) : (s.setErr c).pos = s.pos := rfl
@[simp] theorem State.setErr_err (c : ErrCode) : (s.setErr c).err = errValue c := rfl
@[simp] theorem State.setErr_outlen (c : ErrCode) : (s.setErr c).outlen = s.outlen := rfl
@[simp] theorem State.setErr_out (c : ErrCode) : (s.setErr c).out = s.out := rfl
@[simp] theorem State.setErr_rmd (c : ErrCode) : (s.setErr c).rmd = s.rmd := rfl
@[simp] theorem State.setErr_hmac (c : ErrCode) : (s.setErr c).hmac = s.hmac := rfl
@[simp] theorem State.setErr_cmac (c : ErrCode) : (s.setErr c).cmac = s.cmac := rfl
@[simp] theorem State.setErr_gmac (c : ErrCode) : (s.setErr c).gmac = s.gmac := rfl
@[simp] theorem State.setErr_p1305 (c : ErrCode) : (s.setErr c).p1305 = s.p1305 := rfl

@[simp] theorem State.raise_cmds (c : ErrCode) : (s.raise c).cmds = s.cmds := rfl
@[simp] theorem State.raise_pos (c : ErrCode) : (s.raise c).pos = s.pos := rfl
@[simp] theorem State.raise_err (c : ErrCode) : (s.raise c).err = errValue c := rfl
@[simp] theorem State.raise_outlen (c : ErrCode) : (s.raise c).outlen = s.outlen := rfl
@[simp] theorem State.raise_out (c : ErrCode) : (s.raise c).out = s.out := rfl
@[simp] theorem State.raise_rmd (c : ErrCode) : (s.raise c).rmd = s.rmd := rfl
@[simp] theorem State.raise_hmac (c : ErrCode) : (s.raise c).hmac = s.hmac := rfl
@[simp] theorem State.raise_cmac (c : ErrCode) : (s.raise c).cmac = s.cmac := rfl
@[simp] theorem State.raise_gmac (c : ErrCode) : (s.raise c).gmac = s.gmac := rfl
@[simp] theorem State.raise_p1305 (c : ErrCode) : (s.raise c).p1305 = s.p1305 := rfl

@[simp] theorem State.succeed_cmds : (s.succeed).cmds = s.cmds := rfl
@[simp] theorem State.succeed_pos : (s.succeed).pos = s.pos := rfl
@[simp] theorem State.succeed_err : (s.succeed).err = 0 := rfl
@[simp] theorem State.succeed_outlen : (s.succeed).outlen = s.outlen := rfl
@[simp] theorem State.succeed_out : (s.succeed).out = s.out := rfl
@[simp] theorem State.succeed_rmd : (s.succeed).rmd = s.rmd := rfl
@[simp] theorem State.succeed_hmac : (s.succeed).hmac = s.hmac := rfl
@[simp] theorem State.succeed_cmac : (s.succeed).cmac = s.cmac := rfl
@[simp] theorem State.succeed_gmac : (s.succeed).gmac = s.gmac := rfl
@[simp] theorem State.succeed_p1305 : (s.succeed).p1305 = s.p1305 := rfl

@[simp] theorem State.setRmd_cmds (c : RmdUnit) : (s.setRmd c).cmds = s.cmds := rfl
@[simp] theorem State.setRmd_pos (c : RmdUnit) : (s.setRmd c).pos = s.pos := rfl
@[simp] theorem State.setRmd_err (c : RmdUnit) : (s.setRmd c).err = s.err := rfl
@[simp] theorem State.setRmd_outlen (c : RmdUnit) : (s.setRmd c).outlen = s.outlen := rfl
@[simp] theorem State.setRmd_out (c : RmdUnit) : (s.setRmd c).out = s.out := rfl
@[simp] theorem State.setRmd_rmd (c : RmdUnit) : (s.setRmd c).rmd = c := rfl
@[simp] theorem State.setRmd_hmac (c : RmdUnit) : (s.setRmd c).hmac = s.hmac := rfl
@[simp] theorem State.setRmd_cmac (c : RmdUnit) : (s.setRmd c).cmac = s.cmac := rfl
@[simp] theorem State.setRmd_gmac (c : RmdUnit) : (s.setRmd c).gmac = s.gmac := rfl
@[simp] theorem State.setRmd_p1305 (c : RmdUnit) : (s.setRmd c).p1305 = s.p1305 := rfl

@[simp] theorem State.setHmac_cmds (c : HmacUnit) : (s.setHmac c).cmds = s.cmds := rfl
@[simp] theorem State.setHmac_pos (c : HmacUnit) : (s.setHmac c).pos = s.pos := rfl
@[simp] theorem State.setHmac_err (c : HmacUnit) : (s.setHmac c).err = s.err := rfl
@[simp] theorem State.setHmac_outlen (c : HmacUnit) : (s.setHmac c).outlen = s.outlen := rfl
@[simp] theorem State.setHmac_out (c : HmacUnit) : (s.setHmac c).out = s.out := rfl
@[simp] theorem State.setHmac_rmd (c : HmacUnit) : (s.setHmac c).rmd = s.rmd := rfl
@[simp] theorem State.setHmac_hmac (c : HmacUnit) : (s.setHmac c).hmac = c := rfl
@[simp] theorem State.setHmac_cmac (c : HmacUnit) : (s.setHmac c).cmac = s.cmac := rfl
@[simp] theorem State.setHmac_gmac (c : HmacUnit) : (s.setHmac c).gmac = s.gmac := rfl
@[simp] theorem State.setHmac_p1305 (c : HmacUnit) : (s.setHmac c).p1305 = s.p1305 := rfl

@[simp] theorem State.setCmac_cmds (c : CmacUnit) : (s.setCmac c).cmds = s.cmds := rfl
@[simp] theorem State.setCmac_pos (c : CmacUnit) : (s.setCmac c).pos = s.pos := rfl
@[simp] theorem State.setCmac_err (c : CmacUnit) : (s.setCmac c).err = s.err := rfl
@[simp] theorem State.setCmac_outlen (c : CmacUnit) : (s.setCmac c).outlen = s.outlen := rfl
@[simp] theorem State.setCmac_out (c : CmacUnit) : (s.setCmac c).out = s.out := rfl
@[simp] theorem State.setCmac_rmd (c : CmacUnit) : (s.setCmac c).rmd = s.rmd := rfl
@[simp] theorem State.setCmac_hmac (c : CmacUnit) : (s.setCmac c).hmac = s.hmac := rfl
@[simp] theorem State.setCmac_cmac (c : CmacUnit) : (s.setCmac c).cmac = c := rfl
@[simp] theorem State.setCmac_gmac (c : CmacUnit) : (s.setCmac c).gmac = s.gmac := rfl
@[simp] theorem State.setCmac_p1305 (c : CmacUnit) : (s.setCmac c).p1305 = s.p1305 := rfl

@[simp] theorem State.setGmac_cmds (c : GmacUnit) : (s.setGmac c).cmds = s.cmds := rfl
@[simp] theorem State.setGmac_pos (c : GmacUnit) : (s.setGmac c).pos = s.pos := rfl
@[simp] theorem State.setGmac_err (c : GmacUnit) : (s.setGmac c).err = s.err := rfl
@[simp] theorem State.setGmac_outlen (c : GmacUnit) : (s.setGmac c).outlen = s.outlen := rfl
@[simp] theorem State.setGmac_out (c : GmacUnit) : (s.setGmac c).out = s.out := rfl
@[simp] theorem State.setGmac_rmd (c : GmacUnit) : (s.setGmac c).rmd = s.rmd := rfl
@[simp] theorem State.setGmac_hmac (c : GmacUnit) : (s.setGmac c).hmac = s.hmac := rfl
@[simp] theorem State.setGmac_cmac (c : GmacUnit) : (s.setGmac c).cmac = s.cmac := rfl
@[simp] theorem State.setGmac_gmac (c : GmacUnit) : (s.setGmac c).gmac = c := rfl
@[simp] theorem State.setGmac_p1305 (c : GmacUnit) : (s.setGmac c).p1305 = s.p1305 := rfl

@[simp] theorem State.setP1305_cmds (c : PolyUnit) : (s.setP1305 c).cmds = s.cmds := rfl
@[simp] theorem State.setP1305_pos (c : PolyUnit) : (s.setP1305 c).pos = s.pos := rfl
@[simp] theorem State.setP1305_err (c : PolyUnit) : (s.setP1305 c).err = s.err := rfl
@[simp] theorem State.setP1305_outlen (c : PolyUnit) : (s.setP1305 c).outlen = s.outlen := rfl
@[simp] theorem State.setP1305_out (c : PolyUnit) : (s.setP1305 c).out = s.out := rfl
@[simp] theorem State.setP1305_rmd (c : PolyUnit) : (s.setP1305 c).rmd = s.rmd := rfl
@[simp] theorem State.setP1305_hmac (c : PolyUnit) : (s.setP1305 c).hmac = s.hmac := rfl
@[simp] theorem State.setP1305_cmac (c : PolyUnit) : (s.setP1305 c).cmac = s.cmac := rfl
@[simp] theorem State.setP1305_gmac (c : PolyUnit) : (s.setP1305 c).gmac = s.gmac := rfl
@[simp] theorem State.setP1305_p1305 (c : PolyUnit) : (s.setP1305 c).p1305 = c := rfl

@[simp] theorem State.writeResult_cmds (T : List Byte) (L : Nat) : (s.writeResult T L).cmds = s.cmds := rfl
@[simp] theorem State.writeResult_pos (T : List Byte) (L : Nat) : (s.writeResult T L).pos = s.pos := rfl
@[simp] theorem State.writeResult_err (T : List Byte) (L : Nat) : (s.writeResult T L).err = s.err := rfl
@[simp] theorem State.writeResult_outlen (T : List Byte) (L : Nat) : (s.writeResult T L).outlen = BitVec.ofNat 8 L := rfl
@[simp] theorem State.writeResult_out (T : List Byte) (L : Nat) : (s.writeResult T L).out = overlay s.out T := rfl
@[simp] theorem State.writeResult_rmd (T : List Byte) (L : Nat) : (s.writeResult T L).rmd = s.rmd := rfl
@[simp] theorem State.writeResult_hmac (T : List Byte) (L : Nat) : (s.writeResult T L).hmac = s.hmac := rfl
@[simp] theorem State.writeResult_cmac (T : List Byte) (L : Nat) : (s.writeResult T L).cmac = s.cmac := rfl
@[simp] theorem State.writeResult_gmac (T : List Byte) (L : Nat) : (s.writeResult T L).gmac = s.gmac := rfl
@[simp] theorem State.writeResult_p1305 (T : List Byte) (L : Nat) : (s.writeResult T L).p1305 = s.p1305 := rfl

@[simp] theorem State.advance_cmds : (s.advance).cmds = s.cmds := rfl
@[simp] theorem State.advance_pos : (s.advance).pos = s.pos + 1 := rfl
@[simp] theorem State.advance_err : (s.advance).err = s.err := rfl
@[simp] theorem State.advance_outlen : (s.advance).outlen = s.outlen := rfl
@[simp] theorem State.advance_out : (s.advance).out = s.out := rfl
@[simp] theorem State.advance_rmd : (s.advance).rmd = s.rmd := rfl
@[simp] theorem State.advance_hmac : (s.advance).hmac = s.hmac := rfl
@[simp] theorem State.advance_cmac : (s.advance).cmac = s.cmac := rfl
@[simp] theorem State.advance_gmac : (s.advance).gmac = s.gmac := rfl
@[simp] theorem State.advance_p1305 : (s.advance).p1305 = s.p1305 := rfl

/-- Writing STATUS.ERR twice keeps the last code. -/
@[simp] theorem State.setErr_setErr (c d : ErrCode) : (s.setErr c).setErr d = s.setErr d := rfl

/-- A raise, as an update of one field (R253). -/
theorem State.raise_eq (c : ErrCode) : s.raise c = { s with err := errValue c } := rfl

/-- Success, as an update of one field (R100). -/
theorem State.succeed_eq : s.succeed = { s with err := 0 } := rfl

end Sys2Proof.Machine
end

