-- ==== Sys2Proof/Laws/Shapes.lean ====
section
/-! SUPPORT. What each common shape can do, said once: the cases of RESET, ABSORB, FINALIZE, COMPUTE and VERIFY, with
the conditions that select them. -/

namespace Sys2Proof.Machine

variable {C : Type} (U : UnitShape C) (s : State)

@[simp] theorem Phase.isKeyed_iff (p : Phase) : p.isKeyed = true ↔ p = .active ∨ p = .finalized := by
  cases p <;> simp [Phase.isKeyed]

/-- RESET either restarts the unit or reports INVALID_STATE. -/
theorem resetShape_cases :
    ((U.phase (U.get s)).isKeyed = true ∧
      resetShape U s = (U.put s (U.setPhase (U.init (U.get s)) .active)).succeed) ∨
    ((U.phase (U.get s)).isKeyed = false ∧ resetShape U s = s.raise .invalidState) := by
  unfold resetShape
  cases h : (U.phase (U.get s)).isKeyed <;> simp

/-- ABSORB reports INVALID_STATE, or MSG_TOO_LONG, or feeds the payload to the unit. -/
theorem absorbShape_cases (data : List Byte) :
    (U.phase (U.get s) ≠ .active ∧ absorbShape U data s = s.raise .invalidState) ∨
    (U.phase (U.get s) = .active ∧ exceedsMaxMsg (U.count (U.get s)) data.length = true ∧
      absorbShape U data s = s.raise .msgTooLong) ∨
    (U.phase (U.get s) = .active ∧ exceedsMaxMsg (U.count (U.get s)) data.length = false ∧
      absorbShape U data s = (U.put s (U.absorb (U.get s) data)).succeed) := by
  unfold absorbShape
  by_cases h : U.phase (U.get s) = .active
  · cases hc : exceedsMaxMsg (U.count (U.get s)) data.length <;> simp [h]
  · simp [h]

/-- FINALIZE reports INVALID_STATE, or OUTPUT_TOO_SMALL, or produces the result. -/
theorem finalizeShape_cases (cap : BitVec 8) :
    (U.phase (U.get s) ≠ .active ∧ finalizeShape U cap s = s.raise .invalidState) ∨
    (U.phase (U.get s) = .active ∧ capValue cap < U.outSize (U.get s) ∧
      finalizeShape U cap s = s.raise .outputTooSmall) ∨
    (U.phase (U.get s) = .active ∧ U.outSize (U.get s) ≤ capValue cap ∧
      finalizeShape U cap s = produce U (U.get s) s) := by
  unfold finalizeShape
  by_cases h : U.phase (U.get s) = .active
  · by_cases hc : capValue cap < U.outSize (U.get s)
    · simp [h, hc]
    · simp [h, hc, Nat.le_of_not_lt hc]
  · simp [h]

/-- COMPUTE reports INVALID_STATE, or OUTPUT_TOO_SMALL, or produces the result of its payload. -/
theorem computeShape_cases (cap : BitVec 8) (data : List Byte) :
    ((U.phase (U.get s)).isKeyed = false ∧ computeShape U cap data s = s.raise .invalidState) ∨
    ((U.phase (U.get s)).isKeyed = true ∧ capValue cap < U.outSize (U.get s) ∧
      computeShape U cap data s = s.raise .outputTooSmall) ∨
    ((U.phase (U.get s)).isKeyed = true ∧ U.outSize (U.get s) ≤ capValue cap ∧
      computeShape U cap data s = produce U (U.absorb (U.init (U.get s)) data) s) := by
  unfold computeShape
  cases h : (U.phase (U.get s)).isKeyed
  · simp
  · by_cases hc : capValue cap < U.outSize (U.get s)
    · simp [hc]
    · simp [hc, Nat.le_of_not_lt hc]

/-- VERIFY reports INVALID_STATE, or TAG_LENGTH, or finalizes the unit and answers its comparison. -/
theorem verifyShape_cases (tag : List Byte) :
    (U.phase (U.get s) ≠ .active ∧ verifyShape U tag s = s.raise .invalidState) ∨
    (U.phase (U.get s) = .active ∧ tag.length ≠ U.outSize (U.get s) ∧
      verifyShape U tag s = s.raise .tagLength) ∨
    (U.phase (U.get s) = .active ∧ tag.length = U.outSize (U.get s) ∧
      verifyShape U tag s = (U.put s (U.setPhase (U.final (U.get s)).1 .finalized)).setErr
        (verifyResult (U.final (U.get s)).2 tag)) := by
  unfold verifyShape
  by_cases h : U.phase (U.get s) = .active
  · by_cases hc : tag.length = U.outSize (U.get s) <;> simp [h, hc]
  · simp [h]

end Sys2Proof.Machine
end

