-- ==== Sys2Proof/Laws/Units.lean ====
section
/-! SUPPORT. What the units' own pieces leave: sizes of results, counts, fills, and absorbing in parts. -/

namespace Sys2Proof.Machine

open Config (Cipher Registry)

/-! ## RIPEMD-160 -/

@[simp] theorem chainBytes_length (h : Chain) : (chainBytes h).length = 20 := by simp [chainBytes]

@[simp] theorem rmdFinal_length (c : RmdCtx) : (rmdFinal c).2.length = 20 := chainBytes_length _

@[simp] theorem rmdFinal_buf (c : RmdCtx) : (rmdFinal c).1.buf = Buf.zero 64 := rfl

@[simp] theorem rmdFinal_nbytes (c : RmdCtx) : (rmdFinal c).1.nbytes = c.nbytes := rfl

/-- The count of a context that absorbed a payload, modulo the block size. -/
theorem count_add_mod (a : BitVec 61) (k m : Nat) (hm : m ∣ 2 ^ 61) :
    (a + BitVec.ofNat 61 k).toNat % m = (a.toNat + k) % m := by
  rw [BitVec.toNat_add, BitVec.toNat_ofNat, Nat.mod_mod_of_dvd _ hm, Nat.add_mod, Nat.mod_mod_of_dvd _ hm,
    ← Nat.add_mod]

/-- Absorbing keeps `fill` in range and equal to the count modulo 64 (R34). -/
theorem rmdAbsorb_counted (c : RmdCtx) (data : List Byte) (h : c.buf.fill < 64) (hc : c.buf.fill = c.nbytes.toNat % 64) :
    (rmdAbsorb c data).buf.fill < 64 ∧ (rmdAbsorb c data).buf.fill = (rmdAbsorb c data).nbytes.toNat % 64 := by
  refine ⟨eagerAbsorb_fill_lt _ _ _ h, ?_⟩
  have h1 : (rmdAbsorb c data).buf.fill = (c.buf.fill + data.length) % 64 := eagerAbsorb_fill_mod _ _ _ h
  rw [h1, hc]
  simp only [rmdAbsorb]
  rw [count_add_mod _ _ _ (by decide), Nat.mod_add_mod]

/-- Absorbing in two parts is absorbing the whole (R113). -/
theorem rmdAbsorb_append (c : RmdCtx) (a b : List Byte) : rmdAbsorb c (a ++ b) = rmdAbsorb (rmdAbsorb c a) b := by
  simp only [rmdAbsorb, eagerAbsorb_append, List.length_append, Prod.mk.eta]
  congr 1
  apply BitVec.eq_of_toNat_eq
  simp only [BitVec.toNat_add, BitVec.toNat_ofNat]
  omega

theorem rmdInit_counted : rmdInit.buf.fill < 64 ∧ rmdInit.buf.fill = rmdInit.nbytes.toNat % 64 := by decide

/-! ## Digests and HMAC -/

/-- Absorbing in two parts is absorbing the whole (R113, R114). -/
theorem dAbsorb_append (d : DigestCtx) (a b : List Byte) : dAbsorb d (a ++ b) = dAbsorb (dAbsorb d a) b := by
  cases d with
  | rmd c => simp [dAbsorb, rmdAbsorb_append]
  | ext m => simp [dAbsorb]

/-- A registered digest's descriptor meets R5's bounds. -/
theorem digestDesc_bounds (R : Registry) (a : BitVec 4) (B L : Nat) (h : digestDesc R a = some (B, L)) :
    1 ≤ L ∧ L ≤ B ∧ B ≤ 128 ∧ L ≤ 64 := by
  unfold digestDesc at h
  split at h
  · simp only [Option.some.injEq, Prod.mk.injEq] at h
    obtain ⟨rfl, rfl⟩ := h
    decide
  · cases hR : R a with
    | none => simp [hR] at h
    | some d =>
      simp only [hR, Option.map_some, Option.some.injEq, Prod.mk.injEq] at h
      obtain ⟨rfl, rfl⟩ := h
      exact ⟨d.one_le_L, d.L_le_B, d.B_le_bMax, d.L_le_outMax⟩

/-- A registered external digest gives L bytes. -/
theorem extHash_length (R : Registry) (a : BitVec 4) (B L : Nat) (h : digestDesc R a = some (B, L)) (ha : a ≠ 0)
    (bs : List Byte) : (extHash R a bs).length = L := by
  unfold digestDesc at h
  rw [if_neg ha] at h
  cases hR : R a with
  | none => simp [hR] at h
  | some d =>
    simp only [hR, Option.map_some, Option.some.injEq, Prod.mk.injEq] at h
    simp [extHash, hR, d.hash_length, h.2]

/-- A digest of a known code gives L bytes. -/
theorem digest_length (R : Registry) (a : BitVec 4) (B L : Nat) (h : digestDesc R a = some (B, L)) (bs : List Byte) :
    (digest R a bs).length = L := by
  by_cases ha : a = 0
  · subst ha
    simp only [digestDesc, if_true, Option.some.injEq, Prod.mk.injEq] at h
    simp [digest, dInit, dAbsorb, dFinal, ← h.2]
  · have hd : dInit a = .ext [] := if_neg ha
    simp only [digest, hd, dAbsorb, dFinal, List.nil_append]
    exact extHash_length R a B L h ha bs

/-- K' has exactly B bytes (R171). -/
theorem kPrime_length (R : Registry) (a : BitVec 4) (B L : Nat) (h : digestDesc R a = some (B, L)) (key : List Byte) :
    (kPrime R a B key).length = B := by
  have hb := digestDesc_bounds R a B L h
  unfold kPrime
  split
  · simp only [List.length_append, zeros_length, digest_length R a B L h]
    omega
  · simp only [List.length_append, zeros_length]
    omega

/-- The first B bytes of a pad are K' xor the pad byte (R172). -/
theorem hmacPad_take (k' : List Byte) (x : Byte) (h : k'.length ≤ 128) :
    (hmacPad k' x).toList.take k'.length = k'.map (· ^^^ x) := by
  have := toArray_take 128 (k'.map (· ^^^ x)) (by simpa using h)
  simpa [hmacPad] using this

/-- A fresh digest context that absorbed something is well shaped for its code (R29). -/
theorem dInit_absorb_rmd (a : BitVec 4) (bs : List Byte) (c : RmdCtx) (h : dAbsorb (dInit a) bs = .rmd c) :
    a = 0 ∧ c = rmdAbsorb rmdInit bs := by
  by_cases ha : a = 0
  · simp only [dInit, if_pos ha, dAbsorb, DigestCtx.rmd.injEq] at h
    exact ⟨ha, h.symm⟩
  · have hd : dInit a = .ext [] := if_neg ha
    rw [hd] at h
    cases h

/-! ## CMAC -/

@[simp] theorem cmacFinal_length (E : Cipher) (u : CmacUnit) : (cmacFinal E u).2.length = 16 := blockBytes_length _

/-- Absorbing in two parts is absorbing the whole (R113). -/
theorem cmacAbsorb_append (E : Cipher) (u : CmacUnit) (a b : List Byte) :
    cmacAbsorb E u (a ++ b) = cmacAbsorb E (cmacAbsorb E u a) b := by
  simp [cmacAbsorb, holdbackAbsorb_append, CmacUnit.cipherKey]

theorem cmacAbsorb_fill_le (E : Cipher) (u : CmacUnit) (data : List Byte) (h : u.buf.fill ≤ 16) :
    (cmacAbsorb E u data).buf.fill ≤ 16 := holdbackAbsorb_fill_le _ _ _ h (by decide)

/-- The loaded key of a context SETKEY installed is the key. -/
@[simp] theorem cmacKeyed_cipherKey (E : Cipher) (key : List Byte) (h : key.length ≤ 32) :
    (cmacKeyed E key).cipherKey = key := toArray_take 32 key h

/-! ## GMAC -/

@[simp] theorem gmacFinal_length (E : Cipher) (u : GmacUnit) : (gmacFinal E u).2.length = 16 := blockBytes_length _

/-- Absorbing in two parts is absorbing the whole (R113). -/
theorem gmacAbsorb_append (u : GmacUnit) (a b : List Byte) : gmacAbsorb u (a ++ b) = gmacAbsorb (gmacAbsorb u a) b := by
  simp only [gmacAbsorb, eagerAbsorb_append, List.length_append, Prod.mk.eta]
  congr 1
  apply BitVec.eq_of_toNat_eq
  simp only [BitVec.toNat_add, BitVec.toNat_ofNat]
  omega

/-- Absorbing keeps `fill` in range and equal to the count modulo 16 (R34). -/
theorem gmacAbsorb_counted (u : GmacUnit) (data : List Byte) (h : u.buf.fill < 16) (hc : u.buf.fill = u.nbytes.toNat % 16) :
    (gmacAbsorb u data).buf.fill < 16 ∧ (gmacAbsorb u data).buf.fill = (gmacAbsorb u data).nbytes.toNat % 16 := by
  refine ⟨eagerAbsorb_fill_lt _ _ _ h, ?_⟩
  have h1 : (gmacAbsorb u data).buf.fill = (u.buf.fill + data.length) % 16 := eagerAbsorb_fill_mod _ _ _ h
  rw [h1, hc]
  simp only [gmacAbsorb]
  rw [count_add_mod _ _ _ (by decide), Nat.mod_add_mod]

/-- The loaded key of a context SETKEY installed is the key. -/
@[simp] theorem gmacKeyed_cipherKey (E : Cipher) (key : List Byte) (h : key.length ≤ 32) :
    (gmacKeyed E key).cipherKey = key := toArray_take 32 key h

/-! ## Poly1305 -/

@[simp] theorem polyFinal_length (u : PolyUnit) : (polyFinal u).2.length = 16 := leBytes_length _ _

theorem polyMulAdd_lt (r : BitVec 128) (h n : Nat) : polyMulAdd r h n < polyP := Nat.mod_lt _ (by decide)

/-- The accumulator stays a residue below the prime (R231). -/
theorem polyAbsorb_h_lt (u : PolyUnit) (data : List Byte) (h : u.h < polyP) : (polyAbsorb u data).h < polyP := by
  have key : ∀ (d : List Byte) (p : Nat × Buf 16), p.1 < polyP → (eagerAbsorb (polyBlock u.r) p d).1 < polyP := by
    intro d
    induction d with
    | nil => exact fun p hp => hp
    | cons x d ih =>
      intro p hp
      apply ih
      unfold eagerByte
      dsimp only
      split
      · exact polyMulAdd_lt _ _ _
      · exact hp
  exact key data (u.h, u.buf) h

theorem polyAbsorb_fill_lt (u : PolyUnit) (data : List Byte) (h : u.buf.fill < 16) :
    (polyAbsorb u data).buf.fill < 16 := eagerAbsorb_fill_lt _ _ _ h

/-- Absorbing in two parts is absorbing the whole (R113). -/
theorem polyAbsorb_append (u : PolyUnit) (a b : List Byte) : polyAbsorb u (a ++ b) = polyAbsorb (polyAbsorb u a) b := by
  simp [polyAbsorb, eagerAbsorb_append]

theorem polyLastH_lt (u : PolyUnit) (h : u.h < polyP) : polyLastH u < polyP := by
  unfold polyLastH
  split
  · exact polyMulAdd_lt _ _ _
  · exact h

/-- Clamping clears exactly the bits outside CLAMP (R230). -/
theorem polyR_clamped (key : List Byte) : polyR key &&& ~~~polyClamp = 0 := by
  simp [polyR, BitVec.and_assoc]

/-! ## OUT -/

/-- The bytes of OUT after a result: the result's, then the old ones (10_state.md R26). -/
theorem overlay_getElem (out : Vector Byte 64) (T : List Byte) (i : Nat) (hi : i < 64) :
    (overlay out T)[i] = if h : i < T.length then T[i] else out[i] := by
  have h0 : (overlay out T)[i] = ((T ++ out.toList.drop T.length).take 64)[i]'(by simp; omega) := rfl
  rw [h0, List.getElem_take, List.getElem_append]
  split
  · rfl
  · rename_i h
    simp [Nat.add_sub_cancel' (Nat.le_of_not_lt h)]

end Sys2Proof.Machine
end

