-- ==== Sys2Proof/Laws/Invariants.lean ====
section
/-! SUPPORT. The counted buffers of 10_state.md R34: a started message, absorbed bytes and a finished tag keep them. -/

namespace Sys2Proof.Machine

/-- Outside FINALIZED the relation of R34 is all there is. -/
theorem FillCounted.of_eq {n fill nbytes : Nat} {p : Phase} (hp : p ≠ .finalized) (h : fill = nbytes % n) :
    FillCounted n fill nbytes p := ⟨fun _ => h, fun hf => absurd hf hp⟩

/-- An empty buffer is what FINALIZED asks for, whatever the count (R148, R216). -/
theorem FillCounted.finalized (n nbytes : Nat) : FillCounted n 0 nbytes .finalized :=
  ⟨fun h => absurd rfl h, fun _ => rfl⟩

/-- The RMD unit that starts a message (R149). -/
theorem rmdInit_inv : RmdUnit.Inv ⟨rmdInit, .active⟩ :=
  ⟨.inl rfl, rmdInit_counted.1, .of_eq (by decide) rmdInit_counted.2⟩

/-- ABSORB keeps RMD's invariant (R151). -/
theorem rmdAbsorb_inv (u : RmdUnit) (data : List Byte) (hp : u.phase = .active) (h : u.Inv) :
    RmdUnit.Inv { u with toRmdCtx := rmdAbsorb u.toRmdCtx data } :=
  have k := rmdAbsorb_counted u.toRmdCtx data h.fill_lt (h.counted.counted (by rw [hp]; decide))
  ⟨h.phase_legal, k.1, .of_eq (show u.phase ≠ .finalized by rw [hp]; decide) k.2⟩

/-- A tag leaves RMD's invariant, from any context (R148). -/
theorem rmdFinal_inv (c : RmdCtx) : RmdUnit.Inv ⟨(rmdFinal c).1, .finalized⟩ :=
  ⟨.inr rfl, by simp, .finalized 64 _⟩

/-- The inner digest a message starts with, after any first bytes. -/
theorem dInit_shaped (alg : BitVec 4) (data : List Byte) : (dAbsorb (dInit alg) data).Shaped alg .active := by
  unfold dInit
  by_cases h : alg = 0
  · have k := rmdAbsorb_counted rmdInit data rmdInit_counted.1 rmdInit_counted.2
    simp only [h, if_true, dAbsorb]
    exact ⟨rfl, k.1, .of_eq (by decide) k.2⟩
  · rw [if_neg h]
    exact h

/-- Absorbing keeps the inner digest's form (R29, R34). -/
theorem dAbsorb_shaped (d : DigestCtx) (alg : BitVec 4) (data : List Byte) (h : d.Shaped alg .active) :
    (dAbsorb d data).Shaped alg .active := by
  cases d with
  | rmd c =>
    have k := rmdAbsorb_counted c data h.2.1 (h.2.2.counted (by decide))
    exact ⟨h.1, k.1, .of_eq (by decide) k.2⟩
  | ext m => exact h

/-- A digest leaves the inner digest's form, in FINALIZED. -/
theorem dFinal_shaped (R : Config.Registry) (d : DigestCtx) (alg : BitVec 4) (p : Phase) (h : d.Shaped alg p) :
    (dFinal R alg d).1.Shaped alg .finalized := by
  cases d with
  | rmd c => exact ⟨h.1, by simp, .finalized 64 _⟩
  | ext m => exact h

/-- GMAC's RESET and the context SETNONCE leaves keep its invariant (R215, R218, R219). -/
theorem gmacInit_inv (u : GmacUnit) (J0 : Block) (hp : u.phase ≠ .unkeyed) (h : u.Inv) :
    GmacUnit.Inv { gmacInit u with J0 := J0, phase := .active } :=
  ⟨fun h => (nomatch h), fun _ => h.keylen_valid hp, h.key_end, fun h => (nomatch h), by simp [gmacInit],
    .of_eq (fun h => nomatch h) rfl⟩

/-- ABSORB keeps GMAC's invariant (R220). -/
theorem gmacAbsorb_inv (u : GmacUnit) (data : List Byte) (hp : u.phase = .active) (h : u.Inv) :
    (gmacAbsorb u data).Inv := by
  have hq : (gmacAbsorb u data).phase = .active := hp
  have k := gmacAbsorb_counted u data h.fill_lt (h.counted.counted (by rw [hp]; decide))
  exact
    { unkeyed_zero := fun hu => absurd (hq.symm.trans hu) (by decide)
      keylen_valid := fun _ => h.keylen_valid (by rw [hp]; decide)
      key_end := h.key_end
      waiting := fun hw => absurd (hq.symm.trans hw) (by decide)
      fill_lt := k.1
      counted := .of_eq (by rw [hq]; decide) k.2 }

/-- A tag keeps GMAC's invariant (R216). -/
theorem gmacFinal_inv (E : Config.Cipher) (u : GmacUnit) (hp : u.phase ≠ .unkeyed) (h : u.Inv) :
    GmacUnit.Inv { (gmacFinal E u).1 with phase := .finalized } :=
  ⟨fun h => (nomatch h), fun _ => h.keylen_valid hp, h.key_end, fun h => (nomatch h), by simp [gmacFinal],
    .finalized 16 _⟩

end Sys2Proof.Machine
end

