-- ==== Sys2Proof/Laws/PerInstr.lean ====
section
/-! SUPPORT. Statements made constructor by constructor: the encoding of a well-formed command passes the boundary check
of 30_encoding.md R70. -/

namespace Sys2Proof.Laws.EncodedLen

open Sys2Proof

/-- The payload of an encoded command has exactly the length its word's LEN field says (R70, R76). -/
def Statement (i : Instr) : Prop :=
  i.wellFormed = true → hasLength (encode i).payload (lenField (encode i).word) = true

/-- A packed word's LEN field is the length of a payload that fits it. -/
theorem hasLength_packed (u o : BitVec 4) (a : BitVec 8) (p : List Byte) (h : fitsLen p = true) :
    hasLength p (lenField (packWord u o a (BitVec.ofNat 16 p.length))) = true := by
  rw [lenField_packWord, fitsLen_toNat p h, hasLength_iff]

theorem rmdReset : Statement .rmdReset :=
  fun _ => hasLength_packed _ _ _ [] rfl

theorem rmdAbsorb (data : List Byte) : Statement (.rmdAbsorb data) :=
  fun h => hasLength_packed _ _ _ data h

theorem rmdFinalize (cap : BitVec 8) : Statement (.rmdFinalize cap) :=
  fun _ => hasLength_packed _ _ _ [] rfl

theorem rmdCompute (cap : BitVec 8) (data : List Byte) : Statement (.rmdCompute cap data) :=
  fun h => hasLength_packed _ _ _ data h

theorem rmdZeroize : Statement .rmdZeroize :=
  fun _ => hasLength_packed _ _ _ [] rfl

theorem hmacReset : Statement .hmacReset :=
  fun _ => hasLength_packed _ _ _ [] rfl

theorem hmacSetkey (algIn algOut : BitVec 4) (key : List Byte) : Statement (.hmacSetkey algIn algOut key) :=
  fun h => hasLength_packed _ _ _ key h

theorem hmacAbsorb (data : List Byte) : Statement (.hmacAbsorb data) :=
  fun h => hasLength_packed _ _ _ data h

theorem hmacFinalize (cap : BitVec 8) : Statement (.hmacFinalize cap) :=
  fun _ => hasLength_packed _ _ _ [] rfl

theorem hmacCompute (cap : BitVec 8) (data : List Byte) : Statement (.hmacCompute cap data) :=
  fun h => hasLength_packed _ _ _ data h

theorem hmacVerify (tag : List Byte) : Statement (.hmacVerify tag) :=
  fun h => hasLength_packed _ _ _ tag h

theorem hmacZeroize : Statement .hmacZeroize :=
  fun _ => hasLength_packed _ _ _ [] rfl

theorem cmacReset : Statement .cmacReset :=
  fun _ => hasLength_packed _ _ _ [] rfl

theorem cmacSetkey (key : List Byte) : Statement (.cmacSetkey key) :=
  fun h => hasLength_packed _ _ _ key h

theorem cmacAbsorb (data : List Byte) : Statement (.cmacAbsorb data) :=
  fun h => hasLength_packed _ _ _ data h

theorem cmacFinalize (cap : BitVec 8) : Statement (.cmacFinalize cap) :=
  fun _ => hasLength_packed _ _ _ [] rfl

theorem cmacCompute (cap : BitVec 8) (data : List Byte) : Statement (.cmacCompute cap data) :=
  fun h => hasLength_packed _ _ _ data h

theorem cmacVerify (tag : List Byte) : Statement (.cmacVerify tag) :=
  fun h => hasLength_packed _ _ _ tag h

theorem cmacZeroize : Statement .cmacZeroize :=
  fun _ => hasLength_packed _ _ _ [] rfl

theorem gmacReset : Statement .gmacReset :=
  fun _ => hasLength_packed _ _ _ [] rfl

theorem gmacSetkey (key : List Byte) : Statement (.gmacSetkey key) :=
  fun h => hasLength_packed _ _ _ key h

theorem gmacSetnonce (nonce : List Byte) : Statement (.gmacSetnonce nonce) :=
  fun h => hasLength_packed _ _ _ nonce h

theorem gmacAbsorb (data : List Byte) : Statement (.gmacAbsorb data) :=
  fun h => hasLength_packed _ _ _ data h

theorem gmacFinalize (cap : BitVec 8) : Statement (.gmacFinalize cap) :=
  fun _ => hasLength_packed _ _ _ [] rfl

theorem gmacCompute (cap : BitVec 8) (data : List Byte) : Statement (.gmacCompute cap data) :=
  fun h => hasLength_packed _ _ _ data h

theorem gmacVerify (tag : List Byte) : Statement (.gmacVerify tag) :=
  fun h => hasLength_packed _ _ _ tag h

theorem gmacZeroize : Statement .gmacZeroize :=
  fun _ => hasLength_packed _ _ _ [] rfl

theorem p1305Reset : Statement .p1305Reset :=
  fun _ => hasLength_packed _ _ _ [] rfl

theorem p1305Setkey (key : List Byte) : Statement (.p1305Setkey key) :=
  fun h => hasLength_packed _ _ _ key h

theorem p1305Absorb (data : List Byte) : Statement (.p1305Absorb data) :=
  fun h => hasLength_packed _ _ _ data h

theorem p1305Finalize (cap : BitVec 8) : Statement (.p1305Finalize cap) :=
  fun _ => hasLength_packed _ _ _ [] rfl

theorem p1305Compute (cap : BitVec 8) (data : List Byte) : Statement (.p1305Compute cap data) :=
  fun h => hasLength_packed _ _ _ data h

theorem p1305Verify (tag : List Byte) : Statement (.p1305Verify tag) :=
  fun h => hasLength_packed _ _ _ tag h

theorem p1305Zeroize : Statement .p1305Zeroize :=
  fun _ => hasLength_packed _ _ _ [] rfl

end Sys2Proof.Laws.EncodedLen
end

