-- ==== Sys2Proof/Tests/Slice0.lean ====
section
/-! SUPPORT. Tests of the model, and a witness for the hypotheses of each statement. Expected values are those of
95_test_vectors.md and of the tables of 30_encoding.md, or were worked out by hand from the rules named. -/

namespace Sys2Proof.Tests

open Sys2Proof Sys2Proof.Machine

/-! ## Helpers -/

/-- The `n` bytes written as one hexadecimal number, first byte first. -/
def hx (n v : Nat) : List Byte := beBytes n v

/-- `rep(b, n)`. -/
def rep (b : Byte) (n : Nat) : List Byte := List.replicate n b

def abc : List Byte := hx 3 0x616263

def nextOf : Answer → Option State
  | .next t => some t
  | .fault _ | .refused _ => none

def errOf (a : Answer) : Option (BitVec 4) := (nextOf a).map State.err

def unitStateOf (a : Answer) : Option Word := (nextOf a).map State.unitStateWord

def outOf (a : Answer) : Option (BitVec 4 × BitVec 8 × List Byte) :=
  (nextOf a).map (fun t => (t.err, t.outlen, t.out.toList.take t.outlen.toNat))

/-- A command on the channel, in a state. -/
def run (word : Word) (payload : List Byte) (s : State) : Answer := step (s.present [⟨word, payload⟩])

/-! ## WellFormed refuses each ill-formed form -/

theorem test_wellFormed_refuses_long_absorb (d : List Byte) (h : d.length = 65536) :
    (Instr.rmdAbsorb d).wellFormed = false ∧ (Instr.hmacAbsorb d).wellFormed = false ∧
    (Instr.cmacAbsorb d).wellFormed = false ∧ (Instr.gmacAbsorb d).wellFormed = false ∧
    (Instr.p1305Absorb d).wellFormed = false := by
  simp [Instr.wellFormed, fitsLen, Config.lenMax, h]

theorem test_wellFormed_refuses_long_compute (cap : BitVec 8) (d : List Byte) (h : d.length = 65536) :
    (Instr.rmdCompute cap d).wellFormed = false ∧ (Instr.hmacCompute cap d).wellFormed = false ∧
    (Instr.cmacCompute cap d).wellFormed = false ∧ (Instr.gmacCompute cap d).wellFormed = false ∧
    (Instr.p1305Compute cap d).wellFormed = false := by
  simp [Instr.wellFormed, fitsLen, Config.lenMax, h]

theorem test_wellFormed_refuses_long_key_and_nonce (k : List Byte) (h : k.length = 65536) :
    (Instr.hmacSetkey 0 0 k).wellFormed = false ∧ (Instr.cmacSetkey k).wellFormed = false ∧
    (Instr.gmacSetkey k).wellFormed = false ∧ (Instr.p1305Setkey k).wellFormed = false ∧
    (Instr.gmacSetnonce k).wellFormed = false := by
  simp [Instr.wellFormed, fitsLen, Config.lenMax, h]

theorem test_wellFormed_refuses_long_tag (t : List Byte) (h : t.length = 65536) :
    (Instr.hmacVerify t).wellFormed = false ∧ (Instr.cmacVerify t).wellFormed = false ∧
    (Instr.gmacVerify t).wellFormed = false ∧ (Instr.p1305Verify t).wellFormed = false := by
  simp [Instr.wellFormed, fitsLen, Config.lenMax, h]

/-- The length of the ill-formed terms above is met, and LENMAX itself is well formed. -/
theorem test_wellFormed_boundary :
    (zeros 65536).length = 65536 ∧ (Instr.rmdAbsorb (zeros 65536)).wellFormed = false ∧
    (Instr.rmdAbsorb (zeros 65535)).wellFormed = true := by
  simp [Instr.wellFormed, fitsLen, Config.lenMax]

/-! ## Decoding: one word of every row of R74, UNIT[31:28] OP[27:24] ARG[23:16] LEN[15:0] written out -/

theorem test_decode_rmd :
    decode ⟨0x00000000, []⟩ = .ok .rmdReset ∧
    decode ⟨0x03000003, abc⟩ = .ok (.rmdAbsorb [0x61, 0x62, 0x63]) ∧
    decode ⟨0x04140000, []⟩ = .ok (.rmdFinalize 20) ∧
    decode ⟨0x05140003, abc⟩ = .ok (.rmdCompute 20 abc) ∧
    decode ⟨0x07000000, []⟩ = .ok .rmdZeroize := by decide +kernel

theorem test_decode_hmac :
    decode ⟨0x10000000, []⟩ = .ok .hmacReset ∧
    decode ⟨0x11250003, abc⟩ = .ok (.hmacSetkey 2 5 abc) ∧
    decode ⟨0x13000003, abc⟩ = .ok (.hmacAbsorb abc) ∧
    decode ⟨0x14ff0000, []⟩ = .ok (.hmacFinalize 255) ∧
    decode ⟨0x15200003, abc⟩ = .ok (.hmacCompute 32 abc) ∧
    decode ⟨0x16000003, abc⟩ = .ok (.hmacVerify abc) ∧
    decode ⟨0x17000000, []⟩ = .ok .hmacZeroize := by decide +kernel

theorem test_decode_cmac :
    decode ⟨0x20000000, []⟩ = .ok .cmacReset ∧
    decode ⟨0x21000010, zeros 16⟩ = .ok (.cmacSetkey (zeros 16)) ∧
    decode ⟨0x23000003, abc⟩ = .ok (.cmacAbsorb abc) ∧
    decode ⟨0x24100000, []⟩ = .ok (.cmacFinalize 16) ∧
    decode ⟨0x25100003, abc⟩ = .ok (.cmacCompute 16 abc) ∧
    decode ⟨0x2600000f, zeros 15⟩ = .ok (.cmacVerify (zeros 15)) ∧
    decode ⟨0x27000000, []⟩ = .ok .cmacZeroize := by decide +kernel

theorem test_decode_gmac :
    decode ⟨0x30000000, []⟩ = .ok .gmacReset ∧
    decode ⟨0x31000010, zeros 16⟩ = .ok (.gmacSetkey (zeros 16)) ∧
    decode ⟨0x3200000c, zeros 12⟩ = .ok (.gmacSetnonce (zeros 12)) ∧
    decode ⟨0x33000003, abc⟩ = .ok (.gmacAbsorb abc) ∧
    decode ⟨0x34100000, []⟩ = .ok (.gmacFinalize 16) ∧
    decode ⟨0x35100003, abc⟩ = .ok (.gmacCompute 16 abc) ∧
    decode ⟨0x36000003, abc⟩ = .ok (.gmacVerify abc) ∧
    decode ⟨0x37000000, []⟩ = .ok .gmacZeroize := by decide +kernel

theorem test_decode_p1305 :
    decode ⟨0x40000000, []⟩ = .ok .p1305Reset ∧
    decode ⟨0x41000003, abc⟩ = .ok (.p1305Setkey abc) ∧
    decode ⟨0x43000003, abc⟩ = .ok (.p1305Absorb abc) ∧
    decode ⟨0x44100000, []⟩ = .ok (.p1305Finalize 16) ∧
    decode ⟨0x45100003, abc⟩ = .ok (.p1305Compute 16 abc) ∧
    decode ⟨0x46000003, abc⟩ = .ok (.p1305Verify abc) ∧
    decode ⟨0x47000000, []⟩ = .ok .p1305Zeroize := by decide +kernel

/-- The illegal words of 95_test_vectors.md section 2.6. -/
theorem test_decode_illegal :
    decode ⟨0x08000000, []⟩ = .error .reservedOp ∧ decode ⟨0x50000000, []⟩ = .error .reservedUnit ∧
    decode ⟨0xF7000000, []⟩ = .error .reservedUnit ∧ decode ⟨0x01000000, []⟩ = .error .illegalPair ∧
    decode ⟨0x02000000, []⟩ = .error .illegalPair ∧ decode ⟨0x06000000, []⟩ = .error .illegalPair ∧
    decode ⟨0x12000000, []⟩ = .error .illegalPair ∧ decode ⟨0x22000000, []⟩ = .error .illegalPair ∧
    decode ⟨0x42000000, []⟩ = .error .illegalPair ∧ decode ⟨0x00010000, []⟩ = .error .argNotZero ∧
    decode ⟨0x03010000, []⟩ = .error .argNotZero ∧ decode ⟨0x21010010, zeros 16⟩ = .error .argNotZero ∧
    decode ⟨0x04000001, [0]⟩ = .error .lenNotZero ∧ decode ⟨0x07000004, zeros 4⟩ = .error .lenNotZero := by decide +kernel

/-- P6 of section 3, its last word: ILLEGAL, and everything else is the power-on state. -/
theorem test_illegal_changes_only_err :
    nextOf (run 0x22000000 [] State.reset) =
      some { State.reset with cmds := [⟨0x22000000, []⟩], pos := 1, err := 1 } := rfl

theorem test_encode_fields :
    encode (.hmacSetkey 0 1 (rep 0x0b 20)) = ⟨0x11010014, rep 0x0b 20⟩ ∧
    encode (.gmacFinalize 255) = ⟨0x34ff0000, []⟩ := by decide +kernel

/-- A row's word with the operand bits the table leaves free, through `decodeTableWord` and `withFetchWord`. -/
theorem test_table_word_runs :
    decodeTableWord 32 0x05140002 = some (.rmdCompute 20 [0, 0]) ∧
    errOf (step (State.reset.withFetchWord 32 0x41000020)) = some 0 ∧
    unitStateOf (step (State.reset.withFetchWord 32 0x41000020)) = some 0x00000202 := by decide +kernel

/-- 30_encoding.md R80's examples. -/
theorem test_assemble_examples :
    assemble ⟨.rmd, .absorb, none, none, some (.hex abc)⟩ = ⟨0x03000003, abc⟩ ∧
    assemble ⟨.rmd, .finalize, some 20, none, none⟩ = ⟨0x04140000, []⟩ ∧
    assemble ⟨.hmac, .setkey, none, some (0, 0), some (.rep 0x0b 20)⟩ = ⟨0x11000014, rep 0x0b 20⟩ := by decide +kernel

/-- R81: GMAC.CHECK of a short message, ABSORB_LONG of nothing, and the capacity of TAG. -/
theorem test_pseudo_expansions :
    unitCheck .gmac abc (zeros 16) = some [.gmacReset, .gmacAbsorb abc, .gmacVerify (zeros 16)] ∧
    absorbLong .cmac [] = [] ∧ unitTagOf .p1305 20 abc = [.p1305Compute 16 abc] ∧
    unitTagOf .hmac 20 abc = [.hmacCompute 20 abc] := by decide +kernel

/-! ## States the tests and the witnesses use -/

/-- A digest for tests only: the first 16 bytes, then the last 16 in reverse; block size 64, output size 32. -/
def toyDigest : Config.ExtDigest where
  B := 64
  L := 32
  hash := fun bs => (bs ++ zeros 16).take 16 ++ (bs.reverse ++ zeros 16).take 16
  one_le_L := by decide +kernel
  L_le_B := by decide +kernel
  B_le_bMax := by decide +kernel
  L_le_outMax := by decide +kernel
  hash_length := by intro bs; simp

/-- The test binding of 95_test_vectors.md: code 1 is a digest, every other code is unknown. -/
def toyRegistry : Config.Registry := fun a => if a = 1 then some toyDigest else none

/-- The values of `E(K, b)` that sections 2.3 and 1 state for the CMAC key K, at the blocks the rules give to E. -/
def cmacE : Config.Cipher := fun _ b =>
  if b = 0 then 0x7df76b0c1ab899b33e42f047b91b546f
  else if b = 0x6bc1bee22e409f96e93d7e117393172a then 0x3ad77bb40d7a3660a89ecaf32466ef97
  else if b = 0x80000000000000000000000000000000 ^^^ 0xf7ddac306ae266ccf90bc11ee46d513b then
    0xbb1d6929e95937287fa37d129b756746
  else if b = 0x6bc1bee22e409f96e93d7e117393172a ^^^ 0xfbeed618357133667c85e08f7236a8de then
    0x070a16b46b4d4144f79bdd9dd04a287c
  else 0

/-- The values of `E(zeros(16), b)` that section 2.4 states. -/
def gmacE : Config.Cipher := fun _ b =>
  if b = 0 then 0x66e94bd4ef8a2c3b884cfa59ca342b2e
  else if b = 1 then 0x58e2fccefa7e3061367f1d57a4e7455a
  else if b = 0x53372e053952b86cb4900bf71bae125d then 0x0712703b4d409545c62ad2b3d7a53873
  else 0

def M16 : List Byte := hx 16 0x6bc1bee22e409f96e93d7e117393172a

def K16 : List Byte := hx 16 0x2b7e151628aed2a6abf7158809cf4f3c

def KP : List Byte := hx 32 0x85d6be7857556d337f4452fe42d506a80103808afb0db2fd4abff6af4149f51b

/-- "Cryptographic Forum Research Group". -/
def CFRG : List Byte :=
  hx 16 0x43727970746f6772617068696320466f ++ hx 16 0x72756d2052657365617263682047726f ++ hx 2 0x7570

/-- A state with every unit ACTIVE, and keyed where it takes a key. -/
def keyed : State :=
  { State.reset with
    hmac := ⟨.active, 0, 64, 20, Vector.replicate 128 0, Vector.replicate 128 0, .rmd rmdInit⟩
    cmac := cmacKeyed Config.cipher (zeros 16)
    gmac := gmacNonced (gmacKeyed Config.cipher (zeros 16)) (zeros 12)
    p1305 := polyKeyed (zeros 32) }

/-- The same with every unit FINALIZED. -/
def finished : State :=
  { keyed with
    rmd := { keyed.rmd with phase := .finalized }
    hmac := { keyed.hmac with phase := .finalized }
    cmac := { keyed.cmac with phase := .finalized }
    gmac := { keyed.gmac with phase := .finalized }
    p1305 := { keyed.p1305 with phase := .finalized } }

/-! ## RMD -/

/-- Section 2.1: the words of the padded block of "abc". -/
theorem test_ripemd_words_abc :
    ripemdWords (abc ++ rmdTail 3 3) =
      [0x80636261, 0, 0, 0, 0, 0, 0, 0, 0, 0, 0, 0, 0, 0, 0x18, 0] := by decide +kernel

/-- Section 2.1: the left and the right line after steps 0 and 1. -/
theorem test_ripemd_trace_abc :
    (List.range 2).foldl (leftRound [0x80636261, 0, 0, 0, 0, 0, 0, 0, 0, 0, 0, 0, 0, 0, 0x18, 0]) ripemdIV =
      ⟨0x10325476, 0xb41192d5, 0x3115fc67, 0x36ae27bf, 0xeb73fa62⟩ ∧
    (List.range 2).foldl (rightRound [0x80636261, 0, 0, 0, 0, 0, 0, 0, 0, 0, 0, 0, 0, 0, 0x18, 0]) ripemdIV =
      ⟨0x10325476, 0x322e7ae3, 0xddd63fb8, 0x36ae27bf, 0xeb73fa62⟩ := by decide +kernel

/-- Section 2.1: the 55-byte and 56-byte padding boundary. -/
theorem test_ripemd_padding_boundary :
    (rmdTail 55 55).length = 9 ∧ (rmdTail 56 56).length = 72 ∧ (rmdTail 0 64).length = 64 ∧
    rmdTail 55 55 = 0x80 :: hx 8 0xb801000000000000 := by decide +kernel

/-- Section 2.1: after ABSORB rep(0x61, 56), h is still IV, fill = 56 and nbytes = 56; an empty ABSORB changes nothing. -/
theorem test_rmdAbsorb_buffers :
    nextOf (exec (.rmdAbsorb []) State.reset) = some State.reset ∧
    (nextOf (exec (.rmdAbsorb (rep 0x61 56)) State.reset)).map
      (fun t => (t.rmd.h, t.rmd.buf.fill, t.rmd.buf.pending, t.rmd.nbytes)) =
      some (ripemdIV, 56, rep 0x61 56, 56) := by decide +kernel

/-- Section 2.1: MSG_TOO_LONG on the constructed state, and the last length that fits. -/
theorem test_rmdAbsorb_maxmsg :
    let s := { State.reset with rmd := { State.reset.rmd with nbytes := BitVec.ofNat 61 (2 ^ 61 - 2) } }
    nextOf (exec (.rmdAbsorb [0x78, 0x79]) s) = some { s with err := 10 } ∧
    errOf (exec (.rmdAbsorb [0x78]) s) = some 0 := ⟨rfl, by decide +kernel⟩

/-- Section 1, item 2: RIPEMD-160 of "abc", streamed. -/
theorem test_rmdFinalize_abc :
    outOf (execAll [.rmdAbsorb abc, .rmdFinalize 20] State.reset) =
      some (0, 20, hx 20 0x8eb208f7e05d987a9b044a8e98c6b087f15a0bfc) := by decide +kernel

/-- P1, step 4: one byte of capacity too few changes nothing. -/
theorem test_rmdFinalize_cap19 :
    nextOf (exec (.rmdFinalize 19) State.reset) = some { State.reset with err := 5 } := rfl

/-- P1, step 9 and its end state: RIPEMD-160 of "" through COMPUTE. -/
theorem test_rmdCompute_empty :
    (nextOf (exec (.rmdCompute 20 []) finished)).map (fun t => (t.rmd, t.outlen, t.out.toList)) =
      some (⟨⟨⟨0xa585119c, 0x54fce9c5, 0x97082861, 0x48f5e87e, 0x318d25b2⟩, Buf.zero 64, 0⟩, .finalized⟩, 20,
        hx 20 0x9c1185a5c5e9fc54612808977ee8f548b2258d31 ++ zeros 44) := by decide +kernel

/-- Section 2.1: COMPUTE with cap 19 leaves the absorbed bytes in place. -/
theorem test_rmdCompute_cap19 :
    nextOf (exec (.rmdCompute 19 []) keyed) = some { keyed with err := 5 } := rfl

/-- P1, step 8. -/
theorem test_rmdReset_restarts :
    nextOf (exec .rmdReset { State.reset with rmd := ⟨⟨⟨1, 2, 3, 4, 5⟩, Buf.zero 64, 7⟩, .finalized⟩ }) =
      some State.reset := rfl

theorem test_rmdZeroize_goes_to_power_on :
    nextOf (exec .rmdZeroize { State.reset with err := 3, rmd := ⟨⟨⟨1, 2, 3, 4, 5⟩, Buf.zero 64, 7⟩, .finalized⟩ }) =
      some State.reset := rfl

/-! ## HMAC -/

/-- Section 2.2: the SETKEY errors, in their order, and what they leave. -/
theorem test_hmacSetkey_errors :
    hmacSetkey toyRegistry false 0 1 (rep 0x0b 20) State.reset = { State.reset with err := 4 } ∧
    hmacSetkey toyRegistry false 2 2 (rep 0x0b 20) State.reset = { State.reset with err := 3 } ∧
    hmacSetkey toyRegistry false 1 2 [] State.reset = { State.reset with err := 3 } ∧
    hmacSetkey toyRegistry false 0 1 [] State.reset = { State.reset with err := 4 } ∧
    hmacSetkey toyRegistry false 0 0 [] State.reset = { State.reset with err := 2 } := ⟨rfl, rfl, rfl, rfl, rfl⟩

/-- R171 to R174 over the test digest, by hand: 16 outer-pad bytes 0x0b xor 0x5c, then the last 16 bytes of
inner pad and message. -/
theorem test_hmac_over_external_digest :
    outOf (.next (computeShape (hmacShape toyRegistry) 32 (hx 8 0x4869205468657265)
      (hmacSetkey toyRegistry false 1 1 (rep 0x0b 20) State.reset))) =
      some (0, 32, rep 0x57 16 ++ rep 0x36 8 ++ hx 8 0x4869205468657265) := by decide +kernel

/-- R171: a key longer than B is replaced by its digest, a key of exactly B bytes is not. -/
theorem test_hmac_long_key :
    kPrime toyRegistry 1 64 (rep 0x01 64) = rep 0x01 64 ∧
    kPrime toyRegistry 1 64 (rep 0x01 65) = rep 0x01 32 ++ zeros 32 := by decide +kernel

/-- Section 2.2: with code 1, cap 31 is too small. -/
theorem test_hmacCompute_cap31 :
    (computeShape (hmacShape toyRegistry) 31 abc (hmacSetkey toyRegistry false 1 1 (rep 0x0b 20) State.reset)).err =
      5 := by decide +kernel

/-- P4 in small: ABSORB in two parts, then FINALIZE, then FINALIZE again. -/
theorem test_hmacFinalize_and_absorb :
    let s := absorbShape (hmacShape toyRegistry) (hx 5 0x5468657265)
      (absorbShape (hmacShape toyRegistry) (hx 3 0x486920)
        (hmacSetkey toyRegistry false 1 1 (rep 0x0b 20) State.reset))
    let t := finalizeShape (hmacShape toyRegistry) 32 s
    t.out.toList.take 32 = rep 0x57 16 ++ rep 0x36 8 ++ hx 8 0x4869205468657265 ∧ t.unitStateWord = 0x0000000e ∧
    finalizeShape (hmacShape toyRegistry) 32 t = { t with err := 6 } := by
  refine ⟨?_, ?_, rfl⟩ <;> decide +kernel

/-- Section 2.2: VERIFY answers OK, AUTH_FAIL on the last byte, and TAG_LENGTH with the unit still ACTIVE. -/
theorem test_hmacVerify_results :
    let s := absorbShape (hmacShape toyRegistry) (hx 8 0x4869205468657265)
      (hmacSetkey toyRegistry false 1 1 (rep 0x0b 20) State.reset)
    (verifyShape (hmacShape toyRegistry) (rep 0x57 16 ++ rep 0x36 8 ++ hx 8 0x4869205468657265) s).err = 0 ∧
    (verifyShape (hmacShape toyRegistry) (rep 0x57 16 ++ rep 0x36 8 ++ hx 8 0x4869205468657264) s).err = 9 ∧
    verifyShape (hmacShape toyRegistry) (zeros 31) s = { s with err := 8 } := by
  refine ⟨?_, ?_, rfl⟩ <;> decide +kernel

/-- Section 2.2: RESET keeps the key and drops the message. -/
theorem test_hmacReset_keeps_key :
    let s := hmacSetkey toyRegistry false 1 1 (rep 0x0b 20) State.reset
    resetShape (hmacShape toyRegistry) (absorbShape (hmacShape toyRegistry) abc s) = s ∧
    errOf (exec .hmacReset State.reset) = some 6 := ⟨rfl, rfl⟩

theorem test_hmacZeroize_clears :
    nextOf (exec .hmacZeroize { keyed with rmd := RmdUnit.zero }) = some { keyed with hmac := HmacUnit.zero } := rfl

/-! ## CMAC -/

/-- Section 2.3: DOUBLE's corner values. -/
theorem test_cmacDouble_corners :
    cmacDouble 0 = 0 ∧ cmacDouble 0x80000000000000000000000000000000 = 0x87 ∧ cmacDouble 1 = 2 ∧
    cmacDouble 0xffffffffffffffffffffffffffffffff = 0xffffffffffffffffffffffffffffff79 := by decide +kernel

/-- Section 2.3: the subkeys under K. -/
theorem test_cmacSetkey_subkeys :
    (cmacSetkey cmacE K16 State.reset).cmac =
      ⟨.active, 16, toArray 32 K16, 0xfbeed618357133667c85e08f7236a8de, 0xf7ddac306ae266ccf90bc11ee46d513b, 0,
        Buf.zero 16⟩ := by decide +kernel

/-- Section 2.3: SETKEY with 0, 15, 17, 31 or 33 bytes changes nothing. -/
theorem test_cmacSetkey_lengths :
    nextOf (exec (.cmacSetkey []) State.reset) = some { State.reset with err := 2 } ∧
    nextOf (exec (.cmacSetkey (zeros 15)) State.reset) = some { State.reset with err := 2 } ∧
    nextOf (exec (.cmacSetkey (zeros 17)) State.reset) = some { State.reset with err := 2 } ∧
    nextOf (exec (.cmacSetkey (zeros 31)) State.reset) = some { State.reset with err := 2 } ∧
    nextOf (exec (.cmacSetkey (zeros 33)) State.reset) = some { State.reset with err := 2 } :=
  ⟨rfl, rfl, rfl, rfl, rfl⟩

/-- Section 2.3, hold-back: after 16 bytes C = 0 and fill = 16; one byte more releases the block. -/
theorem test_cmacAbsorb_holds_back :
    let s := absorbShape (cmacShape cmacE) M16 (cmacSetkey cmacE K16 State.reset)
    (s.cmac.C, s.cmac.buf.fill) = (0, 16) ∧
    ((absorbShape (cmacShape cmacE) [0xae] s).cmac.C, (absorbShape (cmacShape cmacE) [0xae] s).cmac.buf.pending) =
      (0x3ad77bb40d7a3660a89ecaf32466ef97, [0xae]) := by decide +kernel

/-- P2, step 5: the K1 path. -/
theorem test_cmacFinalize_full_block :
    outOf (.next (finalizeShape (cmacShape cmacE) 16
      (absorbShape (cmacShape cmacE) M16 (cmacSetkey cmacE K16 State.reset)))) =
      some (0, 16, hx 16 0x070a16b46b4d4144f79bdd9dd04a287c) := by decide +kernel

/-- Section 2.3: capacity 4 on an ACTIVE and on an UNKEYED unit. -/
theorem test_cmacFinalize_errors :
    nextOf (exec (.cmacFinalize 4) keyed) = some { keyed with err := 5 } ∧
    nextOf (exec (.cmacFinalize 4) State.reset) = some { State.reset with err := 6 } := ⟨rfl, rfl⟩

/-- Section 1, item 3: the empty message, the K2 path. -/
theorem test_cmacCompute_empty :
    outOf (.next (computeShape (cmacShape cmacE) 16 [] (cmacSetkey cmacE K16 State.reset))) =
      some (0, 16, hx 16 0xbb1d6929e95937287fa37d129b756746) := by decide +kernel

/-- P2, steps 9 and 10: AUTH_FAIL, after which the right tag is INVALID_STATE. -/
theorem test_cmacVerify_flipped_bit :
    let s := absorbShape (cmacShape cmacE) M16 (cmacSetkey cmacE K16 State.reset)
    let t := verifyShape (cmacShape cmacE) (hx 16 0x070a16b46b4d4144f79bdd9dd04a287d) s
    t.err = 9 ∧ t.unitStateWord = 0x00000032 ∧ t.out = s.out ∧
    verifyShape (cmacShape cmacE) (hx 16 0x070a16b46b4d4144f79bdd9dd04a287c) t = { t with err := 6 } ∧
    (verifyShape (cmacShape cmacE) (hx 16 0x070a16b46b4d4144f79bdd9dd04a287c) s).err = 0 := by
  refine ⟨?_, ?_, ?_, rfl, ?_⟩ <;> decide +kernel

/-- Section 2.6: a 15-byte tag on an ACTIVE and on an UNKEYED unit. -/
theorem test_cmacVerify_errors :
    nextOf (exec (.cmacVerify (zeros 15)) keyed) = some { keyed with err := 8 } ∧
    nextOf (exec (.cmacVerify (zeros 15)) State.reset) = some { State.reset with err := 6 } := ⟨rfl, rfl⟩

/-- P2, step 6: RESET keeps key and subkeys and drops the held block. -/
theorem test_cmacReset_keeps_key :
    resetShape (cmacShape cmacE) (absorbShape (cmacShape cmacE) M16 (cmacSetkey cmacE K16 State.reset)) =
      cmacSetkey cmacE K16 State.reset ∧
    errOf (exec .cmacReset State.reset) = some 6 := by decide +kernel

theorem test_cmacZeroize_clears :
    nextOf (exec .cmacZeroize keyed) = some { keyed with cmac := CmacUnit.zero } ∧
    nextOf (exec .cmacZeroize State.reset) = some State.reset := ⟨rfl, rfl⟩

/-! ## GMAC -/

/-- Section 2.4: GFMUL's corner values. -/
theorem test_gfMul_corners :
    gfMul 0x0388dace60b6a392f328c2b971b2fe78 0x66e94bd4ef8a2c3b884cfa59ca342b2e =
      0x5e2ec746917062882c85b0685353deb7 ∧
    gfMul 0x40000000000000000000000000000000 0x00000000000000000000000000000001 =
      0xe1000000000000000000000000000000 ∧
    gfMul 1 1 = 0xe6080000000000000000000000000003 := by decide +kernel

/-- Section 2.4: J0 of a 12-byte and of an 8-byte nonce. -/
theorem test_gmacSetnonce_j0 :
    deriveJ0 0x66e94bd4ef8a2c3b884cfa59ca342b2e (zeros 12) = 1 ∧
    deriveJ0 0x66e94bd4ef8a2c3b884cfa59ca342b2e (zeros 8) = 0x53372e053952b86cb4900bf71bae125d := by decide +kernel

/-- P5, steps 5 and 6, and the same word on an UNKEYED unit. -/
theorem test_gmacSetnonce_errors :
    (let s := gmacSetkey gmacE (zeros 16) State.reset
     gmacSetnonce [] s = { s with err := 7 } ∧ (gmacSetnonce (zeros 12) s).unitStateWord = 0x00000082) ∧
    nextOf (exec (.gmacSetnonce []) State.reset) = some { State.reset with err := 6 } := by
  refine ⟨⟨rfl, ?_⟩, rfl⟩
  decide +kernel

/-- P5, step 2: SETKEY from any phase derives H, clears J0 and waits for a nonce. -/
theorem test_gmacSetkey_waits :
    let s := gmacSetkey gmacE (zeros 16) (gmacSetnonce (zeros 12) (gmacSetkey gmacE (zeros 16) State.reset))
    s.gmac = ⟨.nonceWait, 16, Vector.replicate 32 0, 0x66e94bd4ef8a2c3b884cfa59ca342b2e, 0, 0, Buf.zero 16, 0⟩ ∧
    s.unitStateWord = 0x00000042 := by decide +kernel

theorem test_gmacSetkey_length :
    nextOf (exec (.gmacSetkey (zeros 20)) State.reset) = some { State.reset with err := 2 } := rfl

/-- P5, steps 10 to 12: "ab" then "c", then VERIFY of the tag of "abc". -/
theorem test_gmacVerify_abc :
    let s := gmacSetnonce (zeros 12) (gmacSetkey gmacE (zeros 16) State.reset)
    let t := absorbShape (gmacShape gmacE) [0x63] (absorbShape (gmacShape gmacE) [0x61, 0x62] s)
    (verifyShape (gmacShape gmacE) (hx 16 0x258281014dcf7bc2eac3be27cc039fb4) t).err = 0 ∧
    (verifyShape (gmacShape gmacE) (hx 16 0x258281014dcf7bc2eac3be27cc039fb5) t).err = 9 := by decide +kernel

/-- P5, steps 1 and 3. -/
theorem test_gmacAbsorb_errors :
    nextOf (exec (.gmacAbsorb abc) State.reset) = some { State.reset with err := 6 } ∧
    (let s := gmacSetkey gmacE (zeros 16) State.reset
     absorbShape (gmacShape gmacE) abc s = { s with err := 6 }) := ⟨rfl, rfl⟩

/-- Section 2.4: the tag of zeros(17), two blocks, the second one partial. -/
theorem test_gmacCompute_two_blocks :
    outOf (.next (computeShape (gmacShape gmacE) 16 (zeros 17)
      (gmacSetnonce (zeros 12) (gmacSetkey gmacE (zeros 16) State.reset)))) =
      some (0, 16, hx 16 0xc750ea5e2e57d69071a074f6d669bd6a) := by decide +kernel

/-- Section 1, item 6: the empty message. -/
theorem test_gmacFinalize_empty :
    outOf (.next (finalizeShape (gmacShape gmacE) 16
      (gmacSetnonce (zeros 12) (gmacSetkey gmacE (zeros 16) State.reset)))) =
      some (0, 16, hx 16 0x58e2fccefa7e3061367f1d57a4e7455a) := by decide +kernel

/-- P5, steps 4 and 9: RESET waits for a nonce first, then keeps J0. -/
theorem test_gmacReset_keeps_nonce :
    let s := gmacSetnonce (zeros 12) (gmacSetkey gmacE (zeros 16) State.reset)
    resetShape (gmacShape gmacE) (absorbShape (gmacShape gmacE) abc s) = s ∧
    (resetShape (gmacShape gmacE) (gmacSetkey gmacE (zeros 16) State.reset)).err = 6 := ⟨rfl, rfl⟩

theorem test_gmacZeroize_clears :
    nextOf (exec .gmacZeroize keyed) = some { keyed with gmac := GmacUnit.zero } := rfl

/-! ## P1305 -/

/-- Section 2.5: r and s of KP, and the clamp of all ones. -/
theorem test_p1305Setkey_splits_key :
    (nextOf (exec (.p1305Setkey KP) State.reset)).map (fun t => (t.p1305.r, t.p1305.s)) =
      some (0x0806d5400e52447c036d555408bed685, 0x1bf54941aff6bf4afdb20dfb8a800301) ∧
    polyR (rep 0xff 32) = 0x0ffffffc0ffffffc0ffffffc0fffffff := by decide +kernel

/-- P3, step 1. -/
theorem test_p1305Setkey_length :
    nextOf (exec (.p1305Setkey (zeros 31)) State.reset) = some { State.reset with err := 2 } ∧
    nextOf (exec (.p1305Setkey (zeros 33)) State.reset) = some { State.reset with err := 2 } := ⟨rfl, rfl⟩

/-- P3, steps 3 and 4: h after each full block, and "up" pending. -/
theorem test_p1305Absorb_blocks :
    (nextOf (execAll [.p1305Setkey KP, .p1305Absorb (CFRG.take 16)] State.reset)).map
      (fun t => (t.p1305.h, t.p1305.buf.fill)) = some (0x2c88c77849d64ae9147ddeb88e69c83fc, 0) ∧
    (nextOf (execAll [.p1305Setkey KP, .p1305Absorb CFRG] State.reset)).map
      (fun t => (t.p1305.h, t.p1305.buf.pending)) =
      some (0x2d8adaf23b0337fa7cccfb4ea344b30de, [0x75, 0x70]) := by decide +kernel

/-- Section 1, item 5, and P3's end state. -/
theorem test_p1305Finalize_cfrg :
    outOf (execAll [.p1305Setkey KP, .p1305Absorb CFRG, .p1305Finalize 16] State.reset) =
      some (0, 16, hx 16 0xa8061dc1305136c6c22b8baf0c0127a9) ∧
    (nextOf (execAll [.p1305Setkey KP, .p1305Absorb CFRG, .p1305Finalize 16, .p1305Finalize 16] State.reset)).map
      (fun t => (t.err, t.p1305.h, t.p1305.buf)) =
      some (6, 0x28d31b7caff946c77c8844335369d03a7, Buf.zero 16) := by decide +kernel

/-- Section 2.5: the sum h + s wraps modulo 2^128. -/
theorem test_p1305Compute_wraps :
    outOf (execAll [.p1305Setkey (0x02 :: zeros 15 ++ rep 0xff 16), .p1305Compute 16 (0x02 :: zeros 15)] State.reset) =
      some (0, 16, 0x03 :: zeros 15) ∧
    outOf (execAll [.p1305Setkey (0x02 :: zeros 31), .p1305Compute 16 (rep 0xff 16)] State.reset) =
      some (0, 16, 0x03 :: zeros 15) := by decide +kernel

/-- Section 2.5: VERIFY after ABSORB CFRG, and on an UNKEYED unit. -/
theorem test_p1305Verify_cfrg :
    errOf (execAll [.p1305Setkey KP, .p1305Absorb CFRG, .p1305Verify (hx 16 0xa8061dc1305136c6c22b8baf0c0127a9)]
      State.reset) = some 0 ∧
    errOf (exec (.p1305Verify (zeros 16)) State.reset) = some 6 := by decide +kernel

theorem test_p1305Reset_keeps_key :
    nextOf (execAll [.p1305Setkey KP, .p1305Absorb abc, .p1305Reset] State.reset) =
      nextOf (exec (.p1305Setkey KP) State.reset) ∧
    errOf (exec .p1305Reset State.reset) = some 6 := ⟨rfl, rfl⟩

theorem test_p1305Zeroize_clears :
    nextOf (execAll [.p1305Setkey KP, .p1305Absorb abc, .p1305Zeroize] State.reset) = some State.reset := rfl

/-! ## The read port -/

/-- Section 2.6: a 20-byte result as the host reads it. -/
theorem test_readPort_words :
    let s := { State.reset with
      out := overlay State.reset.out (hx 20 0x8576c67fcdf6c5d2f648efa58a32856b957f401a), outlen := 20
      rmd := { State.reset.rmd with phase := .finalized } }
    readPort s 0x000 = .ok 0 ∧ readPort s 0x004 = .ok 3 ∧ readPort s 0x008 = .ok 0x14 ∧ readPort s 0x00C = .ok 0 ∧
    readPort s 0x040 = .ok 0x7fc67685 ∧ readPort s 0x044 = .ok 0xd2c5f6cd ∧ readPort s 0x050 = .ok 0x1a407f95 ∧
    readPort s 0x054 = .ok 0 ∧ readPort s 0x07C = .ok 0 ∧ readPort s 0x002 = .error .readMisaligned ∧
    readPort s 0x1000 = .error .readBeyondMap := by decide +kernel

/-- 70_reset_and_hazards.md R286: a 16-byte tag leaves bytes 16 to 19 of an earlier digest. -/
theorem test_overlay_keeps_the_rest :
    (overlay (overlay (Vector.replicate 64 0) (rep 0xaa 20)) (rep 0xbb 16)).toList =
      rep 0xbb 16 ++ rep 0xaa 4 ++ zeros 44 := by decide +kernel

/-! ## Witnesses: for each statement with hypotheses, inputs that meet them, clause by clause -/

theorem witness_DecodeOfEncodeIsSame :
    (Instr.hmacSetkey 15 0 [1]).wellFormed = true ∧ (Instr.gmacVerify (zeros 65535)).wellFormed = true := by
  simp [Instr.wellFormed, fitsLen, Config.lenMax]

theorem witness_EncodeOfDecodeIsSame : decode ⟨0x41000000, []⟩ = .ok (.p1305Setkey []) := by decide

/-- A legal and an illegal word, each with its payload. -/
theorem witness_WordIsLegalIffExactlyOneRowCovers :
    ([] : List Byte).length = lenField 0x47000000 ∧ decode ⟨0x47000000, []⟩ = .ok .p1305Zeroize ∧
    [(7 : Byte)].length = lenField 0xff000001 ∧ decode ⟨0xff000001, [7]⟩ = .error .reservedUnit := by decide

theorem witness_IllegalWordRaisesIllegalOnly :
    ([] : List Byte).length = lenField 0xF7000000 ∧ decode ⟨0xF7000000, []⟩ = .error .reservedUnit := by decide

theorem witness_LengthMismatchIsRefused :
    (State.reset.present [⟨0x03000003, [1, 2]⟩]).cmds[0]? = some ⟨0x03000003, [1, 2]⟩ ∧
    (State.reset.present [⟨0x03000003, [1, 2]⟩]).pos = 0 ∧ [(1 : Byte), 2].length ≠ lenField 0x03000003 := by decide

theorem witness_StepRunsDecodedCommand :
    (State.reset.present [⟨0x40000000, []⟩]).cmds[0]? = some ⟨0x40000000, []⟩ ∧
    (State.reset.present [⟨0x40000000, []⟩]).pos = 0 ∧ decode ⟨0x40000000, []⟩ = .ok .p1305Reset := by decide

/-- A command that succeeds and one that reports an error; both step. -/
theorem witness_StepAdvancesPositionByOne :
    (nextOf (run 0x07000000 [] State.reset)).map (fun t => (t.pos, t.err)) = some (1, 0) ∧
    (nextOf (run 0x40000000 [] State.reset)).map (fun t => (t.pos, t.err)) = some (1, 6) := ⟨rfl, rfl⟩

theorem witness_IdleStepHoldsState :
    State.reset.cmds[State.reset.pos]? = none ∧
    ({ State.reset with cmds := [⟨0x07000000, []⟩], pos := 1 } : State).cmds[1]? = none := ⟨rfl, rfl⟩

theorem witness_WithFetchWordRunsTableWord :
    decodeTableWord 32 0x21000010 = some (.cmacSetkey (zeros 16)) ∧
    decodeTableWord 32 0x40000000 = some .p1305Reset := by decide

/-! ### The keyed states meet the invariants -/

theorem keyed_inv : keyed.Inv where
  err_le := by decide
  outlen_le := by decide
  rmd := ⟨.inl rfl, by decide, fun _ => rfl, fun h => nomatch h⟩
  hmac :=
    { phase_legal := fun h => nomatch h
      unkeyed_zero := fun h => nomatch h
      bound := fun _ => rfl
      shaped := ⟨rfl, by decide, fun _ => rfl, fun h => nomatch h⟩
      pads_end := by intro i h _; simp [keyed] }
  cmac :=
    { phase_legal := fun h => nomatch h
      unkeyed_zero := fun h => nomatch h
      keylen_valid := by simp [keyed, cmacKeyed]
      key_end := fun i h hi => toArray_getElem_zero 32 (zeros 16) i h (by simpa [keyed, cmacKeyed] using hi)
      fill_le := by simp [keyed, cmacKeyed] }
  gmac :=
    { unkeyed_zero := fun h => nomatch h
      keylen_valid := by simp [keyed, gmacNonced, gmacInit, gmacKeyed]
      key_end := fun i h hi =>
        toArray_getElem_zero 32 (zeros 16) i h (by simpa [keyed, gmacNonced, gmacInit, gmacKeyed] using hi)
      waiting := fun h => nomatch h
      fill_lt := by simp [keyed, gmacNonced, gmacInit]
      counted := ⟨fun _ => rfl, fun h => nomatch h⟩ }
  p1305 :=
    { phase_legal := fun h => nomatch h
      unkeyed_zero := fun h => nomatch h
      clamped := polyR_clamped _
      h_lt := by simp [keyed, polyKeyed, polyP]
      fill_lt := by simp [keyed, polyKeyed] }

theorem finished_inv : finished.Inv where
  err_le := keyed_inv.err_le
  outlen_le := keyed_inv.outlen_le
  rmd := ⟨.inr rfl, keyed_inv.rmd.fill_lt, fun h => absurd rfl h, fun _ => rfl⟩
  hmac :=
    { phase_legal := fun h => nomatch h
      unkeyed_zero := fun h => nomatch h
      bound := fun _ => rfl
      shaped := ⟨rfl, by decide, fun h => absurd rfl h, fun _ => rfl⟩
      pads_end := keyed_inv.hmac.pads_end }
  cmac :=
    { phase_legal := fun h => nomatch h
      unkeyed_zero := fun h => nomatch h
      keylen_valid := fun _ => keyed_inv.cmac.keylen_valid (fun h => nomatch h)
      key_end := keyed_inv.cmac.key_end
      fill_le := keyed_inv.cmac.fill_le }
  gmac :=
    { unkeyed_zero := fun h => nomatch h
      keylen_valid := fun _ => keyed_inv.gmac.keylen_valid (fun h => nomatch h)
      key_end := keyed_inv.gmac.key_end
      waiting := fun h => nomatch h
      fill_lt := keyed_inv.gmac.fill_lt
      counted := ⟨fun h => absurd rfl h, fun _ => rfl⟩ }
  p1305 :=
    { phase_legal := fun h => nomatch h
      unkeyed_zero := fun h => nomatch h
      clamped := keyed_inv.p1305.clamped
      h_lt := keyed_inv.p1305.h_lt
      fill_lt := keyed_inv.p1305.fill_lt }

theorem keyed_subkeysMatch : keyed.SubkeysMatch Config.cipher where
  cmac := by
    intro _
    have h : keyed.cmac.cipherKey = zeros 16 := cmacKeyed_cipherKey Config.cipher (zeros 16) (by simp)
    simp only [h]
    simp only [keyed, cmacKeyed]
  gmac := by
    intro _
    have h : keyed.gmac.cipherKey = zeros 16 := gmacKeyed_cipherKey Config.cipher (zeros 16) (by simp)
    simp only [h]
    simp only [keyed, gmacNonced, gmacInit, gmacKeyed]

/-- The invariants do not read the host's channel. -/
theorem inv_present (s : State) (cs : List Command) (h : s.Inv) : (s.present cs).Inv :=
  ⟨h.err_le, h.outlen_le, h.rmd, h.hmac, h.cmac, h.gmac, h.p1305⟩

theorem witness_StepKeepsInvariant :
    (keyed.present [⟨0x43000001, [9]⟩]).Inv ∧ ∃ t, step (keyed.present [⟨0x43000001, [9]⟩]) = .next t :=
  ⟨inv_present _ _ keyed_inv, _, rfl⟩

theorem witness_StepKeepsSubkeysMatch :
    (keyed.present [⟨0x20000000, []⟩]).Inv ∧ (keyed.present [⟨0x20000000, []⟩]).SubkeysMatch Config.cipher ∧
    ∃ t, step (keyed.present [⟨0x20000000, []⟩]) = .next t :=
  ⟨inv_present _ _ keyed_inv, ⟨keyed_subkeysMatch.cmac, keyed_subkeysMatch.gmac⟩, _, rfl⟩

/-! ### Errors and phases -/

/-- A raise, and VERIFY's AUTH_FAIL: the zero key's tag is zero, the tag given is not. -/
theorem witness_RaisedCommandChangesOnlyErr :
    errOf (issue ⟨0x24040000, []⟩ State.reset) = some 6 ∧
    errOf (issue ⟨0x46000010, 1 :: zeros 15⟩ keyed) = some 9 := by decide +kernel

/-- No cause, one cause, and two causes of which the second loses. -/
theorem witness_ErrorReportedIsFirstInPriority :
    keyed.Inv ∧ (∃ t, issue ⟨0x40000000, []⟩ keyed = .next t) ∧ (∃ t, issue ⟨0x2600000f, zeros 15⟩ keyed = .next t) ∧
    finished.Inv ∧ ∃ t, issue ⟨0x24040000, []⟩ finished = .next t :=
  ⟨keyed_inv, ⟨_, rfl⟩, ⟨_, rfl⟩, finished_inv, _, rfl⟩

/-- An INVALID_STATE cell, a cell reached with OK, and one reached with AUTH_FAIL. -/
theorem witness_PhaseTableHolds :
    lifecycle .gmac .reset .nonceWait = .invalidState ∧
    lifecycle .rmd .reset .finalized = .to .active ∧ errOf (exec .rmdReset finished) = some 0 ∧
    lifecycle .p1305 .verify .active = .to .finalized ∧
    errOf (exec (.p1305Verify (1 :: zeros 15)) keyed) = some 9 := by decide +kernel

theorem witness_CommandTouchesOnlyItsUnit : ∃ t, exec (.cmacAbsorb abc) keyed = .next t := ⟨_, rfl⟩

/-- Two states that agree on the addressed unit alone. -/
theorem witness_CommandReadsOnlyItsUnit :
    sameUnit Instr.p1305Reset.unit keyed { State.reset with p1305 := keyed.p1305 } ∧
    (∃ t, exec .p1305Reset keyed = .next t) ∧
    (∃ t, exec .p1305Reset { State.reset with p1305 := keyed.p1305 } = .next t) ∧
    keyed.out = State.reset.out ∧ keyed.outlen = State.reset.outlen := ⟨rfl, ⟨_, rfl⟩, ⟨_, rfl⟩, rfl, rfl⟩

theorem witness_UnitDependsOnOwnCommandsOnly :
    (∃ t, execAll [.rmdAbsorb abc, .cmacReset, .p1305Absorb abc] keyed = .next t) ∧
    [Instr.rmdAbsorb abc, .cmacReset, .p1305Absorb abc].filter (fun i => i.unit = .p1305) = [.p1305Absorb abc] ∧
    ∃ t, execAll [.p1305Absorb abc] keyed = .next t := ⟨⟨_, rfl⟩, rfl, _, rfl⟩

theorem witness_DisjointHostsDoNotInterfere :
    Interleaves [.rmdReset, .rmdAbsorb abc] [.cmacReset] [Instr.rmdReset, .cmacReset, .rmdAbsorb abc] ∧
    (∀ i ∈ [Instr.cmacReset], i.unit ≠ .rmd) ∧
    (∃ t, execAll [Instr.rmdReset, .cmacReset, .rmdAbsorb abc] keyed = .next t) ∧
    ∃ t, execAll [.rmdReset, .rmdAbsorb abc] keyed = .next t :=
  ⟨.left _ (.right _ (.left _ .done)), by simp [Instr.unit], ⟨_, rfl⟩, _, rfl⟩

/-- A command of another operation, a FINALIZE that fails, and one that succeeds with byte 16 beyond its result. -/
theorem witness_OnlyFinalizeAndComputeWriteOut :
    keyed.Inv ∧ (∃ t, exec .rmdReset keyed = .next t) ∧ errOf (exec (.p1305Finalize 15) keyed) = some 5 ∧
    errOf (exec (.p1305Finalize 16) keyed) = some 0 ∧ keyed.outSizeOf .p1305 = 16 :=
  ⟨keyed_inv, ⟨_, rfl⟩, rfl, rfl, rfl⟩

/-! ### The read port -/

/-- The ends of each range of offsets. -/
theorem witness_ReadPortFollowsMap :
    (0 < 16 ∧ 15 < 16) ∧
    (∀ n ∈ [0x00C, 0x03C, 0x080, 0xFFC], n % 4 = 0 ∧ (0x00C ≤ n ∧ n < 0x040 ∨ 0x080 ≤ n ∧ n < 0x1000)) ∧
    (0x001 % 4 ≠ 0 ∧ 0x1001 % 4 ≠ 0) ∧ (0x1000 % 4 = 0 ∧ 0x1000 ≤ 0x1000) := by decide

theorem witness_UnitStateHoldsPhases : 10 ≤ 10 ∧ 10 ≤ 31 := by decide

/-- Two states with different keys that show the host the same. -/
theorem witness_ReadPortShowsOnlyPublicState :
    samePublic keyed { keyed with p1305 := polyKeyed KP } ∧ polyS KP ≠ polyS (zeros 32) := by
  refine ⟨⟨rfl, rfl, rfl, fun u => ?_⟩, by decide +kernel⟩
  cases u <;> rfl

/-! ### The shared engines -/

/-- The matching tag and a tag that differs in its last byte. -/
theorem witness_VerifyDependsOnlyOnMatch :
    keyed.Inv ∧ verifyInstr .p1305 (zeros 16) = some (.p1305Verify (zeros 16)) ∧
    verifyInstr .p1305 (zeros 15 ++ [1]) = some (.p1305Verify (zeros 15 ++ [1])) ∧
    keyed.phaseOf .p1305 = .active ∧ (zeros 16).length = keyed.outSizeOf .p1305 ∧
    (zeros 15 ++ [1]).length = keyed.outSizeOf .p1305 ∧ keyed.resultOf .p1305 = zeros 16 ∧
    (zeros 15 ++ [1] ≠ keyed.resultOf .p1305) ∧ (1 :: zeros 15 ≠ keyed.resultOf .p1305) :=
  ⟨keyed_inv, rfl, rfl, rfl, rfl, rfl, by decide +kernel, by decide +kernel, by decide +kernel⟩

theorem witness_ChunkedAbsorbEqualsWhole :
    [[0x61], [], [0x62, 0x63]] ≠ ([] : List (List Byte)) ∧
    errOf (exec (absorbInstr .gmac [[0x61], [], [0x62, 0x63]].flatten) keyed) = some 0 := ⟨by decide, rfl⟩

/-- A buffer one byte short of full, and a payload that completes it and three more blocks. -/
theorem witness_EagerAbsorbEqualsBlockForm : (⟨Vector.replicate 16 0, 15⟩ : Buf 16).fill < 16 := by decide

/-- A full held block and one more byte. -/
theorem witness_HoldbackKeepsLastBlock :
    (⟨Vector.replicate 16 0, 16⟩ : Buf 16).fill ≤ 16 ∧ [(1 : Byte)] ≠ [] := by decide

theorem witness_StreamEqualsCompute :
    (finished.phaseOf .hmac).isKeyed = true ∧ (keyed.phaseOf .rmd).isKeyed = true ∧
    finished.outSizeOf .hmac ≤ (20 : BitVec 8).toNat ∧ [abc, [], abc].flatten.length ≤ Config.lenMax := by decide

theorem witness_AbsorbLongEqualsAbsorb :
    abc ≠ [] ∧ errOf (exec (absorbInstr .cmac abc) keyed) = some 0 := ⟨by decide, rfl⟩

/-! ### The algorithms and where the commands complete -/

theorem witness_RmdComputeGivesRipemd160 :
    State.reset.rmd.phase = .active ∧ finished.rmd.phase = .finalized ∧ 20 ≤ (20 : BitVec 8).toNat ∧
    (zeros 65535).length ≤ 65535 := ⟨rfl, rfl, by decide, by simp⟩

theorem witness_HmacComputeGivesHmac :
    keyed.hmac.phase = .active ∧ finished.hmac.phase = .finalized ∧ keyed.hmac.L ≤ (20 : BitVec 8).toNat ∧
    (zeros 65535).length ≤ 65535 := ⟨rfl, rfl, by decide, by simp⟩

theorem witness_CmacComputeGivesCmac :
    keyed.SubkeysMatch Config.cipher ∧ keyed.cmac.phase = .active ∧ finished.cmac.phase = .finalized ∧
    16 ≤ (16 : BitVec 8).toNat := ⟨keyed_subkeysMatch, rfl, rfl, by decide⟩

theorem witness_GmacComputeGivesGmac :
    keyed.gmac.phase = .active ∧ finished.gmac.phase = .finalized ∧ 16 ≤ (16 : BitVec 8).toNat ∧
    (zeros 65535).length ≤ 65535 := ⟨rfl, rfl, by decide, by simp⟩

theorem witness_PolyComputeGivesPoly1305 :
    keyed.p1305.phase = .active ∧ finished.p1305.phase = .finalized ∧ 16 ≤ (16 : BitVec 8).toNat :=
  ⟨rfl, rfl, by decide⟩

/-- RESET's two phases, for every unit. -/
theorem witness_ResetCompletes :
    ∀ u, keyed.phaseOf u = .active ∧ finished.phaseOf u = .finalized := by
  intro u
  cases u <;> exact ⟨rfl, rfl⟩

/-- Each clause of ABSORB: a count that a one-byte payload brings to MAXMSG, and HMAC's two forms. -/
theorem witness_AbsorbCompletes :
    (let n : BitVec 61 := BitVec.ofNat 61 (2 ^ 61 - 2)
     n.toNat + [(9 : Byte)].length ≤ 2 ^ 61 - 1) ∧
    (keyed.rmd.phase = .active ∧ keyed.hmac.phase = .active ∧ keyed.hmac.alg = 0 ∧ keyed.hmac.inner = .rmd rmdInit ∧
      keyed.cmac.phase = .active ∧ keyed.gmac.phase = .active ∧ keyed.p1305.phase = .active) ∧
    (hmacSetkey toyRegistry false 1 1 abc State.reset).hmac.phase = .active ∧
    (hmacSetkey toyRegistry false 1 1 abc State.reset).hmac.inner =
      .ext ([0x57, 0x54, 0x55] ++ rep 0x36 61) :=
  ⟨by decide, ⟨rfl, rfl, rfl, rfl, rfl, rfl, rfl⟩, by decide +kernel, by decide +kernel⟩

theorem witness_FinalizeCompletes :
    (∀ u, keyed.phaseOf u = .active) ∧ 20 ≤ (20 : BitVec 8).toNat ∧ keyed.hmac.L ≤ (20 : BitVec 8).toNat ∧
    16 ≤ (16 : BitVec 8).toNat := by
  refine ⟨fun u => ?_, by decide⟩
  cases u <;> rfl

theorem witness_VerifyCompletes :
    keyed.Inv ∧ (∀ u, keyed.phaseOf u = .active) ∧ (zeros 20).length = keyed.hmac.L ∧ (zeros 16).length = 16 := by
  refine ⟨keyed_inv, fun u => ?_, by decide⟩
  cases u <;> rfl

/-- The digest of code 0, with a one-byte key and with the empty key where it is allowed. -/
theorem witness_HmacSetkeyCompletes :
    digestDesc Config.extDigest 0 = some (64, 20) ∧ ([(1 : Byte)] ≠ [] ∨ Config.hmacEmptyKey = true) ∧
    (zeros 65535).length ≤ 65535 := ⟨rfl, .inl (by decide), by simp⟩

theorem witness_CmacSetkeyCompletes :
    (zeros 16).length = 16 ∧ (zeros 24).length = 24 ∧ (zeros 32).length = 32 := by decide

theorem witness_GmacSetkeyAndSetnonceComplete :
    (zeros 16).length = 16 ∧ (zeros 24).length = 24 ∧ (zeros 32).length = 32 ∧
    (gmacKeyed Config.cipher (zeros 16)).phase ≠ .unkeyed ∧ [(0 : Byte)] ≠ [] := by
  refine ⟨rfl, rfl, rfl, ?_, by decide⟩
  exact fun h => nomatch h

theorem witness_PolySetkeyCompletes : KP.length = 32 := by decide

theorem witness_PolyKeyIsSplitAndClamped : (rep 0xff 32).length = 32 ∧ 0 < 128 ∧ 127 < 128 := by decide

theorem witness_PolyZeroKeyGivesZeroTag :
    16 ≤ (16 : BitVec 8).toNat ∧ ∃ t, execAll [.p1305Setkey (zeros 32), .p1305Compute 16 abc] State.reset = .next t :=
  ⟨by decide, _, rfl⟩

/-- The 12-byte nonce, and nonces on both sides of it, of one byte, of whole blocks and past one block. -/
theorem witness_TwelveByteNonceIsDirect :
    (zeros 12).length = 12 ∧ (∀ n ∈ [1, 11, 13, 16, 17], (zeros n).length ≠ 12) ∧
    (zeros 11 ++ zeros ((16 - (zeros 11).length % 16) % 16) ++ zeros 8 ++ beBytes 8 (8 * (zeros 11).length)).length = 32 ∧
    (zeros 13 ++ zeros ((16 - (zeros 13).length % 16) % 16) ++ zeros 8 ++ beBytes 8 (8 * (zeros 13).length)).length = 32 :=
  by decide

/-- The first and the last power of x that has a next one. -/
theorem witness_GfMulIdentityAndZero : 0 < 127 ∧ 126 < 127 := by decide

theorem witness_RipemdPaddingFillsWholeBlocks :
    ∀ n ∈ [0, 55, 56, 63], (⟨ripemdIV, ⟨Vector.replicate 64 0, n⟩, BitVec.ofNat 61 n⟩ : RmdCtx).buf.fill < 64 := by
  decide

end Sys2Proof.Tests
end

/-! # Family 10_state.md: how a command ends, the command index, and the result registers

`exec_ending` says once what a command can leave in the registers that no unit owns (STATUS.ERR, OUTLEN, OUT and the
host's channel): it raises, or it changes contexts only, or it produces a result. The two obligations are read off it. -/

namespace Sys2Proof.Machine

/-! ## The fields that no unit owns -/

/-- `t` differs from `s` in the unit contexts at most. -/
structure SameRegisters (s t : State) : Prop where
  cmds : t.cmds = s.cmds
  pos : t.pos = s.pos
  err : t.err = s.err
  outlen : t.outlen = s.outlen
  out : t.out = s.out

theorem setRmd_sameRegisters (s : State) (c : RmdUnit) : SameRegisters s (s.setRmd c) := ⟨rfl, rfl, rfl, rfl, rfl⟩

theorem setHmac_sameRegisters (s : State) (c : HmacUnit) : SameRegisters s (s.setHmac c) := ⟨rfl, rfl, rfl, rfl, rfl⟩

theorem setCmac_sameRegisters (s : State) (c : CmacUnit) : SameRegisters s (s.setCmac c) := ⟨rfl, rfl, rfl, rfl, rfl⟩

theorem setGmac_sameRegisters (s : State) (c : GmacUnit) : SameRegisters s (s.setGmac c) := ⟨rfl, rfl, rfl, rfl, rfl⟩

theorem setP1305_sameRegisters (s : State) (c : PolyUnit) : SameRegisters s (s.setP1305 c) := ⟨rfl, rfl, rfl, rfl, rfl⟩

/-- OK is the only code with value 0 (60_exceptions.md R251). -/
theorem errValue_eq_zero_iff (c : ErrCode) : errValue c = 0 ↔ c = .ok := by cases c <;> decide

/-! ## How a command ends -/

/-- The three ways operation `o` of unit `u` can end in state `s` (40_contract_and_buffer.md R100 to R109): it raises an
error (R253); it updates contexts and is no FINALIZE or COMPUTE; or it is one of these two and writes a result, which
has `L_u` bytes where the invariant holds (R106, R107). -/
inductive Ending (u : UnitId) (o : OpId) (s : State) : State → Prop where
  | raised (c : ErrCode) (hc : c ≠ .ok) : Ending u o s (s.raise c)
  | updated (s' : State) (hs : SameRegisters s s') (c : ErrCode) (ho : o ≠ .finalize ∧ o ≠ .compute) :
      Ending u o s (s'.setErr c)
  | produced (s' : State) (hs : SameRegisters s s') (T : List Byte) (ho : o = .finalize ∨ o = .compute)
      (hT : s.Inv → T.length = s.outSizeOf u) : Ending u o s (s'.writeResult T (s.outSizeOf u)).succeed

/-- No command writes the host's sequence or the position in it (10_state.md R22). -/
theorem Ending.channel {u : UnitId} {o : OpId} {s t : State} (h : Ending u o s t) : t.cmds = s.cmds ∧ t.pos = s.pos := by
  cases h with
  | raised => exact ⟨rfl, rfl⟩
  | updated _ hs => exact ⟨hs.cmds, hs.pos⟩
  | produced _ hs => exact ⟨hs.cmds, hs.pos⟩

/-- The pieces `U` are those of unit `u`: `put` stays within the contexts, `L_u` is the output size, a restart keeps it,
and in a keyed phase the result of the message so far, or of a restarted one, has that many bytes. -/
structure UnitShape.Serves {C : Type} (U : UnitShape C) (u : UnitId) : Prop where
  put : ∀ s c, SameRegisters s (U.put s c)
  outSize : ∀ s, U.outSize (U.get s) = s.outSizeOf u
  outSize_restart : ∀ c data, U.outSize (U.absorb (U.init c) data) = U.outSize c
  length : ∀ s, s.Inv → (U.phase (U.get s)).isKeyed = true →
    (U.final (U.get s)).2.length = s.outSizeOf u
  length_restart : ∀ s data, s.Inv → (U.phase (U.get s)).isKeyed = true →
    (U.final (U.absorb (U.init (U.get s)) data)).2.length = s.outSizeOf u

section Shapes

variable {C : Type} {U : UnitShape C} {u : UnitId} (hU : U.Serves u) (s : State)
include hU

theorem resetShape_ending : Ending u .reset s (resetShape U s) := by
  obtain ⟨-, h⟩ | ⟨-, h⟩ := resetShape_cases U s <;> rw [h]
  · exact .updated _ (hU.put _ _) .ok (by decide)
  · exact .raised _ (by decide)

theorem absorbShape_ending (data : List Byte) : Ending u .absorb s (absorbShape U data s) := by
  obtain ⟨-, h⟩ | ⟨-, -, h⟩ | ⟨-, -, h⟩ := absorbShape_cases U s data <;> rw [h]
  · exact .raised _ (by decide)
  · exact .raised _ (by decide)
  · exact .updated _ (hU.put _ _) .ok (by decide)

theorem verifyShape_ending (tag : List Byte) : Ending u .verify s (verifyShape U tag s) := by
  obtain ⟨-, h⟩ | ⟨-, -, h⟩ | ⟨-, -, h⟩ := verifyShape_cases U s tag <;> rw [h]
  · exact .raised _ (by decide)
  · exact .raised _ (by decide)
  · exact .updated _ (hU.put _ _) _ (by decide)

theorem zeroizeShape_ending : Ending u .zeroize s (zeroizeShape U s) := .updated _ (hU.put _ _) .ok (by decide)

/-- The common end of FINALIZE and COMPUTE, for a context whose output size and result length are the unit's. -/
theorem produce_ending {o : OpId} (ho : o = .finalize ∨ o = .compute) (c : C) (hL : U.outSize c = s.outSizeOf u)
    (hT : s.Inv → (U.final c).2.length = s.outSizeOf u) : Ending u o s (produce U c s) := by
  rw [produce, hL]
  exact .produced _ (hU.put _ _) _ ho hT

theorem finalizeShape_ending (cap : BitVec 8) : Ending u .finalize s (finalizeShape U cap s) := by
  obtain ⟨-, h⟩ | ⟨-, -, h⟩ | ⟨hp, -, h⟩ := finalizeShape_cases U s cap <;> rw [h]
  · exact .raised _ (by decide)
  · exact .raised _ (by decide)
  · exact produce_ending hU s (.inl rfl) _ (hU.outSize s) fun hi => hU.length s hi (by rw [hp]; rfl)

theorem computeShape_ending (cap : BitVec 8) (data : List Byte) : Ending u .compute s (computeShape U cap data s) := by
  obtain ⟨-, h⟩ | ⟨-, -, h⟩ | ⟨hp, -, h⟩ := computeShape_cases U s cap data <;> rw [h]
  · exact .raised _ (by decide)
  · exact .raised _ (by decide)
  · exact produce_ending hU s (.inr rfl) _ ((hU.outSize_restart _ _).trans (hU.outSize s))
      fun hi => hU.length_restart s data hi hp

end Shapes

/-! ## The five units -/

theorem rmdShape_serves : rmdShape.Serves .rmd where
  put := setRmd_sameRegisters
  outSize _ := rfl
  outSize_restart _ _ := rfl
  length _ _ _ := rmdFinal_length _
  length_restart _ _ _ _ := rmdFinal_length _

/-- HMAC's tag has the L of the bound digest code, whatever the inner context holds (42_hmac.md R174). -/
theorem hmacFinal_length (R : Config.Registry) (u : HmacUnit) (h : digestDesc R u.alg = some (u.B, u.L)) :
    (hmacFinal R u).2.length = u.L := digest_length R u.alg u.B u.L h _

theorem HmacUnit.Inv.bound_of_isKeyed {R : Config.Registry} {u : HmacUnit} (h : u.Inv R) (hp : u.phase.isKeyed = true) :
    digestDesc R u.alg = some (u.B, u.L) := h.bound fun h0 => by simp [h0] at hp

theorem hmacShape_serves : (hmacShape Config.extDigest).Serves .hmac where
  put := setHmac_sameRegisters
  outSize _ := rfl
  outSize_restart _ _ := rfl
  length _ hi hp := hmacFinal_length _ _ (hi.hmac.bound_of_isKeyed hp)
  length_restart _ _ hi hp := hmacFinal_length _ _ (hi.hmac.bound_of_isKeyed hp)

theorem cmacShape_serves (E : Config.Cipher) : (cmacShape E).Serves .cmac where
  put := setCmac_sameRegisters
  outSize _ := rfl
  outSize_restart _ _ := rfl
  length _ _ _ := cmacFinal_length _ _
  length_restart _ _ _ _ := cmacFinal_length _ _

theorem gmacShape_serves (E : Config.Cipher) : (gmacShape E).Serves .gmac where
  put := setGmac_sameRegisters
  outSize _ := rfl
  outSize_restart _ _ := rfl
  length _ _ _ := gmacFinal_length _ _
  length_restart _ _ _ _ := gmacFinal_length _ _

theorem polyShape_serves : polyShape.Serves .p1305 where
  put := setP1305_sameRegisters
  outSize _ := rfl
  outSize_restart _ _ := rfl
  length _ _ _ := polyFinal_length _
  length_restart _ _ _ _ := polyFinal_length _

/-! ## SETKEY and SETNONCE -/

theorem hmacSetkey_ending (R : Config.Registry) (emptyOk : Bool) (algIn algOut : BitVec 4) (key : List Byte) (s : State) :
    Ending .hmac .setkey s (hmacSetkey R emptyOk algIn algOut key s) := by
  unfold hmacSetkey
  split
  · split_ifs
    · exact .raised _ (by decide)
    · exact .raised _ (by decide)
    · exact .updated _ (setHmac_sameRegisters _ _) .ok (by decide)
  · exact .raised _ (by decide)

theorem cmacSetkey_ending (E : Config.Cipher) (key : List Byte) (s : State) :
    Ending .cmac .setkey s (cmacSetkey E key s) := by
  unfold cmacSetkey
  split_ifs
  · exact .raised _ (by decide)
  · exact .updated _ (setCmac_sameRegisters _ _) .ok (by decide)

theorem gmacSetkey_ending (E : Config.Cipher) (key : List Byte) (s : State) :
    Ending .gmac .setkey s (gmacSetkey E key s) := by
  unfold gmacSetkey
  split_ifs
  · exact .raised _ (by decide)
  · exact .updated _ (setGmac_sameRegisters _ _) .ok (by decide)

theorem gmacSetnonce_ending (nonce : List Byte) (s : State) : Ending .gmac .setnonce s (gmacSetnonce nonce s) := by
  unfold gmacSetnonce
  split_ifs
  · exact .raised _ (by decide)
  · exact .raised _ (by decide)
  · exact .updated _ (setGmac_sameRegisters _ _) .ok (by decide)

theorem polySetkey_ending (key : List Byte) (s : State) : Ending .p1305 .setkey s (polySetkey key s) := by
  unfold polySetkey
  split_ifs
  · exact .raised _ (by decide)
  · exact .updated _ (setP1305_sameRegisters _ _) .ok (by decide)

/-! ## Every command -/

/-- Every command answers a next state, in one of the three ways of `Ending` (R100, R101). -/
theorem exec_ending (s : State) : ∀ i : Instr, ∃ t, exec i s = .next t ∧ Ending i.unit i.op s t
  | .rmdReset => ⟨_, rfl, resetShape_ending rmdShape_serves s⟩
  | .rmdAbsorb data => ⟨_, rfl, absorbShape_ending rmdShape_serves s data⟩
  | .rmdFinalize cap => ⟨_, rfl, finalizeShape_ending rmdShape_serves s cap⟩
  | .rmdCompute cap data => ⟨_, rfl, computeShape_ending rmdShape_serves s cap data⟩
  | .rmdZeroize => ⟨_, rfl, zeroizeShape_ending rmdShape_serves s⟩
  | .hmacReset => ⟨_, rfl, resetShape_ending hmacShape_serves s⟩
  | .hmacSetkey algIn algOut key => ⟨_, rfl, hmacSetkey_ending _ _ algIn algOut key s⟩
  | .hmacAbsorb data => ⟨_, rfl, absorbShape_ending hmacShape_serves s data⟩
  | .hmacFinalize cap => ⟨_, rfl, finalizeShape_ending hmacShape_serves s cap⟩
  | .hmacCompute cap data => ⟨_, rfl, computeShape_ending hmacShape_serves s cap data⟩
  | .hmacVerify tag => ⟨_, rfl, verifyShape_ending hmacShape_serves s tag⟩
  | .hmacZeroize => ⟨_, rfl, zeroizeShape_ending hmacShape_serves s⟩
  | .cmacReset => ⟨_, rfl, resetShape_ending (cmacShape_serves _) s⟩
  | .cmacSetkey key => ⟨_, rfl, cmacSetkey_ending _ key s⟩
  | .cmacAbsorb data => ⟨_, rfl, absorbShape_ending (cmacShape_serves _) s data⟩
  | .cmacFinalize cap => ⟨_, rfl, finalizeShape_ending (cmacShape_serves _) s cap⟩
  | .cmacCompute cap data => ⟨_, rfl, computeShape_ending (cmacShape_serves _) s cap data⟩
  | .cmacVerify tag => ⟨_, rfl, verifyShape_ending (cmacShape_serves _) s tag⟩
  | .cmacZeroize => ⟨_, rfl, zeroizeShape_ending (cmacShape_serves _) s⟩
  | .gmacReset => ⟨_, rfl, resetShape_ending (gmacShape_serves _) s⟩
  | .gmacSetkey key => ⟨_, rfl, gmacSetkey_ending _ key s⟩
  | .gmacSetnonce nonce => ⟨_, rfl, gmacSetnonce_ending nonce s⟩
  | .gmacAbsorb data => ⟨_, rfl, absorbShape_ending (gmacShape_serves _) s data⟩
  | .gmacFinalize cap => ⟨_, rfl, finalizeShape_ending (gmacShape_serves _) s cap⟩
  | .gmacCompute cap data => ⟨_, rfl, computeShape_ending (gmacShape_serves _) s cap data⟩
  | .gmacVerify tag => ⟨_, rfl, verifyShape_ending (gmacShape_serves _) s tag⟩
  | .gmacZeroize => ⟨_, rfl, zeroizeShape_ending (gmacShape_serves _) s⟩
  | .p1305Reset => ⟨_, rfl, resetShape_ending polyShape_serves s⟩
  | .p1305Setkey key => ⟨_, rfl, polySetkey_ending key s⟩
  | .p1305Absorb data => ⟨_, rfl, absorbShape_ending polyShape_serves s data⟩
  | .p1305Finalize cap => ⟨_, rfl, finalizeShape_ending polyShape_serves s cap⟩
  | .p1305Compute cap data => ⟨_, rfl, computeShape_ending polyShape_serves s cap data⟩
  | .p1305Verify tag => ⟨_, rfl, verifyShape_ending polyShape_serves s tag⟩
  | .p1305Zeroize => ⟨_, rfl, zeroizeShape_ending polyShape_serves s⟩

/-- `exec_ending`, read from an answer. -/
theorem ending_of_exec {i : Instr} {s t : State} (h : exec i s = .next t) : Ending i.unit i.op s t := by
  obtain ⟨t', ht', he⟩ := exec_ending s i
  cases ht'.symm.trans h
  exact he

/-! ## The command index -/

/-- A pair that is answered is a command that ran, or an illegal word that raised ILLEGAL (30_encoding.md R77). -/
theorem issue_next_cases {c : Command} {s t : State} (h : issue c s = .next t) :
    (∃ i, decode c = .ok i ∧ exec i s = .next t) ∨ ((¬∃ i, decode c = .ok i) ∧ t = s.raise .illegal) := by
  unfold issue at h
  cases hd : decode c with
  | ok i => exact .inl ⟨i, rfl, by simpa [hd] using h⟩
  | error r => cases r <;> simp [hd] at h <;> exact .inr ⟨by simp, h.symm⟩

/-- Issuing a pair leaves the host's sequence and the position, whatever the pair is (10_state.md R22). -/
theorem issue_channel {c : Command} {s t : State} (h : issue c s = .next t) : t.cmds = s.cmds ∧ t.pos = s.pos := by
  obtain ⟨i, -, hi⟩ | ⟨-, rfl⟩ := issue_next_cases h
  · exact (ending_of_exec hi).channel
  · exact ⟨rfl, rfl⟩

/-- A step with a command pending issues it, with the index already advanced (R22, R100). -/
theorem step_of_pending {s : State} {c : Command} (h : s.cmds[s.pos]? = some c) : step s = issue c s.advance := by
  simp [step, stepChannel, fetch, h]

/-- Settles O8: the index advances before the command is issued, and no command writes the channel. -/
theorem stepAdvancesPositionByOne : Obligations.StepAdvancesPositionByOne := by
  intro s c hc
  refine ⟨step_of_pending hc, fun t ht => ?_⟩
  obtain ⟨hcmds, hpos⟩ := issue_channel ((step_of_pending hc).symm.trans ht)
  exact ⟨hpos, hcmds⟩

/-! ## The result registers -/

/-- The tag length HMAC holds fits OUT: 0 while UNKEYED, else that of a registered digest (00_scope.md R5). -/
theorem HmacUnit.Inv.L_le {R : Config.Registry} {u : HmacUnit} (h : u.Inv R) : u.L ≤ 64 := by
  by_cases hp : u.phase = .unkeyed
  · simp [h.unkeyed_zero hp, HmacUnit.zero]
  · obtain ⟨-, -, -, hL⟩ := digestDesc_bounds _ _ _ _ (h.bound hp)
    exact hL

/-- An output size fits OUT (10_state.md R26). -/
theorem outSizeOf_le {s : State} (h : s.Inv) (u : UnitId) : s.outSizeOf u ≤ 64 := by
  cases u with
  | rmd => exact (by decide : Config.rmdOutSize ≤ 64)
  | hmac => exact h.hmac.L_le
  | cmac | gmac | p1305 => exact (by decide : Config.macSize ≤ 64)

/-- A command that is no FINALIZE or COMPUTE, or that ends with an error, leaves OUT and OUTLEN (R25, R26). -/
theorem Ending.out_unchanged {u : UnitId} {o : OpId} {s t : State} (h : Ending u o s t)
    (hw : (o ≠ .finalize ∧ o ≠ .compute) ∨ t.err ≠ 0) : t.out = s.out ∧ t.outlen = s.outlen := by
  cases h with
  | raised => exact ⟨rfl, rfl⟩
  | updated _ hs => exact ⟨hs.out, hs.outlen⟩
  | produced s' hs T ho =>
    obtain ⟨hf, hc⟩ | herr := hw
    · exact absurd ho (not_or.mpr ⟨hf, hc⟩)
    · exact absurd (State.succeed_err _) herr

/-- A FINALIZE or COMPUTE that succeeds sets OUTLEN to `L_u` and keeps the bytes of OUT from there on (R25, R26). -/
theorem Ending.out_written {u : UnitId} {o : OpId} {s t : State} (h : Ending u o s t) (hi : s.Inv)
    (ho : o = .finalize ∨ o = .compute) (hok : t.err = 0) :
    t.outlen.toNat = s.outSizeOf u ∧ ∀ (n : Nat) (h : n < 64), s.outSizeOf u ≤ n → t.out[n] = s.out[n] := by
  cases h with
  | raised c hc => exact absurd ((errValue_eq_zero_iff c).mp hok) hc
  | updated _ _ _ hno => exact absurd ho (not_or.mpr hno)
  | produced s' hs T _ hT =>
    have hL := outSizeOf_le hi u
    constructor
    · exact (BitVec.toNat_ofNat _ _).trans (Nat.mod_eq_of_lt (by omega))
    · intro n hn hLn
      have hbeyond : ¬n < T.length := by rw [hT hi]; omega
      simp only [State.succeed_out, State.writeResult_out, overlay_getElem, hbeyond, dite_false, hs.out]

/-- OUTLEN reads as the count in its low byte, and 0 above it (R25). -/
theorem outlenWord_fields (s : State) :
    s.outlenWord.extractLsb' 0 8 = s.outlen ∧ s.outlenWord.extractLsb' 8 24 = 0 := by
  have hlt := s.outlen.isLt
  constructor <;> apply BitVec.eq_of_toNat_eq <;> simp [State.outlenWord, Nat.shiftRight_eq_div_pow] <;> omega

/-- Settles O23: from the three endings of a command, `Ending.out_unchanged` and `Ending.out_written`. -/
theorem onlyFinalizeAndComputeWriteOut : Obligations.OnlyFinalizeAndComputeWriteOut := by
  refine ⟨fun i s t hi ht => ?_, fun n hn => Vector.getElem_replicate hn, outlenWord_fields, rfl⟩
  have hend := ending_of_exec ht
  exact ⟨hend.out_unchanged, hend.out_written hi⟩

end Sys2Proof.Machine

/-! # Family 20_memory.md: the read port

The port answers `portWord` inside its map and refuses outside it (R58, R59); the ranges of the map exclude each other, so
each has one equation. That R58's packing of OUT is the or of four shifted bytes is `outWord_eq_or`. -/

namespace Sys2Proof.Machine

/-! ## Accepted and refused offsets -/

theorem readPort_of_lt (s : State) {n : Nat} (ha : n % 4 = 0) (hn : n < 0x1000) : readPort s n = .ok (portWord s n) := by
  have hin : ¬0x1000 ≤ n := by omega
  simp only [readPort, ha, hin, ne_eq, not_true_eq_false, if_false]

theorem readPort_misaligned (s : State) {n : Nat} (ha : n % 4 ≠ 0) : readPort s n = .error .readMisaligned :=
  if_pos ha

theorem readPort_beyondMap (s : State) {n : Nat} (ha : n % 4 = 0) (hn : 0x1000 ≤ n) :
    readPort s n = .error .readBeyondMap :=
  (if_neg (not_not.mpr ha)).trans (if_pos hn)

/-! ## The words of the map -/

theorem portWord_out (s : State) {i : Nat} (hi : i < 16) : portWord s (0x040 + 4 * i) = outWord s.out i := by
  have hrange : 0x040 ≤ 0x040 + 4 * i ∧ 0x040 + 4 * i < 0x080 := by omega
  have hindex : (0x040 + 4 * i - 0x040) / 4 = i := by omega
  have hregs : 0x040 + 4 * i ≠ 0x000 ∧ 0x040 + 4 * i ≠ 0x004 ∧ 0x040 + 4 * i ≠ 0x008 := by omega
  obtain ⟨h0, h4, h8⟩ := hregs
  rw [portWord, if_neg h0, if_neg h4, if_neg h8, if_pos hrange, hindex]

/-- Offsets past the registers and outside OUT are reserved and read as 0 (R59). -/
theorem portWord_reserved (s : State) {n : Nat} (hn : 0x00C ≤ n) (hout : n < 0x040 ∨ 0x080 ≤ n) : portWord s n = 0 := by
  have hnotOut : ¬(0x040 ≤ n ∧ n < 0x080) := by omega
  have hregs : n ≠ 0x000 ∧ n ≠ 0x004 ∧ n ≠ 0x008 := by omega
  obtain ⟨h0, h4, h8⟩ := hregs
  rw [portWord, if_neg h0, if_neg h4, if_neg h8, if_neg hnotOut]

/-! ## The packing of OUT -/

theorem leNat_cons_eq_or (b : Byte) (bs : List Byte) : leNat (b :: bs) = leNat bs <<< 8 ||| b.toNat := by
  rw [← Nat.shiftLeft_add_eq_or_of_lt b.isLt, Nat.shiftLeft_eq, leNat]
  omega

theorem ofNat_shiftLeft_eight (n : Nat) : BitVec.ofNat 32 (n <<< 8) = BitVec.ofNat 32 n <<< 8 := by
  apply BitVec.eq_of_toNat_eq
  simp only [BitVec.toNat_ofNat, BitVec.toNat_shiftLeft, Nat.shiftLeft_eq, Nat.mod_mul_mod]

theorem ofNat_leNat_cons (b : Byte) (bs : List Byte) :
    BitVec.ofNat 32 (leNat (b :: bs)) = b.setWidth 32 ||| BitVec.ofNat 32 (leNat bs) <<< 8 := by
  rw [leNat_cons_eq_or, BitVec.ofNat_or, ofNat_shiftLeft_eight, BitVec.ofNat_toNat, BitVec.or_comm]

/-- Four bytes read little-endian are the or of the bytes, each shifted to its place (R58). -/
theorem ofNat_leNat_four (a b c d : Byte) :
    BitVec.ofNat 32 (leNat [a, b, c, d]) =
      a.setWidth 32 ||| b.setWidth 32 <<< 8 ||| c.setWidth 32 <<< 16 ||| d.setWidth 32 <<< 24 := by
  have hnil : BitVec.ofNat 32 (leNat []) = 0#32 := rfl
  simp only [ofNat_leNat_cons, hnil, BitVec.zero_shiftLeft, BitVec.or_zero, BitVec.shiftLeft_or_distrib,
    ← BitVec.shiftLeft_add, BitVec.or_assoc, Nat.reduceAdd]

theorem take_four_drop {α : Type} (l : List α) (n : Nat) (h : n + 3 < l.length) :
    (l.drop n).take 4 = [l[n], l[n + 1], l[n + 2], l[n + 3]] := by
  rw [List.drop_eq_getElem_cons (by omega), List.drop_eq_getElem_cons (by omega), List.drop_eq_getElem_cons (by omega),
    List.drop_eq_getElem_cons (by omega)]
  rfl

theorem outWord_eq_or (out : Vector Byte 64) {i : Nat} (hi : i < 16) :
    outWord out i = (out[4 * i]).setWidth 32 ||| (out[4 * i + 1]).setWidth 32 <<< 8
      ||| (out[4 * i + 2]).setWidth 32 <<< 16 ||| (out[4 * i + 3]).setWidth 32 <<< 24 := by
  have hlen : 4 * i + 3 < out.toList.length := by rw [Vector.length_toList]; omega
  rw [outWord, take_four_drop _ _ hlen, ofNat_leNat_four]
  simp only [Vector.getElem_toList]

/-- Settles O24: one equation of the port for each range of the map. -/
theorem readPortFollowsMap : Obligations.ReadPortFollowsMap := by
  intro s
  refine ⟨rfl, rfl, rfl, fun i hi => ?_, fun n ha hn => ?_, fun _ => readPort_misaligned s,
    fun _ => readPort_beyondMap s⟩
  · rw [readPort_of_lt s (by omega) (by omega), portWord_out s hi, outWord_eq_or s.out hi]
  · rw [readPort_of_lt s ha (by omega), portWord_reserved s (by omega) (by omega)]

end Sys2Proof.Machine

/-! # Family 30_encoding.md: legal words, their rows, and the causes of illegality

`Accepts u o w` says that `w` is a legal word of the pair (`u`, `o`), by R74 to R76. A word decodes iff a pair accepts
it (`exists_decode_iff`), and a row covers it iff a pair accepts it (`exists_covers_iff`), since the rows are the legal
pairs with their masks (`opTable_rows`). -/

namespace Sys2Proof

/-! ## Fields under masks -/

theorem packWord_inj {u u' o o' : BitVec 4} {a a' : BitVec 8} {l l' : BitVec 16} :
    packWord u o a l = packWord u' o' a' l' ↔ u = u' ∧ o = o' ∧ a = a' ∧ l = l' := by
  refine ⟨fun h => ?_, fun ⟨hu, ho, ha, hl⟩ => by rw [hu, ho, ha, hl]⟩
  exact ⟨by simpa using congrArg unitField h, by simpa using congrArg opField h, by simpa using congrArg argField h,
    BitVec.eq_of_toNat_eq (by simpa using congrArg lenField h)⟩

theorem packWord_and (u u' o o' : BitVec 4) (a a' : BitVec 8) (l l' : BitVec 16) :
    packWord u o a l &&& packWord u' o' a' l' = packWord (u &&& u') (o &&& o') (a &&& a') (l &&& l') := by
  rw [packWord, packWord, packWord, ← BitVec.and_append, ← BitVec.and_append, ← BitVec.and_append]

/-- A masked word is compared field by field. -/
theorem and_packWord_eq_iff (w : Word) (u u' o o' : BitVec 4) (a a' : BitVec 8) (l l' : BitVec 16) :
    w &&& packWord u o a l = packWord u' o' a' l' ↔
      unitField w &&& u = u' ∧ opField w &&& o = o' ∧ argField w &&& a = a' ∧
        BitVec.ofNat 16 (lenField w) &&& l = l' := by
  rw [← packWord_inj, ← packWord_and, packWord_fields]

theorem ofNat_lenField_eq_zero_iff (w : Word) : BitVec.ofNat 16 (lenField w) = 0 ↔ lenField w = 0 := by
  simp [lenField, ← BitVec.toNat_inj]

/-! ## Legal pairs and the words they accept -/

/-- The pair names one of the 34 commands (R74). -/
def isPair (u : UnitId) (o : OpId) : Bool := (build u o 0 []).isSome

/-- Whether a pair is legal does not depend on the operands. -/
theorem build_isSome (u : UnitId) (o : OpId) (arg : BitVec 8) (payload : List Byte) :
    (build u o arg payload).isSome = isPair u o := by cases u <;> cases o <;> rfl

/-- The command of a pair has the pair's unit and operation, and the operands that R75 and R76 give it. -/
theorem fields_of_build {u : UnitId} {o : OpId} {arg : BitVec 8} {payload : List Byte} {i : Instr}
    (h : build u o arg payload = some i) :
    i.unit = u ∧ i.op = o ∧ i.arg = (if readsArg u o then arg else 0) ∧
      i.payload = (if wantsNoPayload o then [] else payload) := by
  cases u <;> cases o <;> cases h <;>
    simp [Instr.unit, Instr.op, Instr.arg, Instr.payload, readsArg, wantsNoPayload, algFields_append]

/-- `w` is a legal word of the pair (`u`, `o`): its LEN and ARG are 0 where R76 and R75 require it. -/
structure Accepts (u : UnitId) (o : OpId) (w : Word) : Prop where
  unit : unitField w = unitCode u
  op : opField w = opCode o
  pair : isPair u o = true
  len : wantsNoPayload o = true → lenField w = 0
  arg : readsArg u o = false → argField w = 0

/-! ## Decoding -/

theorem decodePair_eq_ok_iff (u : UnitId) (o : OpId) (arg : BitVec 8) (n : Nat) (payload : List Byte) (i : Instr) :
    decodePair u o arg n payload = .ok i ↔
      build u o arg payload = some i ∧ (wantsNoPayload o = true → n = 0) ∧ (readsArg u o = false → arg = 0) := by
  unfold decodePair
  cases build u o arg payload with
  | none => simp
  | some j =>
    simp only [Bool.and_eq_true, bne_iff_ne, Bool.not_eq_true']
    split_ifs with hlen harg
    · exact iff_of_false nofun fun ⟨_, hzero, _⟩ => hlen.2 (hzero hlen.1)
    · exact iff_of_false nofun fun ⟨_, _, hzero⟩ => harg.2 (hzero harg.1)
    · rw [Except.ok.injEq, Option.some_inj,
        and_iff_left ⟨not_and_not_right.mp hlen, not_and_not_right.mp harg⟩]

theorem decodeWord_eq_ok_iff (w : Word) (payload : List Byte) (i : Instr) :
    decodeWord w payload = .ok i ↔ ∃ u o, Accepts u o w ∧ build u o (argField w) payload = some i := by
  constructor
  · intro h
    cases hu : unitOf (unitField w) with
    | none => simp [decodeWord, hu] at h
    | some u =>
      cases ho : opOf (opField w) with
      | none => simp [decodeWord, hu, ho] at h
      | some o =>
        simp only [decodeWord, hu, ho, decodePair_eq_ok_iff] at h
        obtain ⟨hb, hlen, harg⟩ := h
        have hpair : isPair u o = true := by rw [← build_isSome, hb, Option.isSome_some]
        exact ⟨u, o, ⟨(unitCode_of_unitOf _ _ hu).symm, (opCode_of_opOf _ _ ho).symm, hpair, hlen, harg⟩, hb⟩
  · rintro ⟨u, o, ha, hb⟩
    simp only [decodeWord, ha.unit, ha.op, unitOf_unitCode, opOf_opCode, decodePair_eq_ok_iff]
    exact ⟨hb, ha.len, ha.arg⟩

theorem decode_of_length {c : Command} (h : c.payload.length = lenField c.word) :
    decode c = decodeWord c.word c.payload :=
  if_pos ((hasLength_iff _ _).mpr h)

theorem decode_of_length_ne {c : Command} (h : c.payload.length ≠ lenField c.word) :
    decode c = .error .payloadLength :=
  if_neg (mt (hasLength_iff _ _).mp h)

/-- R78's decode never answers R70's refusal. -/
theorem decodeWord_ne_payloadLength (w : Word) (payload : List Byte) :
    decodeWord w payload ≠ .error .payloadLength := by
  unfold decodeWord decodePair
  split
  · nofun
  · split
    · nofun
    · split
      · nofun
      · split_ifs <;> nofun

theorem exists_decode_iff {c : Command} (h : c.payload.length = lenField c.word) :
    (∃ i, decode c = .ok i) ↔ ∃ u o, Accepts u o c.word := by
  simp only [decode_of_length h, decodeWord_eq_ok_iff]
  constructor
  · rintro ⟨-, u, o, ha, -⟩
    exact ⟨u, o, ha⟩
  · rintro ⟨u, o, ha⟩
    obtain ⟨i, hi⟩ := Option.isSome_iff_exists.mp ((build_isSome u o (argField c.word) c.payload).trans ha.pair)
    exact ⟨i, u, o, ha, hi⟩

/-- A decoded command is the word's: its unit and operation codes, its ARG, and its payload. -/
theorem fields_of_decode {c : Command} (h : c.payload.length = lenField c.word) {i : Instr} (hi : decode c = .ok i) :
    unitCode i.unit = unitField c.word ∧ opCode i.op = opField c.word ∧ i.arg = argField c.word ∧
      i.payload = c.payload := by
  rw [decode_of_length h, decodeWord_eq_ok_iff] at hi
  obtain ⟨u, o, ha, hb⟩ := hi
  obtain ⟨rfl, rfl, harg, hpayload⟩ := fields_of_build hb
  refine ⟨ha.unit.symm, ha.op.symm, ?_, ?_⟩
  · rw [harg]
    split_ifs with hr
    · rfl
    · exact (ha.arg (Bool.eq_false_iff.mpr hr)).symm
  · rw [hpayload]
    split_ifs with hn
    · exact (List.eq_nil_of_length_eq_zero (h.trans (ha.len hn))).symm
    · rfl

/-! ## The opcode table -/

/-- The match value of a pair (R74). -/
def pairPattern (u : UnitId) (o : OpId) : Word := packWord (unitCode u) (opCode o) 0 0

/-- The mask of a pair: UNIT and OP, and the fields that must be 0 (R75, R76). -/
def pairMask (u : UnitId) (o : OpId) : Word :=
  packWord (.allOnes 4) (.allOnes 4) (if readsArg u o then 0 else .allOnes 8)
    (if wantsNoPayload o then .allOnes 16 else 0)

/-- All pairs in the order of their codes. -/
def allPairs : List (UnitId × OpId) :=
  [UnitId.rmd, .hmac, .cmac, .gmac, .p1305] ×ˢ
    [OpId.reset, .setkey, .setnonce, .absorb, .finalize, .compute, .verify, .zeroize]

theorem mem_allPairs (u : UnitId) (o : OpId) : (u, o) ∈ allPairs := by cases u <;> cases o <;> decide

/-- The rows of the table are the legal pairs, in order, each with its match value and its mask (R74 to R76). -/
theorem opTable_rows : opTable.map (fun r => (r.pattern, r.mask)) =
    (allPairs.filter fun p => isPair p.1 p.2).map (fun p => (pairPattern p.1 p.2, pairMask p.1 p.2)) := by decide

theorem exists_row_iff (pattern mask : Word) : (∃ r ∈ opTable, r.pattern = pattern ∧ r.mask = mask) ↔
    ∃ u o, isPair u o = true ∧ pairPattern u o = pattern ∧ pairMask u o = mask := by
  have h := congrArg ((pattern, mask) ∈ ·) opTable_rows
  simpa [mem_allPairs] using h

/-- A pair's row covers the pair's words. -/
theorem and_pairMask_eq_iff (u : UnitId) (o : OpId) (w : Word) : w &&& pairMask u o = pairPattern u o ↔
    unitField w = unitCode u ∧ opField w = opCode o ∧ (readsArg u o = false → argField w = 0) ∧
      (wantsNoPayload o = true → lenField w = 0) := by
  rw [pairMask, pairPattern, and_packWord_eq_iff, ← ofNat_lenField_eq_zero_iff]
  cases readsArg u o <;> cases wantsNoPayload o <;> simp [-BitVec.reduceAllOnes]

theorem exists_covers_iff (w : Word) : (∃ r ∈ opTable, r.covers w = true) ↔ ∃ u o, Accepts u o w := by
  constructor
  · rintro ⟨r, hr, hc⟩
    obtain ⟨u, o, hpair, hp, hm⟩ := (exists_row_iff _ _).mp ⟨r, hr, rfl, rfl⟩
    rw [OpRow.covers, beq_iff_eq, ← hp, ← hm, and_pairMask_eq_iff] at hc
    obtain ⟨hu, ho, harg, hlen⟩ := hc
    exact ⟨u, o, hu, ho, hpair, hlen, harg⟩
  · rintro ⟨u, o, ha⟩
    obtain ⟨r, hr, hp, hm⟩ := (exists_row_iff _ _).mpr ⟨u, o, ha.pair, rfl, rfl⟩
    refine ⟨r, hr, ?_⟩
    rw [OpRow.covers, beq_iff_eq, hp, hm, and_pairMask_eq_iff]
    exact ⟨ha.unit, ha.op, ha.arg, ha.len⟩

/-- Every mask holds UNIT and OP, so a covered word has its row's match value there. -/
theorem pattern_of_covers {r : OpRow} (hr : r ∈ opTable) {w : Word} (h : r.covers w = true) :
    r.pattern = w &&& 0xFF000000 := by
  have htop : ∀ r ∈ opTable, r.mask &&& 0xFF000000 = 0xFF000000 ∧ r.pattern &&& 0xFF000000 = r.pattern := by decide
  obtain ⟨hm, hp⟩ := htop r hr
  calc r.pattern = r.pattern &&& 0xFF000000 := hp.symm
    _ = w &&& (r.mask &&& 0xFF000000) := by rw [← beq_iff_eq.mp h, BitVec.and_assoc]
    _ = w &&& 0xFF000000 := by rw [hm]

theorem opTable_patterns_nodup : (opTable.map OpRow.pattern).Nodup := by decide

/-- No two rows overlap (R78). -/
theorem row_unique {w : Word} {r₁ r₂ : OpRow} (h₁ : r₁ ∈ opTable) (h₂ : r₂ ∈ opTable) (hc₁ : r₁.covers w = true)
    (hc₂ : r₂.covers w = true) : r₁ = r₂ :=
  List.inj_on_of_nodup_map opTable_patterns_nodup h₁ h₂
    ((pattern_of_covers h₁ hc₁).trans (pattern_of_covers h₂ hc₂).symm)

/-- As rows do not overlap, exactly one row covers a word iff some row does. -/
theorem one_row_covers_iff (w : Word) :
    (opTable.filter (fun r => r.covers w)).length = 1 ↔ ∃ r ∈ opTable, r.covers w = true := by
  constructor
  · intro h
    obtain ⟨r, hr⟩ := List.length_eq_one_iff.mp h
    exact ⟨r, List.mem_filter.mp (hr ▸ List.mem_singleton_self r)⟩
  · rintro ⟨r, hr, hc⟩
    have hnodup : (opTable.filter fun r => r.covers w).Nodup := (opTable_patterns_nodup.of_map).filter _
    have hperm : (opTable.filter fun r => r.covers w).Perm [r] := by
      refine (List.perm_ext_iff_of_nodup hnodup (List.nodup_singleton r)).mpr fun r' => ?_
      rw [List.mem_filter, List.mem_singleton]
      exact ⟨fun ⟨hr', hc'⟩ => row_unique hr' hr hc' hc, fun h => h ▸ ⟨hr, hc⟩⟩
    exact hperm.length_eq

/-- Settles O3: a word decodes iff a pair accepts it, iff a row covers it, and rows do not overlap. -/
theorem wordIsLegalIffExactlyOneRowCovers : Obligations.WordIsLegalIffExactlyOneRowCovers := by
  intro w payload hlen
  refine ⟨?_, fun i hi => fields_of_decode (c := ⟨w, payload⟩) hlen hi, fun r₁ h₁ r₂ h₂ => row_unique h₁ h₂⟩
  rw [exists_decode_iff (c := ⟨w, payload⟩) hlen, one_row_covers_iff, exists_covers_iff]

/-! ## The causes of illegality (R77) -/

theorem unitOf_eq_none_iff (c : BitVec 4) : unitOf c = none ↔ 5 ≤ c.toNat := by
  revert c
  decide

theorem opOf_eq_none_iff (c : BitVec 4) : opOf c = none ↔ 8 ≤ c.toNat := by
  revert c
  decide

/-- R75 by codes: every operation but FINALIZE, COMPUTE and HMAC.SETKEY requires ARG = 0. -/
theorem readsArg_eq_false_iff (u : UnitId) (o : OpId) :
    readsArg u o = false ↔ opCode o ≠ 4 ∧ opCode o ≠ 5 ∧ ¬(unitCode u = 1 ∧ opCode o = 1) := by
  cases u <;> cases o <;> decide

/-- R76 by codes: RESET, FINALIZE and ZEROIZE require LEN = 0. -/
theorem wantsNoPayload_iff (o : OpId) : wantsNoPayload o = true ↔ opCode o = 0 ∨ opCode o = 4 ∨ opCode o = 7 := by
  cases o <;> decide

/-- A pair's match value is missing from the table iff the pair is not legal (R74). -/
theorem no_row_iff (u : UnitId) (o : OpId) : (∀ r ∈ opTable, pairPattern u o ≠ r.pattern) ↔ ¬isPair u o = true := by
  cases u <;> cases o <;> decide

section KnownCodes

variable {u : UnitId} {o : OpId} {w : Word} (hu : unitField w = unitCode u) (ho : opField w = opCode o)
include hu ho

/-- UNIT and OP alone, as R74 writes the match value. -/
theorem and_top_eq_pairPattern : w &&& 0xFF000000 = pairPattern u o := by
  have htop : (0xFF000000 : Word) = packWord (.allOnes 4) (.allOnes 4) 0 0 := by decide
  rw [htop, pairPattern, and_packWord_eq_iff, BitVec.and_allOnes, BitVec.and_allOnes]
  exact ⟨hu, ho, BitVec.and_zero, BitVec.and_zero⟩

/-- A word is a word of no pair but the one its codes name. -/
theorem exists_accepts_iff : (∃ u o, Accepts u o w) ↔ Accepts u o w := by
  refine ⟨fun ⟨u', o', h⟩ => ?_, fun h => ⟨u, o, h⟩⟩
  have hunit : u' = u := Option.some_inj.mp (by rw [← unitOf_unitCode, ← unitOf_unitCode, ← h.unit, hu])
  have hop : o' = o := Option.some_inj.mp (by rw [← opOf_opCode, ← opOf_opCode, ← h.op, ho])
  exact hunit ▸ hop ▸ h

/-- R77's causes beyond the reserved codes: the pair, ARG, LEN. -/
theorem illegal_causes_of_codes :
    ((∀ r ∈ opTable, w &&& 0xFF000000 ≠ r.pattern) ∨
      (argField w ≠ 0 ∧ opField w ≠ 4 ∧ opField w ≠ 5 ∧ ¬(unitField w = 1 ∧ opField w = 1)) ∨
      (lenField w ≠ 0 ∧ (opField w = 0 ∨ opField w = 4 ∨ opField w = 7))) ↔ ¬Accepts u o w := by
  have haccepts : Accepts u o w ↔ isPair u o = true ∧ (wantsNoPayload o = true → lenField w = 0) ∧
      (readsArg u o = false → argField w = 0) :=
    ⟨fun h => ⟨h.pair, h.len, h.arg⟩, fun ⟨hp, hl, ha⟩ => ⟨hu, ho, hp, hl, ha⟩⟩
  rw [haccepts, and_top_eq_pairPattern hu ho, no_row_iff, hu, ho, ← readsArg_eq_false_iff, ← wantsNoPayload_iff]
  tauto

end KnownCodes

/-- R77's five causes are all: a word meets one iff no pair accepts it. -/
theorem illegal_causes_iff (w : Word) :
    (5 ≤ (unitField w).toNat ∨ 8 ≤ (opField w).toNat ∨ (∀ r ∈ opTable, w &&& 0xFF000000 ≠ r.pattern) ∨
      (argField w ≠ 0 ∧ opField w ≠ 4 ∧ opField w ≠ 5 ∧ ¬(unitField w = 1 ∧ opField w = 1)) ∨
      (lenField w ≠ 0 ∧ (opField w = 0 ∨ opField w = 4 ∨ opField w = 7))) ↔ ¬∃ u o, Accepts u o w := by
  rw [← unitOf_eq_none_iff, ← opOf_eq_none_iff]
  cases hu : unitOf (unitField w) with
  | none =>
    refine iff_of_true (.inl rfl) ?_
    rintro ⟨u, o, ha⟩
    simp [ha.unit] at hu
  | some u =>
    cases ho : opOf (opField w) with
    | none =>
      refine iff_of_true (.inr (.inl rfl)) ?_
      rintro ⟨u, o, ha⟩
      simp [ha.op] at ho
    | some o =>
      have hunit := (unitCode_of_unitOf _ _ hu).symm
      have hop := (opCode_of_opOf _ _ ho).symm
      rw [exists_accepts_iff hunit hop, ← illegal_causes_of_codes hunit hop]
      simp only [reduceCtorEq, false_or]

end Sys2Proof

namespace Sys2Proof.Machine

/-- An illegal word whose payload has length LEN raises ILLEGAL (R77). -/
theorem issue_of_illegal {c : Command} (hlen : c.payload.length = lenField c.word) (h : ¬∃ i, decode c = .ok i)
    (s : State) : issue c s = .next (s.raise .illegal) := by
  have hne := decodeWord_ne_payloadLength c.word c.payload
  rw [← decode_of_length hlen] at hne
  unfold issue
  cases hd : decode c with
  | ok i => exact absurd ⟨i, hd⟩ h
  | error r =>
    cases r with
    | payloadLength => exact absurd hd hne
    | _ => rfl

/-- Settles O5: the five causes are those under which no pair accepts the word, and the raise writes STATUS.ERR only. -/
theorem illegalWordRaisesIllegalOnly : Obligations.IllegalWordRaisesIllegalOnly := by
  intro c s hlen
  refine ⟨?_, fun h => issue_of_illegal hlen h s⟩
  rw [exists_decode_iff hlen, illegal_causes_iff]

/-- Settles O6: the step issues the pending pair, which the decoder rejects by its length. -/
theorem lengthMismatchIsRefused : Obligations.LengthMismatchIsRefused := by
  intro s c hc hlen
  rw [step_of_pending hc, issue, decode_of_length_ne hlen]

end Sys2Proof.Machine

/-! # Family 40_contract_and_buffer.md: the buffer procedures, absorbing in pieces, and the phase table

Both buffer procedures are read off a cut of the pending bytes and the payload into full blocks and a rest
(`eagerAbsorb_blocks` of Laws/Buffer.lean, `holdbackAbsorb_blocks` here). Absorbing in pieces is a fact of ABSORB's common
shape, `absorbShape_append`; the phase table is held shape by shape, in one of the three ways of `TableStep`. -/

namespace Sys2Proof.Machine

/-! ## ZEROIZE -/

/-- Settles O38: `zeroizeShape` puts `Z_u`, which is the unit's part of power-on reset, and ends with OK. -/
theorem zeroizeCompletes : Obligations.ZeroizeCompletes := fun _ => ⟨rfl, rfl, rfl, rfl, rfl⟩

/-! ## The byte-wise and the block-form procedure (R110, R111) -/

section BlockForm

variable {α : Type} {n : Nat} (T : α → List Byte → α)

/-- `r` is the fold of `T` over the full blocks of `m`, from `acc`, and the bytes after the last full block. -/
def BlocksThenTail (n : Nat) (T : α → List Byte → α) (acc : α) (m : List Byte) (r : α × List Byte) : Prop :=
  ∃ full, m = full ++ r.2 ∧ n ∣ full.length ∧ r.2.length < n ∧ r.1 = (pieces n full).foldl T acc

/-- With no full block there is nothing to transform. -/
theorem BlocksThenTail.of_short (acc : α) {m : List Byte} (h : m.length < n) : BlocksThenTail n T acc m (acc, m) :=
  ⟨[], rfl, Nat.dvd_zero n, h, rfl⟩

variable {T}

/-- A full block in front is transformed first. -/
theorem BlocksThenTail.cons_block {acc : α} {blk m : List Byte} {r : α × List Byte} (hn : 0 < n) (hb : blk.length = n)
    (h : BlocksThenTail n T (T acc blk) m r) : BlocksThenTail n T acc (blk ++ m) r := by
  obtain ⟨full, rfl, hdvd, htail, hfold⟩ := h
  refine ⟨blk ++ full, (List.append_assoc _ _ _).symm, ?_, htail, ?_⟩
  · rw [List.length_append, hb]
    exact Nat.dvd_add (Nat.dvd_refl n) hdvd
  · rw [hfold, pieces_full_append n _ _ hn hb, List.foldl_cons]

/-- Steps (b) and (c) of R111, given fuel for every block. -/
theorem directBlocks_blocksThenTail (hn : 0 < n) {fuel : Nat} {acc : α} {m : List Byte} (hf : m.length ≤ fuel) :
    BlocksThenTail n T acc m (directBlocks n T fuel acc m) := by
  induction fuel generalizing acc m with
  | zero => exact .of_short T acc (by omega)
  | succ fuel ih =>
    rw [directBlocks]
    split_ifs with hshort
    · exact .of_short T acc hshort
    · have hrest := ih (acc := T acc (m.take n)) (m := m.drop n) (by rw [List.length_drop]; omega)
      have hblock : (m.take n).length = n := by rw [List.length_take]; omega
      simpa using hrest.cons_block hn hblock

/-- The block-form procedure transforms the full blocks of the pending bytes and the payload, and keeps the tail (R111). -/
theorem blockFormAbsorb_blocksThenTail (acc : α) {pending : List Byte} (data : List Byte) (hp : pending.length < n) :
    BlocksThenTail n T acc (pending ++ data) (blockFormAbsorb n T acc pending data) := by
  have hn : 0 < n := by omega
  rw [blockFormAbsorb]
  split_ifs with hnil hshort
  · rw [List.isEmpty_iff.mp hnil, List.nil_append]
    exact directBlocks_blocksThenTail hn (Nat.le_refl _)
  · exact .of_short T acc (by rwa [List.length_append])
  · have hblock : (pending ++ data.take (n - pending.length)).length = n := by
      rw [List.length_append, List.length_take]; omega
    have hrest := directBlocks_blocksThenTail (T := T) hn (fuel := data.length)
      (acc := T acc (pending ++ data.take (n - pending.length))) (m := data.drop (n - pending.length)) (by simp)
    simpa using hrest.cons_block hn hblock

end BlockForm

/-- Settles O29: both procedures fold the transform over the full blocks and keep the tail. -/
theorem eagerAbsorbEqualsBlockForm : Obligations.EagerAbsorbEqualsBlockForm := by
  intro α n T acc buf data hfill
  have hlt := eagerAbsorb_fill_lt T (acc, buf) data hfill
  have hpending := buf.pending_length (Nat.le_of_lt hfill)
  obtain ⟨full, hm, hdvd, htail, hfold⟩ := blockFormAbsorb_blocksThenTail (T := T) acc data (hpending ▸ hfill)
  obtain ⟨hacc, hrest⟩ := eagerAbsorb_blocks T (acc, buf) data full _ hfill hm hdvd htail
  exact ⟨Prod.ext (hacc.trans hfold.symm) hrest, (Buf.pending_length _ (Nat.le_of_lt hlt)).symm, hlt⟩

/-! ## The hold-back procedure (R112) -/

section Holdback

variable {α : Type} {n : Nat} {T : α → List Byte → α}

/-- A list cut into blocks and a rest that is empty only when there is no block is not longer than a block only when
there is no block. -/
theorem blocks_eq_nil {full rest : List Byte} (hdvd : n ∣ full.length) (hrest : rest = [] → full = [])
    (h : (full ++ rest).length ≤ n) : full = [] := by
  by_contra hfull
  have hle : n ≤ full.length := Nat.le_of_dvd (List.length_pos_iff.mpr hfull) hdvd
  have hpos : 0 < rest.length := List.length_pos_iff.mpr fun h0 => hfull (hrest h0)
  rw [List.length_append] at h
  omega

/-- Whatever the cut of the pending bytes and the payload into full blocks and a last piece of at most `n` bytes, the
blocks are transformed and the last piece is held (R112). -/
theorem holdbackAbsorb_blocks (hn : 0 < n) {p : α × Buf n} {data full rest : List Byte} (h : p.2.fill ≤ n)
    (hm : p.2.pending ++ data = full ++ rest) (hdvd : n ∣ full.length) (hle : rest.length ≤ n)
    (hrest : rest = [] → full = []) :
    (holdbackAbsorb T p data).1 = (pieces n full).foldl T p.1 ∧ (holdbackAbsorb T p data).2.pending = rest := by
  have hlen := p.2.pending_length h
  induction data generalizing p full with
  | nil =>
    rw [List.append_nil] at hm
    obtain rfl := blocks_eq_nil hdvd hrest (by rw [← hm, hlen]; exact h)
    exact ⟨rfl, hm⟩
  | cons x data ih =>
    have hcons : holdbackAbsorb T p (x :: data) = holdbackAbsorb T (holdbackByte T p x) data := rfl
    rw [hcons]
    obtain ⟨hfull, hacc, hpending, hfill⟩ | ⟨hlt, hacc, hpending, hfill⟩ := holdbackByte_cases T p.1 p.2 x h hn
    · -- the buffer is full, so it is the first of the blocks
      have hblock : p.2.pending.length = n := hlen.trans hfull
      have hne : full ≠ [] := by
        rintro rfl
        have := congrArg List.length hm
        simp only [List.length_append, List.length_cons, List.length_nil] at this
        omega
      have hprefix : p.2.pending <+: full := by
        refine List.prefix_of_prefix_length_le ⟨_, hm⟩ (List.prefix_append full rest) ?_
        rw [hblock]
        exact Nat.le_of_dvd (List.length_pos_iff.mpr hne) hdvd
      obtain ⟨full', rfl⟩ := hprefix
      rw [List.append_assoc] at hm
      rw [List.length_append, hblock, Nat.dvd_add_right (Nat.dvd_refl n)] at hdvd
      obtain ⟨hfold, hheld⟩ := ih (p := holdbackByte T p x) (full := full') (by rw [hfill]; exact hn)
        (by rw [hpending]; exact List.append_cancel_left hm) hdvd (fun h0 => absurd (hrest h0) hne)
        (by rw [hpending, hfill]; rfl)
      rw [pieces_full_append n _ _ hn hblock, List.foldl_cons, ← hacc]
      exact ⟨hfold, hheld⟩
    · obtain ⟨hfold, hheld⟩ := ih (p := holdbackByte T p x) (by rw [hfill]; exact hlt)
        (by rw [hpending, List.append_assoc]; exact hm) hdvd hrest
        (by rw [hpending, hfill, List.length_append, hlen]; rfl)
      rw [← hacc]
      exact ⟨hfold, hheld⟩

/-- A non-empty message is the blocks before its last piece, and that piece, of 1 to `n` bytes. -/
theorem holdbackSplit_cut (hn : 0 < n) {m : List Byte} (hm : m ≠ []) :
    ∃ full, m = full ++ (holdbackSplit n m).2 ∧ n ∣ full.length ∧ pieces n full = (holdbackSplit n m).1 ∧
      0 < (holdbackSplit n m).2.length ∧ (holdbackSplit n m).2.length ≤ n := by
  have hpos : 0 < m.length := List.length_pos_iff.mpr hm
  have hdiv : n * ((m.length - 1) / n) + (m.length - 1) % n = m.length - 1 := Nat.div_add_mod _ _
  have hmod : (m.length - 1) % n < n := Nat.mod_lt _ hn
  obtain ⟨k, hk⟩ : ∃ k, k = n * ((m.length - 1) / n) := ⟨_, rfl⟩
  have hfull : (m.take k).length = k := by rw [List.length_take]; omega
  have hlast : 0 < (m.drop k).length ∧ (m.drop k).length ≤ n := by rw [List.length_drop]; omega
  have hdvd : n ∣ (m.take k).length := by rw [hfull, hk]; exact Nat.dvd_mul_right n _
  have hpieces : pieces n m = pieces n (m.take k) ++ [m.drop k] := by
    rw [← pieces_short n (m.drop k) hn (List.length_pos_iff.mp hlast.1) hlast.2, ← pieces_append n _ _ hn hdvd,
      List.take_append_drop]
  have hsplit : holdbackSplit n m = (pieces n (m.take k), m.drop k) := by simp [holdbackSplit, hpieces]
  rw [hsplit]
  exact ⟨m.take k, (List.take_append_drop k m).symm, hdvd, rfl, hlast.1, hlast.2⟩

end Holdback

/-- Settles O30: `holdbackAbsorb_blocks` at the cut of `holdbackSplit`. -/
theorem holdbackKeepsLastBlock : Obligations.HoldbackKeepsLastBlock := by
  intro α T acc buf data hfill hdata
  obtain ⟨full, hm, hdvd, hpieces, hpos, hle⟩ :=
    holdbackSplit_cut (n := 16) (by decide) (List.append_ne_nil_of_right_ne_nil buf.pending hdata)
  obtain ⟨hacc, hheld⟩ := holdbackAbsorb_blocks (T := T) (p := (acc, buf)) (by decide) hfill hm hdvd hle
    fun h0 => absurd h0 (List.length_pos_iff.mp hpos)
  have hfill' := holdbackAbsorb_fill_le T (acc, buf) data hfill (by decide)
  have hlen := Buf.pending_length _ hfill'
  rw [hheld] at hlen
  rw [← hpieces, ← hlen]
  exact ⟨hacc, hheld, hpos, hle⟩

/-! ## Absorbing in pieces (R113) -/

/-- The pieces `U` absorb a message byte by byte: how it is cut into payloads shows neither in the context nor in the
length count of R105; and the context is all that `put` writes. -/
structure UnitShape.Streams {C : Type} (U : UnitShape C) : Prop where
  get_setErr : ∀ s e, U.get (s.setErr e) = U.get s
  get_put : ∀ s c, U.get (U.put s c) = c
  put_put : ∀ s c c', U.put (U.put s c).succeed c' = (U.put s c').succeed
  phase_absorb : ∀ c data, U.phase (U.absorb c data) = U.phase c
  absorb_append : ∀ c a b, U.absorb c (a ++ b) = U.absorb (U.absorb c a) b
  fits_of_fits_add : ∀ c a k, exceedsMaxMsg (U.count c) (a + k) = false → exceedsMaxMsg (U.count c) a = false
  fits_absorb : ∀ c a k, exceedsMaxMsg (U.count c) (a.length + k) = false →
    exceedsMaxMsg (U.count (U.absorb c a)) k = false

section Absorb

variable {C : Type} {U : UnitShape C} {s : State}

theorem absorbShape_of_not_active (hp : U.phase (U.get s) ≠ .active) (data : List Byte) :
    absorbShape U data s = s.raise .invalidState := if_pos hp

theorem absorbShape_of_fits (hp : U.phase (U.get s) = .active) {data : List Byte}
    (hc : exceedsMaxMsg (U.count (U.get s)) data.length = false) :
    absorbShape U data s = (U.put s (U.absorb (U.get s) data)).succeed := by
  simp [absorbShape, hp, hc]

/-- Two ABSORBs in turn are one of the concatenation, unless that one is too long (R105, R113). -/
theorem absorbShape_append (hU : U.Streams) (a b : List Byte)
    (h : (absorbShape U (a ++ b) s).err ≠ errValue .msgTooLong) :
    absorbShape U b (absorbShape U a s) = absorbShape U (a ++ b) s := by
  obtain ⟨hp, hab⟩ | ⟨-, -, hab⟩ | ⟨hp, hc, hab⟩ := absorbShape_cases U s (a ++ b)
  · have hp' : U.phase (U.get (s.raise .invalidState)) ≠ .active := by rwa [State.raise, hU.get_setErr]
    rw [hab, absorbShape_of_not_active hp, absorbShape_of_not_active hp']
    rfl
  · exact absurd (congrArg State.err hab) h
  · rw [List.length_append] at hc
    have hget : U.get (U.put s (U.absorb (U.get s) a)).succeed = U.absorb (U.get s) a := by
      rw [State.succeed, hU.get_setErr, hU.get_put]
    rw [hab, absorbShape_of_fits hp (hU.fits_of_fits_add _ _ _ hc),
      absorbShape_of_fits (by rw [hget, hU.phase_absorb, hp]) (by rw [hget]; exact hU.fits_absorb _ _ _ hc),
      hget, hU.put_put, ← hU.absorb_append]
    rfl

end Absorb

theorem exceedsMaxMsg_some_eq_false_iff (m k : Nat) : exceedsMaxMsg (some m) k = false ↔ m + k ≤ Config.maxMsg := by
  simp [exceedsMaxMsg]

/-- A length that fits with more bytes fits without them. -/
theorem fits_of_fits_add (count : Option Nat) (a k : Nat) (h : exceedsMaxMsg count (a + k) = false) :
    exceedsMaxMsg count a = false := by
  cases count with
  | none => rfl
  | some m => rw [exceedsMaxMsg_some_eq_false_iff] at *; omega

/-- The 61-bit count of bytes does not wrap while the message stays within MAXMSG (R105). -/
theorem fits_count_add (c : BitVec 61) (a k : Nat) (h : exceedsMaxMsg (some c.toNat) (a + k) = false) :
    exceedsMaxMsg (some (c + BitVec.ofNat 61 a).toNat) k = false := by
  rw [exceedsMaxMsg_some_eq_false_iff] at *
  rw [BitVec.toNat_add, BitVec.toNat_ofNat]
  have hmax : Config.maxMsg = 2 ^ 61 - 1 := rfl
  omega

theorem rmdShape_streams : rmdShape.Streams where
  get_setErr _ _ := rfl
  get_put _ _ := rfl
  put_put _ _ _ := rfl
  phase_absorb _ _ := rfl
  absorb_append u a b := congrArg (RmdUnit.mk · u.phase) (rmdAbsorb_append u.toRmdCtx a b)
  fits_of_fits_add _ := fits_of_fits_add _
  fits_absorb u a := fits_count_add u.nbytes a.length

theorem fits_hmacCount_absorb (u : HmacUnit) (a : List Byte) (k : Nat)
    (h : exceedsMaxMsg (hmacCount u) (a.length + k) = false) :
    exceedsMaxMsg (hmacCount { u with inner := dAbsorb u.inner a }) k = false := by
  obtain ⟨phase, alg, B, L, ipad, opad, inner⟩ := u
  cases inner with
  | rmd c =>
    by_cases ha : alg = 0
    · subst ha
      exact fits_count_add c.nbytes a.length k h
    · have hnone : hmacCount ⟨phase, alg, B, L, ipad, opad, .rmd (rmdAbsorb c a)⟩ = none := if_neg ha
      exact congrArg (exceedsMaxMsg · k) hnone
  | ext absorbed => rfl

theorem hmacShape_streams (R : Config.Registry) : (hmacShape R).Streams where
  get_setErr _ _ := rfl
  get_put _ _ := rfl
  put_put _ _ _ := rfl
  phase_absorb _ _ := rfl
  absorb_append u a b := congrArg (fun inner => { u with inner := inner }) (dAbsorb_append u.inner a b)
  fits_of_fits_add _ := fits_of_fits_add _
  fits_absorb := fits_hmacCount_absorb

theorem cmacShape_streams (E : Config.Cipher) : (cmacShape E).Streams where
  get_setErr _ _ := rfl
  get_put _ _ := rfl
  put_put _ _ _ := rfl
  phase_absorb _ _ := rfl
  absorb_append := cmacAbsorb_append E
  fits_of_fits_add _ _ _ _ := rfl
  fits_absorb _ _ _ _ := rfl

theorem gmacShape_streams (E : Config.Cipher) : (gmacShape E).Streams where
  get_setErr _ _ := rfl
  get_put _ _ := rfl
  put_put _ _ _ := rfl
  phase_absorb _ _ := rfl
  absorb_append := gmacAbsorb_append
  fits_of_fits_add _ := fits_of_fits_add _
  fits_absorb u a := fits_count_add u.nbytes a.length

theorem polyShape_streams : polyShape.Streams where
  get_setErr _ _ := rfl
  get_put _ _ := rfl
  put_put _ _ _ := rfl
  phase_absorb _ _ := rfl
  absorb_append := polyAbsorb_append
  fits_of_fits_add _ _ _ _ := rfl
  fits_absorb _ _ _ _ := rfl

/-- ABSORB of a unit is the common shape of pieces that stream. -/
theorem exec_absorbInstr (u : UnitId) : ∃ (C : Type) (U : UnitShape C), U.Streams ∧
    ∀ data s, exec (absorbInstr u data) s = .next (absorbShape U data s) :=
  match u with
  | .rmd => ⟨_, _, rmdShape_streams, fun _ _ => rfl⟩
  | .hmac => ⟨_, _, hmacShape_streams _, fun _ _ => rfl⟩
  | .cmac => ⟨_, _, cmacShape_streams _, fun _ _ => rfl⟩
  | .gmac => ⟨_, _, gmacShape_streams _, fun _ _ => rfl⟩
  | .p1305 => ⟨_, _, polyShape_streams, fun _ _ => rfl⟩

theorem execAll_cons_of_next {i : Instr} {s t : State} (h : exec i s = .next t) (is : List Instr) :
    execAll (i :: is) s = execAll is t := by
  simp only [execAll, h]

/-- Absorbing the pieces in order is absorbing their concatenation, unless that is too long. -/
theorem execAll_map_absorbInstr {u : UnitId} {ps : List (List Byte)} {s t : State} (hps : ps ≠ [])
    (h : exec (absorbInstr u ps.flatten) s = .next t) (herr : t.err ≠ errValue .msgTooLong) :
    execAll (ps.map (absorbInstr u)) s = .next t := by
  obtain ⟨C, U, hU, hexec⟩ := exec_absorbInstr u
  induction ps generalizing s with
  | nil => exact absurd rfl hps
  | cons p ps ih =>
    rw [hexec, Host.Outcome.next.injEq] at h
    subst h
    rw [List.map_cons, execAll_cons_of_next (hexec p s)]
    cases ps with
    | nil => simp [execAll]
    | cons q qs =>
      refine ih (List.cons_ne_nil q qs) ?_
      exact (hexec _ _).trans (congrArg _ (absorbShape_append hU p (q :: qs).flatten herr))

/-- Settles O28: any pieces, and those that ABSORB_LONG cuts the message into. -/
theorem chunkedAbsorbEqualsWhole : Obligations.ChunkedAbsorbEqualsWhole := by
  intro u ps s t hps h herr
  refine ⟨execAll_map_absorbInstr hps h herr, fun hne => ?_⟩
  have hflat : (pieces Config.lenMax ps.flatten).flatten = ps.flatten := pieces_flatten _ _ (by decide)
  have hpieces : pieces Config.lenMax ps.flatten ≠ [] := fun h0 => hne (by rw [← hflat, h0, List.flatten_nil])
  exact execAll_map_absorbInstr hpieces (by rwa [hflat]) herr

/-! ## The phase table (R102) -/

/-- The three ways a command can go by the phase table: it is rejected with INVALID_STATE; or its phase is accepted and
it raises another error (R251); or its phase is accepted and it leaves the phase of its cell, with any code but
INVALID_STATE. A cell for a phase the unit never has asks for nothing. -/
inductive TableStep (u : UnitId) (o : OpId) (s : State) : State → Prop where
  | rejected (h : lifecycle u o (s.phaseOf u) = .invalidState ∨ lifecycle u o (s.phaseOf u) = .unreachable) :
      TableStep u o s (s.raise .invalidState)
  | raised (c : ErrCode) (hc : errValue c ∉ [0, 6, 9]) (h : lifecycle u o (s.phaseOf u) ≠ .invalidState) :
      TableStep u o s (s.raise c)
  | moved (s' : State) (c : ErrCode) (hc : errValue c ≠ 6)
      (h : lifecycle u o (s.phaseOf u) = .to (s'.phaseOf u) ∨ lifecycle u o (s.phaseOf u) = .unreachable) :
      TableStep u o s (s'.setErr c)

/-! ### The cells -/

theorem lifecycle_keyed (u : UnitId) {p : Phase} (h : p.isKeyed = true) :
    lifecycle u .reset p = .to .active ∧ lifecycle u .compute p = .to .finalized := by
  revert h
  cases u <;> cases p <;> decide

theorem lifecycle_not_keyed (u : UnitId) {p : Phase} (h : p.isKeyed = false) :
    (lifecycle u .reset p = .invalidState ∨ lifecycle u .reset p = .unreachable) ∧
      (lifecycle u .compute p = .invalidState ∨ lifecycle u .compute p = .unreachable) := by
  revert h
  cases u <;> cases p <;> decide

/-- ABSORB, FINALIZE and VERIFY are rejected outside ACTIVE. -/
theorem tableRow_not_active {p : Phase} (h : p ≠ .active) (c : Cell) :
    tableRow .invalidState .invalidState c .invalidState p = .invalidState := by
  cases p with
  | active => exact absurd rfl h
  | unkeyed | nonceWait | finalized => rfl

theorem lifecycle_setkey {u : UnitId} (hu : u ≠ .gmac) (p : Phase) :
    lifecycle u .setkey p = .to .active ∨ lifecycle u .setkey p = .unreachable := by
  revert hu
  cases u <;> cases p <;> decide

theorem lifecycle_gmac_setkey (p : Phase) : lifecycle .gmac .setkey p = .to .nonceWait := by cases p <;> rfl

theorem lifecycle_setnonce {p : Phase} (h : p ≠ .unkeyed) : lifecycle .gmac .setnonce p = .to .active := by
  cases p with
  | unkeyed => exact absurd rfl h
  | nonceWait | active | finalized => rfl

/-! ### The common shapes -/

@[simp] theorem State.phaseOf_setErr (s : State) (c : ErrCode) (u : UnitId) : (s.setErr c).phaseOf u = s.phaseOf u := by
  cases u <;> rfl

@[simp] theorem State.phaseOf_writeResult (s : State) (T : List Byte) (L : Nat) (u : UnitId) :
    (s.writeResult T L).phaseOf u = s.phaseOf u := by
  cases u <;> rfl

/-- VERIFY's own result is OK or AUTH_FAIL (R108). -/
theorem errValue_verifyResult_ne (a b : List Byte) : errValue (verifyResult a b) ≠ 6 := by
  rw [verifyResult]
  split_ifs <;> decide

/-- The pieces `U` read and write the phase of unit `u`, and `Z_u` is in the phase of ZEROIZE's row. -/
structure UnitShape.OwnsPhase {C : Type} (U : UnitShape C) (u : UnitId) : Prop where
  phase_get : ∀ s, U.phase (U.get s) = s.phaseOf u
  phaseOf_put : ∀ s c, (U.put s c).phaseOf u = U.phase c
  phase_setPhase : ∀ c p, U.phase (U.setPhase c p) = p
  zeroize_cell : ∀ p, lifecycle u .zeroize p = .to (U.phase U.zero) ∨ lifecycle u .zeroize p = .unreachable

section TableShapes

variable {C : Type} {U : UnitShape C} {u : UnitId} (hU : U.OwnsPhase u) (s : State)
include hU

theorem resetShape_tableStep : TableStep u .reset s (resetShape U s) := by
  obtain ⟨hp, h⟩ | ⟨hp, h⟩ := resetShape_cases U s <;> rw [h] <;> rw [hU.phase_get] at hp
  · refine .moved _ .ok (by decide) (.inl ?_)
    rw [(lifecycle_keyed u hp).1, hU.phaseOf_put, hU.phase_setPhase]
  · exact .rejected (lifecycle_not_keyed u hp).1

theorem absorbShape_tableStep (hS : U.Streams) (data : List Byte) : TableStep u .absorb s (absorbShape U data s) := by
  obtain ⟨hp, h⟩ | ⟨hp, -, h⟩ | ⟨hp, -, h⟩ := absorbShape_cases U s data <;> rw [h] <;> rw [hU.phase_get] at hp
  · exact .rejected (.inl (tableRow_not_active hp _))
  · exact .raised .msgTooLong (by decide) (by rw [hp]; nofun)
  · refine .moved _ .ok (by decide) (.inl ?_)
    rw [hU.phaseOf_put, hS.phase_absorb, hU.phase_get, hp]
    rfl

/-- The common end of FINALIZE and COMPUTE leaves FINALIZED. -/
theorem produce_tableStep {o : OpId} (ho : lifecycle u o (s.phaseOf u) = .to .finalized) (c : C) :
    TableStep u o s (produce U c s) := by
  refine .moved _ .ok (by decide) (.inl ?_)
  rw [ho, State.phaseOf_writeResult, hU.phaseOf_put, hU.phase_setPhase]

theorem finalizeShape_tableStep (cap : BitVec 8) : TableStep u .finalize s (finalizeShape U cap s) := by
  obtain ⟨hp, h⟩ | ⟨hp, -, h⟩ | ⟨hp, -, h⟩ := finalizeShape_cases U s cap <;> rw [h] <;> rw [hU.phase_get] at hp
  · exact .rejected (.inl (tableRow_not_active hp _))
  · exact .raised .outputTooSmall (by decide) (by rw [hp]; nofun)
  · exact produce_tableStep hU s (by rw [hp]; rfl) _

theorem computeShape_tableStep (cap : BitVec 8) (data : List Byte) :
    TableStep u .compute s (computeShape U cap data s) := by
  obtain ⟨hp, h⟩ | ⟨hp, -, h⟩ | ⟨hp, -, h⟩ := computeShape_cases U s cap data <;> rw [h] <;> rw [hU.phase_get] at hp
  · exact .rejected (lifecycle_not_keyed u hp).2
  · exact .raised .outputTooSmall (by decide) (by rw [(lifecycle_keyed u hp).2]; decide)
  · exact produce_tableStep hU s (lifecycle_keyed u hp).2 _

/-- RMD has no VERIFY (30_encoding.md R74), so its row is left out. -/
theorem verifyShape_tableStep (hu : u ≠ .rmd) (tag : List Byte) : TableStep u .verify s (verifyShape U tag s) := by
  have hrow : lifecycle u .verify = tableRow .invalidState .invalidState (.to .finalized) .invalidState := by
    cases u with
    | rmd => exact absurd rfl hu
    | hmac | cmac | gmac | p1305 => rfl
  obtain ⟨hp, h⟩ | ⟨hp, -, h⟩ | ⟨hp, -, h⟩ := verifyShape_cases U s tag <;> rw [h] <;> rw [hU.phase_get] at hp
  · exact .rejected (.inl (by rw [hrow]; exact tableRow_not_active hp _))
  · exact .raised .tagLength (by decide) (by rw [hrow, hp]; decide)
  · refine .moved _ _ (errValue_verifyResult_ne _ _) (.inl ?_)
    rw [hrow, hp, hU.phaseOf_put, hU.phase_setPhase]
    rfl

theorem zeroizeShape_tableStep : TableStep u .zeroize s (zeroizeShape U s) := by
  refine .moved _ .ok (by decide) ?_
  rw [hU.phaseOf_put]
  exact hU.zeroize_cell _

end TableShapes

/-! ### The five units -/

theorem rmdShape_ownsPhase : rmdShape.OwnsPhase .rmd where
  phase_get _ := rfl
  phaseOf_put _ _ := rfl
  phase_setPhase _ _ := rfl
  zeroize_cell p := by cases p <;> decide

theorem hmacShape_ownsPhase (R : Config.Registry) : (hmacShape R).OwnsPhase .hmac where
  phase_get _ := rfl
  phaseOf_put _ _ := rfl
  phase_setPhase _ _ := rfl
  zeroize_cell p := by cases p <;> exact .inl rfl

theorem cmacShape_ownsPhase (E : Config.Cipher) : (cmacShape E).OwnsPhase .cmac where
  phase_get _ := rfl
  phaseOf_put _ _ := rfl
  phase_setPhase _ _ := rfl
  zeroize_cell p := by cases p <;> exact .inl rfl

theorem gmacShape_ownsPhase (E : Config.Cipher) : (gmacShape E).OwnsPhase .gmac where
  phase_get _ := rfl
  phaseOf_put _ _ := rfl
  phase_setPhase _ _ := rfl
  zeroize_cell p := by cases p <;> exact .inl rfl

theorem polyShape_ownsPhase : polyShape.OwnsPhase .p1305 where
  phase_get _ := rfl
  phaseOf_put _ _ := rfl
  phase_setPhase _ _ := rfl
  zeroize_cell p := by cases p <;> exact .inl rfl

/-! ### SETKEY and SETNONCE -/

/-- An error of SETKEY other than INVALID_STATE, which no phase gives. -/
theorem TableStep.setkey_raised {u : UnitId} (s : State) {c : ErrCode} (hc : errValue c ∉ [0, 6, 9]) :
    TableStep u .setkey s (s.raise c) :=
  .raised c hc (by cases u <;> cases s.phaseOf _ <;> decide)

theorem hmacSetkey_tableStep (R : Config.Registry) (emptyOk : Bool) (algIn algOut : BitVec 4) (key : List Byte)
    (s : State) : TableStep .hmac .setkey s (hmacSetkey R emptyOk algIn algOut key s) := by
  unfold hmacSetkey
  split
  · split_ifs
    · exact .setkey_raised s (by decide)
    · exact .setkey_raised s (by decide)
    · exact .moved _ .ok (by decide) (lifecycle_setkey (by decide) _)
  · exact .setkey_raised s (by decide)

theorem cmacSetkey_tableStep (E : Config.Cipher) (key : List Byte) (s : State) :
    TableStep .cmac .setkey s (cmacSetkey E key s) := by
  unfold cmacSetkey
  split_ifs
  · exact .setkey_raised s (by decide)
  · exact .moved _ .ok (by decide) (lifecycle_setkey (by decide) _)

theorem gmacSetkey_tableStep (E : Config.Cipher) (key : List Byte) (s : State) :
    TableStep .gmac .setkey s (gmacSetkey E key s) := by
  unfold gmacSetkey
  split_ifs
  · exact .setkey_raised s (by decide)
  · exact .moved _ .ok (by decide) (.inl (lifecycle_gmac_setkey _))

theorem gmacSetnonce_tableStep (nonce : List Byte) (s : State) :
    TableStep .gmac .setnonce s (gmacSetnonce nonce s) := by
  unfold gmacSetnonce
  split_ifs with hp
  · exact .rejected (.inl (congrArg (lifecycle .gmac .setnonce) hp))
  · exact .raised .nonceInvalid (by decide) ((lifecycle_setnonce hp).trans_ne (by decide))
  · exact .moved _ .ok (by decide) (.inl (lifecycle_setnonce hp))

theorem polySetkey_tableStep (key : List Byte) (s : State) : TableStep .p1305 .setkey s (polySetkey key s) := by
  unfold polySetkey
  split_ifs
  · exact .setkey_raised s (by decide)
  · exact .moved _ .ok (by decide) (lifecycle_setkey (by decide) _)

/-! ### Every command -/

/-- Every command answers a next state by its row of the phase table (R101, R102). -/
theorem exec_tableStep (s : State) : ∀ i : Instr, ∃ t, exec i s = .next t ∧ TableStep i.unit i.op s t
  | .rmdReset => ⟨_, rfl, resetShape_tableStep rmdShape_ownsPhase s⟩
  | .rmdAbsorb data => ⟨_, rfl, absorbShape_tableStep rmdShape_ownsPhase s rmdShape_streams data⟩
  | .rmdFinalize cap => ⟨_, rfl, finalizeShape_tableStep rmdShape_ownsPhase s cap⟩
  | .rmdCompute cap data => ⟨_, rfl, computeShape_tableStep rmdShape_ownsPhase s cap data⟩
  | .rmdZeroize => ⟨_, rfl, zeroizeShape_tableStep rmdShape_ownsPhase s⟩
  | .hmacReset => ⟨_, rfl, resetShape_tableStep (hmacShape_ownsPhase _) s⟩
  | .hmacSetkey algIn algOut key => ⟨_, rfl, hmacSetkey_tableStep _ _ algIn algOut key s⟩
  | .hmacAbsorb data => ⟨_, rfl, absorbShape_tableStep (hmacShape_ownsPhase _) s (hmacShape_streams _) data⟩
  | .hmacFinalize cap => ⟨_, rfl, finalizeShape_tableStep (hmacShape_ownsPhase _) s cap⟩
  | .hmacCompute cap data => ⟨_, rfl, computeShape_tableStep (hmacShape_ownsPhase _) s cap data⟩
  | .hmacVerify tag => ⟨_, rfl, verifyShape_tableStep (hmacShape_ownsPhase _) s (by decide) tag⟩
  | .hmacZeroize => ⟨_, rfl, zeroizeShape_tableStep (hmacShape_ownsPhase _) s⟩
  | .cmacReset => ⟨_, rfl, resetShape_tableStep (cmacShape_ownsPhase _) s⟩
  | .cmacSetkey key => ⟨_, rfl, cmacSetkey_tableStep _ key s⟩
  | .cmacAbsorb data => ⟨_, rfl, absorbShape_tableStep (cmacShape_ownsPhase _) s (cmacShape_streams _) data⟩
  | .cmacFinalize cap => ⟨_, rfl, finalizeShape_tableStep (cmacShape_ownsPhase _) s cap⟩
  | .cmacCompute cap data => ⟨_, rfl, computeShape_tableStep (cmacShape_ownsPhase _) s cap data⟩
  | .cmacVerify tag => ⟨_, rfl, verifyShape_tableStep (cmacShape_ownsPhase _) s (by decide) tag⟩
  | .cmacZeroize => ⟨_, rfl, zeroizeShape_tableStep (cmacShape_ownsPhase _) s⟩
  | .gmacReset => ⟨_, rfl, resetShape_tableStep (gmacShape_ownsPhase _) s⟩
  | .gmacSetkey key => ⟨_, rfl, gmacSetkey_tableStep _ key s⟩
  | .gmacSetnonce nonce => ⟨_, rfl, gmacSetnonce_tableStep nonce s⟩
  | .gmacAbsorb data => ⟨_, rfl, absorbShape_tableStep (gmacShape_ownsPhase _) s (gmacShape_streams _) data⟩
  | .gmacFinalize cap => ⟨_, rfl, finalizeShape_tableStep (gmacShape_ownsPhase _) s cap⟩
  | .gmacCompute cap data => ⟨_, rfl, computeShape_tableStep (gmacShape_ownsPhase _) s cap data⟩
  | .gmacVerify tag => ⟨_, rfl, verifyShape_tableStep (gmacShape_ownsPhase _) s (by decide) tag⟩
  | .gmacZeroize => ⟨_, rfl, zeroizeShape_tableStep (gmacShape_ownsPhase _) s⟩
  | .p1305Reset => ⟨_, rfl, resetShape_tableStep polyShape_ownsPhase s⟩
  | .p1305Setkey key => ⟨_, rfl, polySetkey_tableStep key s⟩
  | .p1305Absorb data => ⟨_, rfl, absorbShape_tableStep polyShape_ownsPhase s polyShape_streams data⟩
  | .p1305Finalize cap => ⟨_, rfl, finalizeShape_tableStep polyShape_ownsPhase s cap⟩
  | .p1305Compute cap data => ⟨_, rfl, computeShape_tableStep polyShape_ownsPhase s cap data⟩
  | .p1305Verify tag => ⟨_, rfl, verifyShape_tableStep polyShape_ownsPhase s (by decide) tag⟩
  | .p1305Zeroize => ⟨_, rfl, zeroizeShape_tableStep polyShape_ownsPhase s⟩

/-- Settles O18: each of the three ways of `TableStep` is the table's. -/
theorem phaseTableHolds : Obligations.PhaseTableHolds := by
  intro i s t ht
  obtain ⟨t', ht', hstep⟩ := exec_tableStep s i
  cases ht'.symm.trans ht
  cases hstep with
  | rejected h =>
    have hno (p : Phase) : lifecycle i.unit i.op (s.phaseOf i.unit) ≠ .to p := by obtain h | h := h <;> rw [h] <;> nofun
    exact ⟨fun _ => rfl, fun p hp => absurd hp (hno p), fun p hp => absurd hp (hno p)⟩
  | raised c hc h =>
    simp only [List.mem_cons, List.not_mem_nil, or_false, not_or] at hc
    obtain ⟨h0, h6, h9⟩ := hc
    exact ⟨fun h' => absurd h' h, fun p _ herr => absurd herr (not_or.mpr ⟨h0, h9⟩), fun _ _ => h6⟩
  | moved s' c hc h =>
    rw [State.phaseOf_setErr]
    refine ⟨fun h' => ?_, fun p hp _ => ?_, fun _ _ => hc⟩
    · rw [h'] at h
      exact h.elim nofun nofun
    · rw [hp] at h
      exact h.elim (fun h => (Cell.to.inj h).symm) nofun

end Sys2Proof.Machine

/-! # Family 43_cmac.md: the doubling, and the state CMAC.SETKEY leaves

`cmacDouble` is a shift with the reduction constant; its value as an integer is read off the integer forms of the top bit
and of the one-bit shift. SETKEY with a valid key takes the installing branch of `cmacSetkey`. -/

namespace Sys2Proof.Machine

/-! ## DOUBLE (R191) -/

/-- The top bit of a block is 1 iff the quotient of its integer by 2^127 is 1. -/
theorem block_msb_iff (b : Block) : b.msb = true ↔ b.toNat / 2 ^ 127 = 1 := by
  have hb : b.toNat < 2 ^ 128 := b.isLt
  rw [BitVec.msb_eq_decide, decide_eq_true_iff]
  omega

/-- Shifting a block left by one bit doubles its integer modulo 2^128. -/
theorem block_shiftLeft_one_toNat (b : Block) : (b <<< 1).toNat = 2 * b.toNat % 2 ^ 128 := by
  rw [BitVec.toNat_shiftLeft, Nat.shiftLeft_eq, pow_one, Nat.mul_comm]

/-- Settles O47: by the shifted-out bit, DOUBLE is the shift with the reduction constant or the shift alone. -/
theorem cmacDoubleIsShiftWithReduction : Obligations.CmacDoubleIsShiftWithReduction := by
  intro b
  rw [cmacDouble, ← block_shiftLeft_one_toNat]
  by_cases h : b.msb = true
  · rw [if_pos h, if_pos ((block_msb_iff b).mp h), BitVec.toNat_xor]
    rfl
  · rw [if_neg h, if_neg (mt (block_msb_iff b).mpr h)]

/-! ## SETKEY (R190, R195) -/

/-- The valid cipher keys are those of 16, 24 or 32 bytes (R190). -/
theorem validCipherKey_iff (key : List Byte) :
    validCipherKey key = true ↔ key.length = 16 ∨ key.length = 24 ∨ key.length = 32 := by
  simp [validCipherKey, Config.cipherKeyLengths]

/-- SETKEY with a valid key installs the context of the key and ends with OK (R195). -/
theorem cmacSetkey_of_valid (E : Config.Cipher) {key : List Byte} (h : validCipherKey key = true) (s : State) :
    cmacSetkey E key s = (s.setCmac (cmacKeyed E key)).succeed := by
  simp [cmacSetkey, h]

/-- Settles O44: the key is valid, and the context `cmacKeyed` holds the subkeys that CMAC_SUBKEYS derives (R192). -/
theorem cmacSetkeyCompletes : Obligations.CmacSetkeyCompletes := by
  intro key s hlen
  have hset := cmacSetkey_of_valid Config.cipher ((validCipherKey_iff key).mpr hlen) s
  exact congrArg Host.Outcome.next hset

end Sys2Proof.Machine

/-! # Family 44_gmac.md: J0 from the nonce

DERIVE_J0 (R214) has two paths; each is one equation about `deriveJ0`. The string hashed on the second path is whole blocks
because a nonce with its zero padding is, and its trailing 8 bytes read back as the bit length. -/

namespace Sys2Proof.Machine

/-! ## The trailing length bytes and the padding (R9, R54) -/

/-- `BE(BEbytes_n(v)) = v mod 256^n`. -/
theorem beNat_beBytes (n v : Nat) : beNat (beBytes n v) = v % 256 ^ n := by
  rw [beNat, beBytes, List.reverse_reverse, leNat_leBytes]

/-- The last `n` bytes of a string that ends in `BEbytes_n(v)` are those. -/
theorem drop_append_beBytes (bs : List Byte) (n v : Nat) :
    (bs ++ beBytes n v).drop ((bs ++ beBytes n v).length - n) = beBytes n v :=
  List.drop_left' (by simp)

/-- A length completed to a block boundary is a multiple of 16. -/
theorem padded_length_mod (n : Nat) : (n + (16 - n % 16) % 16) % 16 = 0 := by omega

/-! ## DERIVE_J0 (R214) -/

theorem deriveJ0_of_twelve (H : Block) {N : List Byte} (h : N.length = 12) :
    deriveJ0 H N = blockOf (N ++ [0x00, 0x00, 0x00, 0x01]) := if_pos h

theorem deriveJ0_of_ne_twelve (H : Block) {N : List Byte} (h : N.length ≠ 12) :
    deriveJ0 H N = ghash H (N ++ zeros ((16 - N.length % 16) % 16) ++ zeros 8 ++ beBytes 8 (8 * N.length)) := if_neg h

/-- The string that GHASH takes on the second path is whole blocks. -/
theorem j0String_length_mod (N : List Byte) :
    (N ++ zeros ((16 - N.length % 16) % 16) ++ zeros 8 ++ beBytes 8 (8 * N.length)).length % 16 = 0 := by
  have hpad := padded_length_mod N.length
  simp only [List.length_append, zeros_length, beBytes_length]
  omega

/-- Settles O52: the 12-byte nonce with its counter is a 16-byte string, so its block's bytes are the string itself; on the
other path the string is the one of R214, and reading back its trailing bytes gives the bit length modulo `256 ^ 8`. -/
theorem twelveByteNonceIsDirect : Obligations.TwelveByteNonceIsDirect := by
  intro H nonce
  constructor
  · intro h
    rw [deriveJ0_of_twelve H h, blockBytes_blockOf _ (by simp [h])]
  · rintro h D rfl
    refine ⟨deriveJ0_of_ne_twelve H h, j0String_length_mod nonce, ?_⟩
    rw [drop_append_beBytes, beNat_beBytes, show 256 ^ 8 = 2 ^ 64 by norm_num]

end Sys2Proof.Machine

/-! # Family 45_poly1305.md: the key's two halves

R230 reads the key as two 16-byte halves, little-endian. A half is below 2^128, so the 128-bit word that holds it keeps its
value; `s` is the second half as it stands, and `r` is the first under CLAMP, whose bits are listed once. -/

namespace Sys2Proof.Machine

/-- Sixteen bytes read little-endian keep their value in a 128-bit word (R9). -/
theorem ofNat_leNat_sixteen_toNat {bs : List Byte} (h : bs.length = 16) :
    (BitVec.ofNat 128 (leNat bs)).toNat = leNat bs := by
  have hlt : leNat bs < 2 ^ 128 := by
    calc leNat bs < 256 ^ bs.length := leNat_lt bs
      _ = 2 ^ 128 := by rw [h]; norm_num
  rw [BitVec.toNat_ofNat, Nat.mod_eq_of_lt hlt]

/-! ## CLAMP (R230) -/

/-- CLAMP is 1 but at the top nibble of bytes 3, 7, 11, 15 and the low two bits of bytes 4, 8, 12 (R230). -/
theorem polyClamp_getLsbD : ∀ i < 128, polyClamp.getLsbD i =
    (!((i / 8 = 3 || i / 8 = 7 || i / 8 = 11 || i / 8 = 15) && 4 ≤ i % 8) &&
      !((i / 8 = 4 || i / 8 = 8 || i / 8 = 12) && i % 8 < 2)) := by decide

/-- A bit of `r` is the key's bit where CLAMP has a 1. -/
theorem polyR_getLsbD (key : List Byte) {i : Nat} (hi : i < 128) :
    (polyR key).getLsbD i = ((leNat (key.take 16)).testBit i && polyClamp.getLsbD i) := by
  rw [polyR, BitVec.getLsbD_and, BitVec.getLsbD_ofNat, decide_eq_true hi, Bool.true_and]

/-! ## The halves as integers -/

theorem polyR_toNat {key : List Byte} (h : key.length = 32) :
    (polyR key).toNat = leNat (key.take 16) &&& polyClamp.toNat := by
  rw [polyR, BitVec.toNat_and, ofNat_leNat_sixteen_toNat (by simp [h])]

/-- Clamping clears the top nibble, whatever the key. -/
theorem polyR_toNat_lt (key : List Byte) : (polyR key).toNat < 2 ^ 124 := by
  calc (polyR key).toNat ≤ polyClamp.toNat := by rw [polyR, BitVec.toNat_and]; exact Nat.and_le_right
    _ < 2 ^ 124 := by decide

theorem polyS_toNat {key : List Byte} (h : key.length = 32) : (polyS key).toNat = leNat (key.drop 16) := by
  have hlen : (key.drop 16).length = 16 := by simp [h]
  rw [polyS, List.take_of_length_le hlen.le, ofNat_leNat_sixteen_toNat hlen]

/-- Settles O48: the bits of `r` are the key's where CLAMP has a 1, and each half fits its 128-bit word. -/
theorem polyKeyIsSplitAndClamped : Obligations.PolyKeyIsSplitAndClamped := by
  refine ⟨rfl, fun key hlen => ⟨fun i hi => ?_, polyR_toNat_lt key, polyR_toNat hlen, polyS_toNat hlen⟩⟩
  rw [polyR_getLsbD key hi, polyClamp_getLsbD i hi, Bool.and_assoc]

end Sys2Proof.Machine

/-! # Family 60_exceptions.md: the error a command reports, and what an error leaves

The code a command reports is read off R252's list (`reportedError`), operation by operation, from the causes of R251.
`exec_errorStep` then says once, for every command, that it raises that code, or completes with it being OK, or is a
VERIFY that ends with AUTH_FAIL; both obligations are read off it. -/

namespace Sys2Proof.Machine

/-! ## Cells of the phase table -/

/-- No SETKEY is rejected for its phase (R102). -/
theorem lifecycle_setkey_ne_invalidState (u : UnitId) (p : Phase) : lifecycle u .setkey p ≠ .invalidState := by
  cases u <;> cases p <;> decide

theorem lifecycle_zeroize_ne_invalidState (u : UnitId) (p : Phase) : lifecycle u .zeroize p ≠ .invalidState := by
  cases u <;> cases p <;> decide

theorem lifecycle_setnonce_eq_invalidState_iff (p : Phase) :
    lifecycle .gmac .setnonce p = .invalidState ↔ p = .unkeyed := by
  cases p <;> decide

/-- The row of ABSORB, FINALIZE and VERIFY rejects outside ACTIVE, and only there. -/
theorem tableRow_active_eq_invalidState_iff (p q : Phase) :
    tableRow .invalidState .invalidState (.to q) .invalidState p = .invalidState ↔ p ≠ .active := by
  refine ⟨?_, fun h => tableRow_not_active h _⟩
  rintro h rfl
  exact nomatch h

theorem lifecycle_verify_eq_invalidState_iff {u : UnitId} (hu : u ≠ .rmd) (p : Phase) :
    lifecycle u .verify p = .invalidState ↔ p ≠ .active := by
  cases u with
  | rmd => exact absurd rfl hu
  | hmac | cmac | gmac | p1305 => exact tableRow_active_eq_invalidState_iff _ _

/-- RMD is always keyed (R33), so under the invariant no unit is in a phase that the rows of RESET and COMPUTE leave
out. -/
theorem lifecycle_not_keyed_of_inv {s : State} (hi : s.Inv) (u : UnitId) (hp : (s.phaseOf u).isKeyed = false) :
    lifecycle u .reset (s.phaseOf u) = .invalidState ∧ lifecycle u .compute (s.phaseOf u) = .invalidState := by
  cases u with
  | rmd => exact absurd ((Phase.isKeyed_iff _).mpr hi.rmd.phase_legal) (Bool.eq_false_iff.mp hp)
  | hmac | cmac | gmac | p1305 =>
    revert hp
    cases s.phaseOf _ <;> decide

/-! ## The first cause in R252's list -/

/-- The code R252 gives a decoded command: that of the first cause that holds, OK when none does. -/
def reportedError (s : State) (i : Instr) : ErrCode := (errPriority.find? (errCause s i)).getD .ok

theorem getD_find?_cons {α : Type} (p : α → Bool) (a : α) (l : List α) (d : α) :
    ((a :: l).find? p).getD d = if p a = true then a else (l.find? p).getD d := by
  by_cases h : p a = true <;> simp [h]

section Causes

variable (s : State) {i : Instr}

/-- Only a SETKEY has a cause of UNKNOWN_ALG, ALG_MISMATCH or KEY_INVALID (R251). -/
theorem errCause_key_of_op_ne (h : i.op ≠ .setkey) :
    errCause s i .unknownAlg = false ∧ errCause s i .algMismatch = false ∧ errCause s i .keyInvalid = false := by
  cases i with
  | hmacSetkey | cmacSetkey | gmacSetkey | p1305Setkey => exact absurd rfl h
  | _ => exact ⟨rfl, rfl, rfl⟩

/-- Only SETNONCE has a cause of NONCE_INVALID (R251). -/
theorem errCause_nonceInvalid_of_op_ne (h : i.op ≠ .setnonce) : errCause s i .nonceInvalid = false := by
  cases i with
  | gmacSetnonce => exact absurd rfl h
  | _ => rfl

@[simp] theorem errCause_invalidState :
    errCause s i .invalidState = (lifecycle i.unit i.op (s.phaseOf i.unit) == .invalidState) := rfl

@[simp] theorem errCause_tagLength :
    errCause s i .tagLength = (i.op == .verify && i.payload.length != s.outSizeOf i.unit) := rfl

@[simp] theorem errCause_outputTooSmall : errCause s i .outputTooSmall =
    ((i.op == .finalize || i.op == .compute) && decide (capValue i.arg < s.outSizeOf i.unit)) := rfl

@[simp] theorem errCause_msgTooLong :
    errCause s i .msgTooLong = (i.op == .absorb && exceedsMaxMsg (s.countOf i.unit) i.payload.length) := rfl

@[simp] theorem errCause_authFail :
    errCause s i .authFail = (i.op == .verify && s.resultOf i.unit != i.payload) := rfl

/-- R252's list, cause by cause. ILLEGAL is no cause of a decoded command. -/
theorem reportedError_eq : reportedError s i =
    if errCause s i .unknownAlg = true then .unknownAlg
    else if errCause s i .algMismatch = true then .algMismatch
    else if errCause s i .keyInvalid = true then .keyInvalid
    else if errCause s i .invalidState = true then .invalidState
    else if errCause s i .nonceInvalid = true then .nonceInvalid
    else if errCause s i .tagLength = true then .tagLength
    else if errCause s i .outputTooSmall = true then .outputTooSmall
    else if errCause s i .msgTooLong = true then .msgTooLong
    else if errCause s i .authFail = true then .authFail
    else .ok := by
  have hillegal : errCause s i .illegal ≠ true := nofun
  simp only [reportedError, errPriority, getD_find?_cons, if_neg hillegal, List.find?_nil, Option.getD_none]

/-! ### The code by operation -/

theorem reportedError_of_setkey (h : i.op = .setkey) : reportedError s i =
    if errCause s i .unknownAlg = true then .unknownAlg
    else if errCause s i .algMismatch = true then .algMismatch
    else if errCause s i .keyInvalid = true then .keyInvalid
    else .ok := by
  have hnonce := errCause_nonceInvalid_of_op_ne s (h.trans_ne (by decide))
  simp [reportedError_eq, hnonce, h, lifecycle_setkey_ne_invalidState]

theorem reportedError_hmacSetkey (algIn algOut : BitVec 4) (key : List Byte) :
    reportedError s (.hmacSetkey algIn algOut key) =
      if digestDesc Config.extDigest algIn = none ∨ digestDesc Config.extDigest algOut = none then .unknownAlg
      else if algIn ≠ algOut then .algMismatch
      else if (!validHmacKey Config.hmacEmptyKey key) = true then .keyInvalid
      else .ok := by
  have hkey : errCause s (.hmacSetkey algIn algOut key) .keyInvalid = !validHmacKey Config.hmacEmptyKey key := by
    cases key <;> simp [errCause, validHmacKey]
  rw [reportedError_of_setkey s rfl, hkey]
  simp [errCause]

theorem reportedError_gmacSetnonce (nonce : List Byte) : reportedError s (.gmacSetnonce nonce) =
    if s.gmac.phase = .unkeyed then .invalidState
    else if (!validNonce nonce) = true then .nonceInvalid
    else .ok := by
  have hop : (Instr.gmacSetnonce nonce).op = .setnonce := rfl
  have hphase : lifecycle (Instr.gmacSetnonce nonce).unit .setnonce (s.phaseOf (Instr.gmacSetnonce nonce).unit) =
      .invalidState ↔ s.gmac.phase = .unkeyed := lifecycle_setnonce_eq_invalidState_iff _
  have hnonce : errCause s (.gmacSetnonce nonce) .nonceInvalid = !validNonce nonce := by cases nonce <;> rfl
  obtain ⟨halg, hmatch, hkey⟩ := errCause_key_of_op_ne s (hop.trans_ne (by decide))
  simp [reportedError_eq, halg, hmatch, hkey, hop, hphase, hnonce]

/-- Beside SETKEY and SETNONCE the phase comes first, then the checks of the one operation (R104 to R108). -/
theorem reportedError_of_message (hk : i.op ≠ .setkey) (hn : i.op ≠ .setnonce) : reportedError s i =
    if lifecycle i.unit i.op (s.phaseOf i.unit) = .invalidState then .invalidState
    else if i.op = .verify ∧ i.payload.length ≠ s.outSizeOf i.unit then .tagLength
    else if (i.op = .finalize ∨ i.op = .compute) ∧ capValue i.arg < s.outSizeOf i.unit then .outputTooSmall
    else if i.op = .absorb ∧ exceedsMaxMsg (s.countOf i.unit) i.payload.length = true then .msgTooLong
    else if i.op = .verify ∧ s.resultOf i.unit ≠ i.payload then .authFail
    else .ok := by
  obtain ⟨halg, hmatch, hkey⟩ := errCause_key_of_op_ne s hk
  simp [reportedError_eq, halg, hmatch, hkey, errCause_nonceInvalid_of_op_ne s hn]

theorem reportedError_of_reset (hi : s.Inv) (h : i.op = .reset) : reportedError s i =
    if (s.phaseOf i.unit).isKeyed = true then .ok else .invalidState := by
  cases hp : (s.phaseOf i.unit).isKeyed
  · simp [reportedError_of_message, h, (lifecycle_not_keyed_of_inv hi _ hp).1]
  · simp [reportedError_of_message, h, (lifecycle_keyed i.unit hp).1]

theorem reportedError_of_zeroize (h : i.op = .zeroize) : reportedError s i = .ok := by
  simp [reportedError_of_message, h, lifecycle_zeroize_ne_invalidState]

theorem reportedError_of_absorb (h : i.op = .absorb) : reportedError s i =
    if s.phaseOf i.unit ≠ .active then .invalidState
    else if exceedsMaxMsg (s.countOf i.unit) i.payload.length = true then .msgTooLong
    else .ok := by
  have hphase : lifecycle i.unit .absorb (s.phaseOf i.unit) = .invalidState ↔ s.phaseOf i.unit ≠ .active :=
    tableRow_active_eq_invalidState_iff _ _
  simp [reportedError_of_message, h, hphase]

theorem reportedError_of_finalize (h : i.op = .finalize) : reportedError s i =
    if s.phaseOf i.unit ≠ .active then .invalidState
    else if capValue i.arg < s.outSizeOf i.unit then .outputTooSmall
    else .ok := by
  have hphase : lifecycle i.unit .finalize (s.phaseOf i.unit) = .invalidState ↔ s.phaseOf i.unit ≠ .active :=
    tableRow_active_eq_invalidState_iff _ _
  simp [reportedError_of_message, h, hphase]

theorem reportedError_of_compute (hi : s.Inv) (h : i.op = .compute) : reportedError s i =
    if (!(s.phaseOf i.unit).isKeyed) = true then .invalidState
    else if capValue i.arg < s.outSizeOf i.unit then .outputTooSmall
    else .ok := by
  cases hp : (s.phaseOf i.unit).isKeyed
  · simp [reportedError_of_message, h, (lifecycle_not_keyed_of_inv hi _ hp).2]
  · simp [reportedError_of_message, h, (lifecycle_keyed i.unit hp).2]

/-- RMD has no VERIFY (30_encoding.md R74). -/
theorem unit_ne_rmd_of_verify (h : i.op = .verify) : i.unit ≠ .rmd := by
  cases i with
  | hmacVerify | cmacVerify | gmacVerify | p1305Verify => nofun
  | _ => exact nomatch h

theorem reportedError_of_verify (h : i.op = .verify) : reportedError s i =
    if s.phaseOf i.unit ≠ .active then .invalidState
    else if i.payload.length ≠ s.outSizeOf i.unit then .tagLength
    else if i.payload = s.resultOf i.unit then .ok
    else .authFail := by
  have hphase := lifecycle_verify_eq_invalidState_iff (unit_ne_rmd_of_verify h) (s.phaseOf i.unit)
  simp [reportedError_of_message, h, hphase, eq_comm (a := s.resultOf i.unit)]

end Causes

/-! ## How a command reports -/

/-- The three ways command `i` can report in state `s`: it raises a code (R253), it ends with OK (R100), or it is a
VERIFY that finalizes its unit and ends with AUTH_FAIL (R108); where the invariant holds, the code is R252's. -/
inductive ErrorStep (i : Instr) (s : State) : State → Prop where
  | raised (c : ErrCode) (hc : c ≠ .authFail) (h : s.Inv → reportedError s i = c) : ErrorStep i s (s.raise c)
  | completed (s' : State) (h : s.Inv → reportedError s i = .ok) : ErrorStep i s s'.succeed
  | mismatched (s' : State) (hop : i.op = .verify) (hp : s'.phaseOf i.unit = .finalized)
      (h : s.Inv → reportedError s i = .authFail) : ErrorStep i s (s'.setErr .authFail)

/-- The pieces `U` are those of unit `u`, and they keep its count and compute its result. -/
structure UnitShape.Presents {C : Type} (U : UnitShape C) (u : UnitId) : Prop extends U.Serves u, U.OwnsPhase u where
  count : ∀ s, U.count (U.get s) = s.countOf u
  result : ∀ s, (U.final (U.get s)).2 = s.resultOf u

section Shapes

theorem zeroizeShape_errorStep {C : Type} (U : UnitShape C) {i : Instr} (s : State) (hop : i.op = .zeroize) :
    ErrorStep i s (zeroizeShape U s) := .completed _ fun _ => reportedError_of_zeroize s hop

variable {C : Type} {U : UnitShape C} {i : Instr} (hU : U.Presents i.unit) (s : State)
include hU

theorem resetShape_errorStep (hop : i.op = .reset) : ErrorStep i s (resetShape U s) := by
  obtain ⟨hp, h⟩ | ⟨hp, h⟩ := resetShape_cases U s <;> rw [h] <;> rw [hU.phase_get] at hp
  · exact .completed _ fun hi => by simp [reportedError_of_reset s hi hop, hp]
  · exact .raised _ (by decide) fun hi => by simp [reportedError_of_reset s hi hop, hp]

theorem absorbShape_errorStep (hop : i.op = .absorb) : ErrorStep i s (absorbShape U i.payload s) := by
  have hcode := reportedError_of_absorb s hop
  rw [← hU.phase_get, ← hU.count] at hcode
  obtain ⟨hp, h⟩ | ⟨hp, hc, h⟩ | ⟨hp, hc, h⟩ := absorbShape_cases U s i.payload <;> rw [h]
  · exact .raised _ (by decide) fun _ => by simp [hcode, hp]
  · exact .raised _ (by decide) fun _ => by simp [hcode, hp, hc]
  · exact .completed _ fun _ => by simp [hcode, hp, hc]

theorem finalizeShape_errorStep (hop : i.op = .finalize) : ErrorStep i s (finalizeShape U i.arg s) := by
  have hcode := reportedError_of_finalize s hop
  rw [← hU.phase_get, ← hU.outSize] at hcode
  obtain ⟨hp, h⟩ | ⟨hp, hc, h⟩ | ⟨hp, hc, h⟩ := finalizeShape_cases U s i.arg <;> rw [h]
  · exact .raised _ (by decide) fun _ => by simp [hcode, hp]
  · exact .raised _ (by decide) fun _ => by simp [hcode, hp, hc]
  · exact .completed _ fun _ => by simp [hcode, hp, hc]

theorem computeShape_errorStep (hop : i.op = .compute) : ErrorStep i s (computeShape U i.arg i.payload s) := by
  have hcode := fun hi => reportedError_of_compute s hi hop
  rw [← hU.phase_get, ← hU.outSize] at hcode
  obtain ⟨hp, h⟩ | ⟨hp, hc, h⟩ | ⟨hp, hc, h⟩ := computeShape_cases U s i.arg i.payload <;> rw [h]
  · exact .raised _ (by decide) fun hi => by simp [hcode hi, hp]
  · exact .raised _ (by decide) fun hi => by simp [hcode hi, hp, hc]
  · exact .completed _ fun hi => by simp [hcode hi, hp, hc]

/-- VERIFY compares with a result of `L_u` bytes, so its comparison is R251's cause of AUTH_FAIL. -/
theorem verifyShape_errorStep (hop : i.op = .verify) : ErrorStep i s (verifyShape U i.payload s) := by
  have hcode := reportedError_of_verify s hop
  rw [← hU.phase_get, ← hU.outSize, ← hU.result] at hcode
  obtain ⟨hp, h⟩ | ⟨hp, hlen, h⟩ | ⟨hp, hlen, h⟩ := verifyShape_cases U s i.payload <;> rw [h]
  · exact .raised _ (by decide) fun _ => by simp [hcode, hp]
  · exact .raised _ (by decide) fun _ => by simp [hcode, hp, hlen]
  · have hresult : s.Inv → verifyResult (U.final (U.get s)).2 i.payload = reportedError s i := fun hi => by
      have hL : (U.final (U.get s)).2.length = i.payload.length := by
        rw [hU.length s hi (by rw [hp]; rfl), hlen, hU.outSize]
      simp [hcode, hp, hlen, verifyResult_eq _ _ hL]
    rw [verifyResult] at hresult ⊢
    split_ifs at hresult ⊢
    · exact .completed _ fun hi => (hresult hi).symm
    · exact .mismatched _ hop (by rw [hU.phaseOf_put, hU.phase_setPhase]) fun hi => (hresult hi).symm

end Shapes

/-! ### The five units -/

theorem rmdShape_presents : rmdShape.Presents .rmd :=
  { rmdShape_serves, rmdShape_ownsPhase with count := fun _ => rfl, result := fun _ => rfl }

theorem hmacShape_presents : (hmacShape Config.extDigest).Presents .hmac :=
  { hmacShape_serves, hmacShape_ownsPhase _ with count := fun _ => rfl, result := fun _ => rfl }

theorem cmacShape_presents : (cmacShape Config.cipher).Presents .cmac :=
  { cmacShape_serves _, cmacShape_ownsPhase _ with count := fun _ => rfl, result := fun _ => rfl }

theorem gmacShape_presents : (gmacShape Config.cipher).Presents .gmac :=
  { gmacShape_serves _, gmacShape_ownsPhase _ with count := fun _ => rfl, result := fun _ => rfl }

theorem polyShape_presents : polyShape.Presents .p1305 :=
  { polyShape_serves, polyShape_ownsPhase with count := fun _ => rfl, result := fun _ => rfl }

/-! ### SETKEY and SETNONCE -/

theorem hmacSetkey_errorStep (algIn algOut : BitVec 4) (key : List Byte) (s : State) :
    ErrorStep (.hmacSetkey algIn algOut key) s
      (hmacSetkey Config.extDigest Config.hmacEmptyKey algIn algOut key s) := by
  have hcode := reportedError_hmacSetkey s algIn algOut key
  rw [hmacSetkey]
  cases hin : digestDesc Config.extDigest algIn with
  | none =>
    rw [if_pos (.inl hin)] at hcode
    exact .raised _ (by decide) fun _ => hcode
  | some BL =>
    cases hout : digestDesc Config.extDigest algOut with
    | none =>
      rw [if_pos (.inr hout)] at hcode
      exact .raised _ (by decide) fun _ => hcode
    | some BL' =>
      have hknown : ¬(digestDesc Config.extDigest algIn = none ∨ digestDesc Config.extDigest algOut = none) := by
        simp [hin, hout]
      rw [if_neg hknown] at hcode
      split_ifs at hcode ⊢
      · exact .raised _ (by decide) fun _ => hcode
      · exact .raised _ (by decide) fun _ => hcode
      · exact .completed _ fun _ => hcode

/-- SETKEY of the other units checks the key's length alone. -/
theorem setkey_errorStep {i : Instr} (hop : i.op = .setkey) (hunit : i.unit ≠ .hmac) {s : State} {valid : Bool}
    (hkey : errCause s i .keyInvalid = !valid) (s' : State) :
    ErrorStep i s (if (!valid) = true then s.raise .keyInvalid else s'.succeed) := by
  have hcode := reportedError_of_setkey s hop
  obtain ⟨halg, hmatch⟩ : errCause s i .unknownAlg = false ∧ errCause s i .algMismatch = false := by
    cases i with
    | hmacSetkey => exact absurd rfl hunit
    | _ => exact ⟨rfl, rfl⟩
  rw [halg, hmatch, hkey] at hcode
  split_ifs with h
  · exact .raised _ (by decide) fun _ => by simpa [h] using hcode
  · exact .completed _ fun _ => by simpa [h] using hcode

/-- R251's cause of KEY_INVALID for a cipher key is R190's check of its length. -/
theorem cipherKey_cause_eq (key : List Byte) :
    (key.length != 16 && key.length != 24 && key.length != 32) = !validCipherKey key := by
  rw [Bool.eq_iff_iff, Bool.not_eq_true', ← Bool.not_eq_true, validCipherKey_iff]
  simp [not_or, and_assoc]

theorem cmacSetkey_errorStep (key : List Byte) (s : State) :
    ErrorStep (.cmacSetkey key) s (cmacSetkey Config.cipher key s) :=
  setkey_errorStep (i := .cmacSetkey key) (s := s) rfl (by nofun) (cipherKey_cause_eq key) _

theorem gmacSetkey_errorStep (key : List Byte) (s : State) :
    ErrorStep (.gmacSetkey key) s (gmacSetkey Config.cipher key s) :=
  setkey_errorStep (i := .gmacSetkey key) (s := s) rfl (by nofun) (cipherKey_cause_eq key) _

theorem polySetkey_errorStep (key : List Byte) (s : State) : ErrorStep (.p1305Setkey key) s (polySetkey key s) :=
  setkey_errorStep (i := .p1305Setkey key) (s := s) (valid := validPolyKey key) rfl (by nofun) rfl _

theorem gmacSetnonce_errorStep (nonce : List Byte) (s : State) :
    ErrorStep (.gmacSetnonce nonce) s (gmacSetnonce nonce s) := by
  have hcode := reportedError_gmacSetnonce s nonce
  unfold gmacSetnonce
  split_ifs at hcode ⊢
  · exact .raised _ (by decide) fun _ => hcode
  · exact .raised _ (by decide) fun _ => hcode
  · exact .completed _ fun _ => hcode

/-! ### Every command -/

/-- Every command answers a next state and reports in one of the three ways of `ErrorStep` (R252, R253). -/
theorem exec_errorStep (s : State) : ∀ i : Instr, ∃ t, exec i s = .next t ∧ ErrorStep i s t
  | .rmdReset => ⟨_, rfl, resetShape_errorStep rmdShape_presents s rfl⟩
  | .rmdAbsorb _ => ⟨_, rfl, absorbShape_errorStep rmdShape_presents s rfl⟩
  | .rmdFinalize _ => ⟨_, rfl, finalizeShape_errorStep rmdShape_presents s rfl⟩
  | .rmdCompute _ _ => ⟨_, rfl, computeShape_errorStep rmdShape_presents s rfl⟩
  | .rmdZeroize => ⟨_, rfl, zeroizeShape_errorStep _ s rfl⟩
  | .hmacReset => ⟨_, rfl, resetShape_errorStep hmacShape_presents s rfl⟩
  | .hmacSetkey algIn algOut key => ⟨_, rfl, hmacSetkey_errorStep algIn algOut key s⟩
  | .hmacAbsorb _ => ⟨_, rfl, absorbShape_errorStep hmacShape_presents s rfl⟩
  | .hmacFinalize _ => ⟨_, rfl, finalizeShape_errorStep hmacShape_presents s rfl⟩
  | .hmacCompute _ _ => ⟨_, rfl, computeShape_errorStep hmacShape_presents s rfl⟩
  | .hmacVerify _ => ⟨_, rfl, verifyShape_errorStep hmacShape_presents s rfl⟩
  | .hmacZeroize => ⟨_, rfl, zeroizeShape_errorStep _ s rfl⟩
  | .cmacReset => ⟨_, rfl, resetShape_errorStep cmacShape_presents s rfl⟩
  | .cmacSetkey key => ⟨_, rfl, cmacSetkey_errorStep key s⟩
  | .cmacAbsorb _ => ⟨_, rfl, absorbShape_errorStep cmacShape_presents s rfl⟩
  | .cmacFinalize _ => ⟨_, rfl, finalizeShape_errorStep cmacShape_presents s rfl⟩
  | .cmacCompute _ _ => ⟨_, rfl, computeShape_errorStep cmacShape_presents s rfl⟩
  | .cmacVerify _ => ⟨_, rfl, verifyShape_errorStep cmacShape_presents s rfl⟩
  | .cmacZeroize => ⟨_, rfl, zeroizeShape_errorStep _ s rfl⟩
  | .gmacReset => ⟨_, rfl, resetShape_errorStep gmacShape_presents s rfl⟩
  | .gmacSetkey key => ⟨_, rfl, gmacSetkey_errorStep key s⟩
  | .gmacSetnonce nonce => ⟨_, rfl, gmacSetnonce_errorStep nonce s⟩
  | .gmacAbsorb _ => ⟨_, rfl, absorbShape_errorStep gmacShape_presents s rfl⟩
  | .gmacFinalize _ => ⟨_, rfl, finalizeShape_errorStep gmacShape_presents s rfl⟩
  | .gmacCompute _ _ => ⟨_, rfl, computeShape_errorStep gmacShape_presents s rfl⟩
  | .gmacVerify _ => ⟨_, rfl, verifyShape_errorStep gmacShape_presents s rfl⟩
  | .gmacZeroize => ⟨_, rfl, zeroizeShape_errorStep _ s rfl⟩
  | .p1305Reset => ⟨_, rfl, resetShape_errorStep polyShape_presents s rfl⟩
  | .p1305Setkey key => ⟨_, rfl, polySetkey_errorStep key s⟩
  | .p1305Absorb _ => ⟨_, rfl, absorbShape_errorStep polyShape_presents s rfl⟩
  | .p1305Finalize _ => ⟨_, rfl, finalizeShape_errorStep polyShape_presents s rfl⟩
  | .p1305Compute _ _ => ⟨_, rfl, computeShape_errorStep polyShape_presents s rfl⟩
  | .p1305Verify _ => ⟨_, rfl, verifyShape_errorStep polyShape_presents s rfl⟩
  | .p1305Zeroize => ⟨_, rfl, zeroizeShape_errorStep _ s rfl⟩

/-- `exec_errorStep`, read from an answer. -/
theorem errorStep_of_exec {i : Instr} {s t : State} (h : exec i s = .next t) : ErrorStep i s t := by
  obtain ⟨t', ht', hstep⟩ := exec_errorStep s i
  cases ht'.symm.trans h
  exact hstep

/-! ## The obligations -/

/-- AUTH_FAIL is the only code with value 9 (R251). -/
theorem errValue_eq_nine_iff (c : ErrCode) : errValue c = 9 ↔ c = .authFail := by cases c <;> decide

/-- A command that ends with an error code has raised it, but for a VERIFY that ends with AUTH_FAIL (R253). -/
theorem ErrorStep.no_op_of_err {i : Instr} {s t : State} (h : ErrorStep i s t) (herr : t.err ≠ 0) :
    (t.err ≠ 9 → t = { s with err := t.err }) ∧
      (t.err = 9 → i.op = .verify ∧ t.phaseOf i.unit = .finalized) := by
  cases h with
  | raised c hc => exact ⟨fun _ => rfl, fun h9 => absurd ((errValue_eq_nine_iff c).mp h9) hc⟩
  | completed s' => exact absurd rfl herr
  | mismatched s' hop hp => exact ⟨fun h9 => absurd rfl h9, fun _ => ⟨hop, by rw [State.phaseOf_setErr, hp]⟩⟩

/-- Settles O16: a raise writes STATUS.ERR only, and an answer with an error code is an illegal word's raise or one of
the ways of `ErrorStep`. -/
theorem raisedCommandChangesOnlyErr : Obligations.RaisedCommandChangesOnlyErr := by
  refine ⟨State.raise_eq, fun c s t ht herr => ?_⟩
  obtain ⟨i, hd, hi⟩ | ⟨-, rfl⟩ := issue_next_cases ht
  · obtain ⟨hraise, hverify⟩ := (errorStep_of_exec hi).no_op_of_err herr
    exact ⟨hraise, fun h9 => ⟨i, hd, hverify h9⟩⟩
  · exact ⟨fun _ => rfl, fun h9 => nomatch (errValue_eq_nine_iff .illegal).mp h9⟩

/-- Under the invariant a command reports R252's code. -/
theorem ErrorStep.err_eq {i : Instr} {s t : State} (h : ErrorStep i s t) (hi : s.Inv) :
    t.err = errValue (reportedError s i) := by
  cases h with
  | raised c _ h | completed s' h | mismatched s' _ _ h => rw [h hi]; rfl

theorem errCauseOfPair_of_decode {c : Command} {i : Instr} (h : decode c = .ok i) (s : State) :
    errCauseOfPair s c = errCause s i := by
  funext e
  simp only [errCauseOfPair, h]

theorem errCauseOfPair_illegal {c : Command} (h : ¬∃ i, decode c = .ok i) (s : State) :
    errCauseOfPair s c .illegal = true := by
  cases hd : decode c with
  | ok i => exact absurd ⟨i, hd⟩ h
  | error r => simp [errCauseOfPair, hd]

/-- Settles O17: a decoded command reports as `ErrorStep` says, and ILLEGAL heads the list. -/
theorem errorReportedIsFirstInPriority : Obligations.ErrorReportedIsFirstInPriority := by
  intro c s t hinv ht
  obtain ⟨i, hd, hi⟩ | ⟨hno, rfl⟩ := issue_next_cases ht
  · rw [errCauseOfPair_of_decode hd]
    exact (errorStep_of_exec hi).err_eq hinv
  · rw [errPriority, List.find?_cons_of_pos (errCauseOfPair_illegal hno s)]
    rfl

end Sys2Proof.Machine

/-! # Family 70_reset_and_hazards.md: power-on reset

`State.powerOn` keeps the host's channel alone, so whatever is read off the block afterwards is what `State.reset`
gives. -/

namespace Sys2Proof.Machine

/-- UNITSTATE after reset: RMD is ACTIVE and the four MAC units are UNKEYED (R24). -/
theorem unitStateWord_reset : State.reset.unitStateWord = 0x00000002 := by decide

/-- UNITSTATE is made of the units' phases, which power-on takes from `State.reset`. -/
theorem unitStateWord_powerOn (s : State) : s.powerOn.unitStateWord = State.reset.unitStateWord := rfl

/-- Settles O15: the contexts are R39's rows as the model writes them, and each register reads as after `State.reset`. -/
theorem powerOnSetsEveryField : Obligations.PowerOnSetsEveryField := by
  intro s
  have hunits : s.powerOn.unitStateWord = 0x00000002 := (unitStateWord_powerOn s).trans unitStateWord_reset
  have hout : ∀ (i : Nat) (h : i < 64), s.powerOn.out[i] = 0 := fun _ h => Vector.getElem_replicate h
  exact ⟨rfl, hunits, rfl, hout, rfl, rfl, rfl, rfl, rfl, rfl⟩

end Sys2Proof.Machine

/-! # Family other: encoding and decoding are inverse

A command is what `build` makes of its own four fields (`build_fields`), and its encoded word is accepted by its own
pair (`accepts_encode`); the decoder's characterisation `decodeWord_eq_ok_iff` then gives both directions. -/

namespace Sys2Proof

/-- A command is the one that its unit, operation, ARG and payload name (30_encoding.md R74 to R76). -/
theorem build_fields (i : Instr) : build i.unit i.op i.arg i.payload = some i := by
  cases i with
  | hmacSetkey algIn algOut key => simp [Instr.unit, Instr.op, Instr.arg, Instr.payload, build]
  | _ => rfl

/-- A command is well formed iff its payload fits LEN; a command without payload always is. -/
theorem wellFormed_eq_fitsLen (i : Instr) : i.wellFormed = fitsLen i.payload := by cases i <;> rfl

/-- The word of a command is a legal word of the command's pair. -/
theorem accepts_encode (i : Instr) : Accepts i.unit i.op (encode i).word := by
  obtain ⟨-, -, harg, hpayload⟩ := fields_of_build (build_fields i)
  constructor
  case unit => exact unitField_packWord _ _ _ _
  case op => exact opField_packWord _ _ _ _
  case pair => rw [← build_isSome, build_fields, Option.isSome_some]
  case len =>
    intro hn
    rw [if_pos hn] at hpayload
    simp [encode, hpayload]
  case arg =>
    intro hr
    rw [hr] at harg
    simpa [encode] using harg

/-- The encoded pair of a well-formed command passes the boundary check of R70. -/
theorem encode_payload_length {i : Instr} (h : i.wellFormed = true) :
    (encode i).payload.length = lenField (encode i).word := by
  rw [wellFormed_eq_fitsLen] at h
  exact (lenField_packWord _ _ _ _).trans (fitsLen_toNat _ h) |>.symm

/-- Settles O1: the word is accepted by the command's pair, and `build` gives back the command from its fields. -/
theorem decodeOfEncodeIsSame : Obligations.DecodeOfEncodeIsSame := by
  intro i h
  rw [decode_of_length (encode_payload_length h), decodeWord_eq_ok_iff]
  refine ⟨i.unit, i.op, accepts_encode i, ?_⟩
  have harg : argField (encode i).word = i.arg := argField_packWord _ _ _ _
  rw [harg]
  exact build_fields i

/-- Only a pair whose payload has length LEN decodes to a command (R70). -/
theorem payload_length_of_decode {c : Command} {i : Instr} (h : decode c = .ok i) :
    c.payload.length = lenField c.word := by
  by_contra hlen
  rw [decode_of_length_ne hlen] at h
  exact nomatch h

theorem lenField_le (w : Word) : lenField w ≤ Config.lenMax := Nat.le_of_lt_succ (BitVec.isLt _)

/-- Settles O2: the decoded command has the four fields of the word, and a word is its fields. -/
theorem encodeOfDecodeIsSame : Obligations.EncodeOfDecodeIsSame := by
  intro c i h
  have hlen := payload_length_of_decode h
  obtain ⟨hunit, hop, harg, hpayload⟩ := fields_of_decode hlen h
  constructor
  · rw [wellFormed_eq_fitsLen, hpayload, fitsLen, hlen]
    exact decide_eq_true (lenField_le _)
  · rw [encode, hunit, hop, harg, hpayload, hlen, packWord_fields]

/-- Settles O4: the ten words are literals, and the decoder evaluates on each. -/
theorem sampleWordsDecode : Obligations.SampleWordsDecode := ⟨rfl, rfl, rfl, rfl, rfl, rfl, rfl, rfl, rfl, rfl⟩

end Sys2Proof

/-! # The step: pending, idle and placed commands -/

namespace Sys2Proof.Machine

theorem issue_of_decode {c : Command} {i : Instr} (h : decode c = .ok i) (s : State) : issue c s = exec i s := by
  simp only [issue, h]

/-- Settles O7: the step issues the pending pair with the index advanced, and that executes what the pair decodes to. -/
theorem stepRunsDecodedCommand : Obligations.StepRunsDecodedCommand := by
  intro s c i hc hd
  rw [step_of_pending hc, issue_of_decode hd]
  rfl

theorem step_of_idle {s : State} (h : s.cmds[s.pos]? = none) : step s = .next s := by
  simp [step, stepChannel, fetch, h]

/-- Settles O9: with no command pending the step takes the idle branch. -/
theorem idleStepHoldsState : Obligations.IdleStepHoldsState := fun _ => step_of_idle

/-- A pair is answered with a next state, or refused for its length (R70, R77). -/
theorem issue_next_or_refused (c : Command) (s : State) :
    (∃ t, issue c s = .next t) ∨ (issue c s = .refused .payloadLength ∧ c.payload.length ≠ lenField c.word) := by
  by_cases hlen : c.payload.length = lenField c.word
  · left
    by_cases hd : ∃ i, decode c = .ok i
    · obtain ⟨i, hd⟩ := hd
      obtain ⟨t, ht, -⟩ := exec_ending s i
      exact ⟨t, (issue_of_decode hd s).trans ht⟩
    · exact ⟨_, issue_of_illegal hlen hd s⟩
  · right
    exact ⟨by simp only [issue, decode_of_length_ne hlen], hlen⟩

/-- Settles O10: every command answers a next state, and an idle step does. -/
theorem stepNextUnlessLengthDiffers : Obligations.StepNextUnlessLengthDiffers := by
  refine ⟨fun i s => (exec_ending s i).imp fun _ h => h.1, fun s => ?_⟩
  cases hc : s.cmds[s.pos]? with
  | none => exact .inl ⟨s, step_of_idle hc⟩
  | some c =>
    rw [step_of_pending hc]
    exact (issue_next_or_refused c s.advance).imp_right fun ⟨href, hlen⟩ => ⟨href, c, rfl, hlen⟩

/-- The placed command is the one at the index. -/
theorem placeAt_getElem? {α : Type} (x : α) (l : List α) (n : Nat) : (placeAt x l n)[n]? = some x := by
  induction n generalizing l with
  | zero => cases l <;> rfl
  | succ n ih =>
    cases l with
    | nil => exact ih []
    | cons _ l => exact ih l

theorem decode_of_decodeTableWord {nbits w : Nat} {i : Instr} (h : decodeTableWord nbits w = some i) :
    decode (tableCommand nbits w) = .ok i := by
  rw [decodeTableWord] at h
  split at h
  · next hd => rw [hd, Option.some.inj h]
  · exact nomatch h

/-- Settles O11: the placed pair is the pending one, and it decodes to `i`. -/
theorem withFetchWordRunsTableWord : Obligations.WithFetchWordRunsTableWord := fun s nbits w i h =>
  stepRunsDecodedCommand (s.withFetchWord nbits w) (tableCommand nbits w) i (placeAt_getElem? _ s.cmds s.pos)
    (decode_of_decodeTableWord h)

end Sys2Proof.Machine

/-! # The five units as one family

`shapeOf u` is unit `u`'s pieces of the common shapes. `exec_form` says once which shape each of the 34 commands is;
what a command writes and reads (`LocalEffect`) and what becomes of its unit's context (`UnitStep`) are read off it. -/

namespace Sys2Proof.Machine

/-! ## Contexts and shapes by unit -/

/-- The type of a unit's context (10_state.md R27 to R32). -/
def UnitCtx : UnitId → Type
  | .rmd => RmdUnit
  | .hmac => HmacUnit
  | .cmac => CmacUnit
  | .gmac => GmacUnit
  | .p1305 => PolyUnit

/-- A unit's pieces of the common shapes, with the OPEN parameters the arms of `exec` give it. -/
def shapeOf : (u : UnitId) → UnitShape (UnitCtx u)
  | .rmd => rmdShape
  | .hmac => hmacShape Config.extDigest
  | .cmac => cmacShape Config.cipher
  | .gmac => gmacShape Config.cipher
  | .p1305 => polyShape

/-- The context of a unit. -/
def State.ctxOf (s : State) (u : UnitId) : UnitCtx u := (shapeOf u).get s

theorem shapeOf_streams (u : UnitId) : (shapeOf u).Streams :=
  match u with
  | .rmd => rmdShape_streams
  | .hmac => hmacShape_streams _
  | .cmac => cmacShape_streams _
  | .gmac => gmacShape_streams _
  | .p1305 => polyShape_streams

theorem shapeOf_presents (u : UnitId) : (shapeOf u).Presents u :=
  match u with
  | .rmd => rmdShape_presents
  | .hmac => hmacShape_presents
  | .cmac => cmacShape_presents
  | .gmac => gmacShape_presents
  | .p1305 => polyShape_presents

theorem sameUnit_iff (u : UnitId) (s t : State) : sameUnit u s t ↔ s.ctxOf u = t.ctxOf u := by cases u <;> rfl

theorem phase_ctxOf (u : UnitId) (s : State) : (shapeOf u).phase (s.ctxOf u) = s.phaseOf u :=
  (shapeOf_presents u).phase_get s

theorem outSize_ctxOf (u : UnitId) (s : State) : (shapeOf u).outSize (s.ctxOf u) = s.outSizeOf u :=
  (shapeOf_presents u).outSize s

@[simp] theorem ctxOf_put (u : UnitId) (s : State) (c : UnitCtx u) : ((shapeOf u).put s c).ctxOf u = c := by
  cases u <;> rfl

/-- A unit's `put` writes no other unit's context: of the 25 pairs of units, 20 hold by definition and `h` rules out 5. -/
theorem ctxOf_put_of_ne {u v : UnitId} (h : v ≠ u) (s : State) (c : UnitCtx u) :
    ((shapeOf u).put s c).ctxOf v = s.ctxOf v := by
  cases u <;> cases v <;> trivial

@[simp] theorem ctxOf_setErr (u : UnitId) (s : State) (e : ErrCode) : (s.setErr e).ctxOf u = s.ctxOf u := by
  cases u <;> rfl

@[simp] theorem ctxOf_raise (u : UnitId) (s : State) (e : ErrCode) : (s.raise e).ctxOf u = s.ctxOf u :=
  ctxOf_setErr u s e

@[simp] theorem ctxOf_succeed (u : UnitId) (s : State) : s.succeed.ctxOf u = s.ctxOf u := ctxOf_setErr u s .ok

@[simp] theorem ctxOf_writeResult (u : UnitId) (s : State) (T : List Byte) (L : Nat) :
    (s.writeResult T L).ctxOf u = s.ctxOf u := by
  cases u <;> rfl

@[simp] theorem ctxOf_advance (u : UnitId) (s : State) : s.advance.ctxOf u = s.ctxOf u := by cases u <;> rfl

/-- A result produced from a context leaves the finalized context in the unit. -/
theorem ctxOf_produce (u : UnitId) (c : UnitCtx u) (s : State) :
    (produce (shapeOf u) c s).ctxOf u = (shapeOf u).setPhase ((shapeOf u).final c).1 .finalized := by
  simp only [produce, ctxOf_succeed, ctxOf_writeResult, ctxOf_put]

@[simp] theorem resetInstr_unit (u : UnitId) : (resetInstr u).unit = u := by cases u <;> rfl
@[simp] theorem absorbInstr_unit (u : UnitId) (d : List Byte) : (absorbInstr u d).unit = u := by cases u <;> rfl
@[simp] theorem finalizeInstr_unit (u : UnitId) (cap : BitVec 8) : (finalizeInstr u cap).unit = u := by cases u <;> rfl
@[simp] theorem computeInstr_unit (u : UnitId) (cap : BitVec 8) (d : List Byte) : (computeInstr u cap d).unit = u := by
  cases u <;> rfl

/-! ## What each command is -/

/-- SETKEY or SETNONCE with some operands may replace the unit's context `c` by `c'` (R175, R195, R217, R218, R235). -/
inductive Installs : (u : UnitId) → UnitCtx u → UnitCtx u → Prop where
  | hmacKey (c : HmacUnit) {a : BitVec 4} {B L : Nat} (key : List Byte)
      (h : digestDesc Config.extDigest a = some (B, L)) :
      Installs .hmac c (hmacKeyed Config.extDigest a B L key)
  | cmacKey (c : CmacUnit) {key : List Byte} (h : validCipherKey key = true) :
      Installs .cmac c (cmacKeyed Config.cipher key)
  | gmacKey (c : GmacUnit) {key : List Byte} (h : validCipherKey key = true) :
      Installs .gmac c (gmacKeyed Config.cipher key)
  | gmacNonce (c : GmacUnit) (nonce : List Byte) (h : c.phase ≠ .unkeyed) : Installs .gmac c (gmacNonced c nonce)
  | p1305Key (c : PolyUnit) (key : List Byte) : Installs .p1305 c (polyKeyed key)

/-- `f` is what command `i` does to a state: one of the common shapes of its unit (R103 to R109), or a SETKEY or
SETNONCE, which raises an error or installs another context, as its operands and its unit's context say. -/
inductive Form : Instr → (State → State) → Prop where
  | reset (u : UnitId) : Form (resetInstr u) (resetShape (shapeOf u))
  | absorb (u : UnitId) (data : List Byte) : Form (absorbInstr u data) (absorbShape (shapeOf u) data)
  | finalize (u : UnitId) (cap : BitVec 8) : Form (finalizeInstr u cap) (finalizeShape (shapeOf u) cap)
  | compute (u : UnitId) (cap : BitVec 8) (data : List Byte) :
      Form (computeInstr u cap data) (computeShape (shapeOf u) cap data)
  | verify (i : Instr) (tag : List Byte) (h : verifyInstr i.unit tag = some i) :
      Form i (verifyShape (shapeOf i.unit) tag)
  | zeroize (i : Instr) (h : i.op = .zeroize) : Form i (zeroizeShape (shapeOf i.unit))
  | install (i : Instr) (f : State → State) (code : UnitCtx i.unit → Option ErrCode)
      (new : UnitCtx i.unit → UnitCtx i.unit)
      (hraise : ∀ s e, code (s.ctxOf i.unit) = some e → f s = s.raise e)
      (hput : ∀ s, code (s.ctxOf i.unit) = none → f s = ((shapeOf i.unit).put s (new (s.ctxOf i.unit))).succeed)
      (h : ∀ c, code c = none → Installs i.unit c (new c)) : Form i f

/-! ### SETKEY and SETNONCE -/

/-- SETKEY with a known digest code, given twice, and an acceptable key installs the context of the key (R175). -/
theorem hmacSetkey_of_valid {R : Config.Registry} {emptyOk : Bool} {a : BitVec 4} {B L : Nat} {key : List Byte}
    (hdesc : digestDesc R a = some (B, L)) (hkey : validHmacKey emptyOk key = true) (s : State) :
    hmacSetkey R emptyOk a a key s = (s.setHmac (hmacKeyed R a B L key)).succeed := by
  simp [hmacSetkey, hdesc, hkey]

theorem hmacSetkey_form (algIn algOut : BitVec 4) (key : List Byte) :
    Form (.hmacSetkey algIn algOut key) (hmacSetkey Config.extDigest Config.hmacEmptyKey algIn algOut key) := by
  have raises (e : ErrCode) {f : State → State} (h : ∀ s, f s = s.raise e) : Form (.hmacSetkey algIn algOut key) f :=
    .install _ _ (fun _ => some e) id (fun s _ he => Option.some.inj he ▸ h s) (fun _ h => nomatch h)
      (fun _ h => nomatch h)
  cases hin : digestDesc Config.extDigest algIn with
  | none => exact raises .unknownAlg fun s => by simp only [hmacSetkey, hin]
  | some BL =>
    cases hout : digestDesc Config.extDigest algOut with
    | none => exact raises .unknownAlg fun s => by simp only [hmacSetkey, hin, hout]
    | some BL' =>
      by_cases halg : algIn = algOut
      · subst halg
        cases hkey : validHmacKey Config.hmacEmptyKey key with
        | false => exact raises .keyInvalid fun s => by simp [hmacSetkey, hin, hkey]
        | true =>
          exact .install (.hmacSetkey algIn algIn key) _ (fun _ => none)
            (fun _ => hmacKeyed Config.extDigest algIn BL.1 BL.2 key) (fun _ _ h => nomatch h)
            (fun s _ => hmacSetkey_of_valid hin hkey s) fun c _ => .hmacKey c key hin
      · exact raises .algMismatch fun s => by simp [hmacSetkey, hin, hout, halg]

/-- SETKEY of the other units checks the key alone. -/
theorem setkey_form {i : Instr} {f : State → State} (valid : Bool) (new : UnitCtx i.unit)
    (hf : ∀ s, f s = if (!valid) = true then s.raise .keyInvalid else ((shapeOf i.unit).put s new).succeed)
    (h : ∀ c, valid = true → Installs i.unit c new) : Form i f := by
  refine .install i f (fun _ => if valid then none else some .keyInvalid) (fun _ => new) (fun s e he => ?_)
    (fun s he => ?_) fun c he => h c ?_
  · cases valid with
    | true => exact nomatch he
    | false => rw [hf, ← Option.some.inj he]; rfl
  · cases valid with
    | true => exact hf s
    | false => exact nomatch he
  · cases valid with
    | true => rfl
    | false => exact nomatch he

theorem gmacSetnonce_form (nonce : List Byte) : Form (.gmacSetnonce nonce) (gmacSetnonce nonce) := by
  refine .install (.gmacSetnonce nonce) _
    (fun c : GmacUnit => if c.phase = .unkeyed then some .invalidState
      else if !validNonce nonce then some .nonceInvalid else none)
    (fun c : GmacUnit => gmacNonced c nonce) (fun s e he => ?_) (fun s he => ?_) fun c he => .gmacNonce c nonce ?_
  · change (if s.gmac.phase = .unkeyed then _ else _) = _ at he
    rw [gmacSetnonce]
    split_ifs at he ⊢ <;> rw [Option.some.inj he]
  · change (if s.gmac.phase = .unkeyed then _ else _) = _ at he
    rw [gmacSetnonce]
    split_ifs at he ⊢
    rfl
  · intro hp
    rw [if_pos hp] at he
    exact nomatch he

/-! ### Every command -/

/-- Every command answers the next state that its form gives (R74, R100). -/
theorem exec_form : ∀ i : Instr, ∃ f, (∀ s, exec i s = .next (f s)) ∧ Form i f
  | .rmdReset => ⟨_, fun _ => rfl, .reset .rmd⟩
  | .rmdAbsorb data => ⟨_, fun _ => rfl, .absorb .rmd data⟩
  | .rmdFinalize cap => ⟨_, fun _ => rfl, .finalize .rmd cap⟩
  | .rmdCompute cap data => ⟨_, fun _ => rfl, .compute .rmd cap data⟩
  | .rmdZeroize => ⟨_, fun _ => rfl, .zeroize .rmdZeroize rfl⟩
  | .hmacReset => ⟨_, fun _ => rfl, .reset .hmac⟩
  | .hmacSetkey algIn algOut key => ⟨_, fun _ => rfl, hmacSetkey_form algIn algOut key⟩
  | .hmacAbsorb data => ⟨_, fun _ => rfl, .absorb .hmac data⟩
  | .hmacFinalize cap => ⟨_, fun _ => rfl, .finalize .hmac cap⟩
  | .hmacCompute cap data => ⟨_, fun _ => rfl, .compute .hmac cap data⟩
  | .hmacVerify tag => ⟨_, fun _ => rfl, .verify (.hmacVerify tag) tag rfl⟩
  | .hmacZeroize => ⟨_, fun _ => rfl, .zeroize .hmacZeroize rfl⟩
  | .cmacReset => ⟨_, fun _ => rfl, .reset .cmac⟩
  | .cmacSetkey key => ⟨_, fun _ => rfl, setkey_form (i := .cmacSetkey key) _ _ (fun _ => rfl) fun c => .cmacKey c⟩
  | .cmacAbsorb data => ⟨_, fun _ => rfl, .absorb .cmac data⟩
  | .cmacFinalize cap => ⟨_, fun _ => rfl, .finalize .cmac cap⟩
  | .cmacCompute cap data => ⟨_, fun _ => rfl, .compute .cmac cap data⟩
  | .cmacVerify tag => ⟨_, fun _ => rfl, .verify (.cmacVerify tag) tag rfl⟩
  | .cmacZeroize => ⟨_, fun _ => rfl, .zeroize .cmacZeroize rfl⟩
  | .gmacReset => ⟨_, fun _ => rfl, .reset .gmac⟩
  | .gmacSetkey key => ⟨_, fun _ => rfl, setkey_form (i := .gmacSetkey key) _ _ (fun _ => rfl) fun c => .gmacKey c⟩
  | .gmacSetnonce nonce => ⟨_, fun _ => rfl, gmacSetnonce_form nonce⟩
  | .gmacAbsorb data => ⟨_, fun _ => rfl, .absorb .gmac data⟩
  | .gmacFinalize cap => ⟨_, fun _ => rfl, .finalize .gmac cap⟩
  | .gmacCompute cap data => ⟨_, fun _ => rfl, .compute .gmac cap data⟩
  | .gmacVerify tag => ⟨_, fun _ => rfl, .verify (.gmacVerify tag) tag rfl⟩
  | .gmacZeroize => ⟨_, fun _ => rfl, .zeroize .gmacZeroize rfl⟩
  | .p1305Reset => ⟨_, fun _ => rfl, .reset .p1305⟩
  | .p1305Setkey key =>
    ⟨_, fun _ => rfl, setkey_form (i := .p1305Setkey key) _ _ (fun _ => rfl) fun c _ => .p1305Key c key⟩
  | .p1305Absorb data => ⟨_, fun _ => rfl, .absorb .p1305 data⟩
  | .p1305Finalize cap => ⟨_, fun _ => rfl, .finalize .p1305 cap⟩
  | .p1305Compute cap data => ⟨_, fun _ => rfl, .compute .p1305 cap data⟩
  | .p1305Verify tag => ⟨_, fun _ => rfl, .verify (.p1305Verify tag) tag rfl⟩
  | .p1305Zeroize => ⟨_, fun _ => rfl, .zeroize .p1305Zeroize rfl⟩

end Sys2Proof.Machine

/-! # What a command touches and reads, and units that do not interfere -/

namespace Sys2Proof.Machine

/-! ## Effects that stay within a unit -/

/-- The state function `f` is a command's of unit `u`: it writes no other unit's context, and what it leaves in `u`, in
STATUS.ERR and in the result registers depends on `u`'s context (and on OUT and OUTLEN for the last) alone (R100). -/
structure LocalEffect (u : UnitId) (f : State → State) : Prop where
  frame : ∀ s v, v ≠ u → (f s).ctxOf v = s.ctxOf v
  reads : ∀ s₁ s₂, s₁.ctxOf u = s₂.ctxOf u → (f s₁).ctxOf u = (f s₂).ctxOf u ∧ (f s₁).err = (f s₂).err ∧
    (s₁.out = s₂.out → s₁.outlen = s₂.outlen → (f s₁).out = (f s₂).out ∧ (f s₁).outlen = (f s₂).outlen)

theorem LocalEffect.raise (u : UnitId) (e : ErrCode) : LocalEffect u (·.raise e) where
  frame s v _ := ctxOf_raise v s e
  reads _ _ h := ⟨by rw [ctxOf_raise, ctxOf_raise, h], rfl, fun ho hl => ⟨ho, hl⟩⟩

theorem LocalEffect.put {u : UnitId} (new : UnitCtx u → UnitCtx u) (code : UnitCtx u → ErrCode) :
    LocalEffect u fun s => ((shapeOf u).put s (new (s.ctxOf u))).setErr (code (s.ctxOf u)) where
  frame s v hv := by rw [ctxOf_setErr, ctxOf_put_of_ne hv]
  reads s₁ s₂ h := by
    have hregs (s : State) := (shapeOf_presents u).put s (new (s.ctxOf u))
    refine ⟨by simp only [ctxOf_setErr, ctxOf_put, h], by simp only [State.setErr_err, h], fun ho hl => ?_⟩
    simp only [State.setErr_out, State.setErr_outlen, (hregs _).out, (hregs _).outlen, ho, hl, and_self]

theorem LocalEffect.produce {u : UnitId} (new : UnitCtx u → UnitCtx u) :
    LocalEffect u fun s => produce (shapeOf u) (new (s.ctxOf u)) s where
  frame s v hv := by rw [Machine.produce, ctxOf_succeed, ctxOf_writeResult, ctxOf_put_of_ne hv]
  reads s₁ s₂ h := by
    have hregs (s : State) (c : UnitCtx u) := (shapeOf_presents u).put s c
    refine ⟨by rw [ctxOf_produce, ctxOf_produce, h], rfl, fun ho _ => ?_⟩
    simp only [Machine.produce, State.succeed_out, State.succeed_outlen, State.writeResult_out,
      State.writeResult_outlen, (hregs _ _).out, ho, h, and_self]

/-- A choice by the unit's context. -/
theorem LocalEffect.ite {u : UnitId} (p : UnitCtx u → Prop) [DecidablePred p] {f g : State → State}
    (hf : LocalEffect u f) (hg : LocalEffect u g) : LocalEffect u fun s => if p (s.ctxOf u) then f s else g s where
  frame s v hv := by
    by_cases hp : p (s.ctxOf u)
    · simpa only [if_pos hp] using hf.frame s v hv
    · simpa only [if_neg hp] using hg.frame s v hv
  reads s₁ s₂ h := by
    by_cases hp : p (s₂.ctxOf u)
    · simpa only [h, if_pos hp] using hf.reads s₁ s₂ h
    · simpa only [h, if_neg hp] using hg.reads s₁ s₂ h

/-- An effect that, as the unit's context says, raises an error or installs another context. -/
theorem LocalEffect.install {u : UnitId} {f : State → State} {code : UnitCtx u → Option ErrCode}
    {new : UnitCtx u → UnitCtx u} (hraise : ∀ s e, code (s.ctxOf u) = some e → f s = s.raise e)
    (hput : ∀ s, code (s.ctxOf u) = none → f s = ((shapeOf u).put s (new (s.ctxOf u))).succeed) : LocalEffect u f where
  frame s v hv := by
    cases hc : code (s.ctxOf u) with
    | none => rw [hput s hc, ctxOf_succeed, ctxOf_put_of_ne hv]
    | some e => rw [hraise s e hc, ctxOf_raise]
  reads s₁ s₂ h := by
    cases hc : code (s₂.ctxOf u) with
    | none =>
      rw [hput s₁ (h ▸ hc), hput s₂ hc]
      exact (LocalEffect.put new fun _ => .ok).reads s₁ s₂ h
    | some e =>
      rw [hraise s₁ e (h ▸ hc), hraise s₂ e hc]
      exact (LocalEffect.raise u e).reads s₁ s₂ h

/-- The effect of every command stays within its unit. -/
theorem Form.localEffect {i : Instr} {f : State → State} (h : Form i f) : LocalEffect i.unit f := by
  cases h with
  | reset u =>
    rw [resetInstr_unit]
    exact .ite (fun c => ((shapeOf u).phase c).isKeyed = true)
      (.put (fun c => (shapeOf u).setPhase ((shapeOf u).init c) .active) fun _ => .ok) (.raise _ _)
  | absorb u data =>
    rw [absorbInstr_unit]
    exact .ite (fun c => (shapeOf u).phase c ≠ .active) (.raise _ _)
      (.ite (fun c => exceedsMaxMsg ((shapeOf u).count c) data.length = true) (.raise _ _)
        (.put (fun c => (shapeOf u).absorb c data) fun _ => .ok))
  | finalize u cap =>
    rw [finalizeInstr_unit]
    exact .ite (fun c => (shapeOf u).phase c ≠ .active) (.raise _ _)
      (.ite (fun c => capValue cap < (shapeOf u).outSize c) (.raise _ _) (.produce id))
  | compute u cap data =>
    rw [computeInstr_unit]
    exact .ite (fun c => (!((shapeOf u).phase c).isKeyed) = true) (.raise _ _)
      (.ite (fun c => capValue cap < (shapeOf u).outSize c) (.raise _ _)
        (.produce fun c => (shapeOf u).absorb ((shapeOf u).init c) data))
  | verify i tag =>
    exact .ite (fun c => (shapeOf i.unit).phase c ≠ .active) (.raise _ _)
      (.ite (fun c => tag.length ≠ (shapeOf i.unit).outSize c) (.raise _ _)
        (.put (fun c => (shapeOf i.unit).setPhase ((shapeOf i.unit).final c).1 .finalized)
          fun c => verifyResult ((shapeOf i.unit).final c).2 tag))
  | zeroize i => exact .put (fun _ => (shapeOf i.unit).zero) fun _ => .ok
  | install i f code new hraise hput => exact .install hraise hput

theorem exec_localEffect (i : Instr) : ∃ f, (∀ s, exec i s = .next (f s)) ∧ LocalEffect i.unit f :=
  (exec_form i).imp fun _ ⟨hf, h⟩ => ⟨hf, h.localEffect⟩

/-- A command leaves the context of every unit but its own. -/
theorem ctxOf_exec_of_ne {i : Instr} {s t : State} (h : exec i s = .next t) {u : UnitId} (hu : u ≠ i.unit) :
    t.ctxOf u = s.ctxOf u := by
  obtain ⟨f, hf, hloc⟩ := exec_localEffect i
  cases (hf s).symm.trans h
  exact hloc.frame s u hu

/-- Settles O19: the frame of a local effect, and the channel from `Ending`. -/
theorem commandTouchesOnlyItsUnit : Obligations.CommandTouchesOnlyItsUnit := fun _ _ _ h =>
  ⟨fun u hu => (sameUnit_iff u _ _).mpr (ctxOf_exec_of_ne h hu).symm, (ending_of_exec h).channel⟩

/-- Settles O20: the two runs apply one local effect. -/
theorem commandReadsOnlyItsUnit : Obligations.CommandReadsOnlyItsUnit := by
  intro i s₁ s₂ t₁ t₂ hsame h₁ h₂
  obtain ⟨f, hf, hloc⟩ := exec_localEffect i
  cases (hf s₁).symm.trans h₁
  cases (hf s₂).symm.trans h₂
  rw [sameUnit_iff] at *
  exact hloc.reads s₁ s₂ hsame

/-! ## Sequences of commands -/

/-- A sequence of commands always answers a next state (R101). -/
theorem execAll_next (is : List Instr) (s : State) : ∃ t, execAll is s = .next t := by
  induction is generalizing s with
  | nil => exact ⟨s, rfl⟩
  | cons i is ih =>
    obtain ⟨t, ht, -⟩ := exec_ending s i
    rw [execAll_cons_of_next ht]
    exact ih t

/-- From states that agree on `u`, a sequence and its commands for `u` alone leave the same context in `u`. -/
theorem ctxOf_execAll_filter {u : UnitId} {is : List Instr} {s s' t t' : State} (hs : s.ctxOf u = s'.ctxOf u)
    (h : execAll is s = .next t) (h' : execAll (is.filter fun i => i.unit = u) s' = .next t') :
    t.ctxOf u = t'.ctxOf u := by
  induction is generalizing s s' with
  | nil =>
    cases h
    cases h'
    exact hs
  | cons i is ih =>
    obtain ⟨t₁, ht₁, -⟩ := exec_ending s i
    rw [execAll_cons_of_next ht₁] at h
    by_cases hu : i.unit = u
    · obtain ⟨t₂, ht₂, -⟩ := exec_ending s' i
      rw [List.filter_cons_of_pos (by simpa using hu), execAll_cons_of_next ht₂] at h'
      subst hu
      obtain ⟨hsame, -⟩ := commandReadsOnlyItsUnit i s s' t₁ t₂ ((sameUnit_iff _ _ _).mpr hs) ht₁ ht₂
      exact ih ((sameUnit_iff _ _ _).mp hsame) h h'
    · rw [List.filter_cons_of_neg (by simpa using hu)] at h'
      exact ih ((ctxOf_exec_of_ne ht₁ (Ne.symm hu)).trans hs) h h'

/-- Settles O21: by induction over the sequence, command by command the unit's own or another's. -/
theorem unitDependsOnOwnCommandsOnly : Obligations.UnitDependsOnOwnCommandsOnly := fun u _ s _ _ h h' =>
  (sameUnit_iff u _ _).mpr (ctxOf_execAll_filter (s := s) rfl h h')

/-- An interleaving with elements that a filter drops is filtered as the other list is. -/
theorem Interleaves.filter_eq {α : Type} {p : α → Bool} {a b m : List α} (h : Interleaves a b m)
    (hb : ∀ x ∈ b, p x = false) : m.filter p = a.filter p := by
  induction h with
  | done => rfl
  | left x _ ih => rw [List.filter_cons, List.filter_cons, ih hb]
  | right x _ ih =>
    rw [List.filter_cons_of_neg (by simp [hb x List.mem_cons_self])]
    exact ih fun y hy => hb y (List.mem_cons_of_mem x hy)

/-- Settles O22: the merged sequence and the first host's have the same commands for the unit. -/
theorem disjointHostsDoNotInterfere : Obligations.DisjointHostsDoNotInterfere := by
  intro u a b m s t t' hm hb h h'
  have hown : m.filter (fun i => i.unit = u) = a.filter (fun i => i.unit = u) :=
    hm.filter_eq fun i hi => decide_eq_false (hb i hi)
  obtain ⟨t₀, h₀⟩ := execAll_next (a.filter fun i => i.unit = u) s
  rw [sameUnit_iff]
  exact (ctxOf_execAll_filter rfl h (hown ▸ h₀)).trans (ctxOf_execAll_filter rfl h' h₀).symm

end Sys2Proof.Machine

/-! # Invariants

`UnitStep` lists what can become of the context of the unit a command addresses. A property of contexts that these steps
keep (`KeptBy`) is kept by every command, and so by every step: `step_keeps`. -/

namespace Sys2Proof.Machine

/-- What can become of the context `c` of the unit a command addresses (R100 to R109). -/
inductive UnitStep {u : UnitId} (c : UnitCtx u) : UnitCtx u → Prop where
  | unchanged : UnitStep c c
  | restarted (hp : ((shapeOf u).phase c).isKeyed = true) :
      UnitStep c ((shapeOf u).setPhase ((shapeOf u).init c) .active)
  | absorbed (hp : (shapeOf u).phase c = .active) (data : List Byte) : UnitStep c ((shapeOf u).absorb c data)
  | finalized (hp : (shapeOf u).phase c = .active) :
      UnitStep c ((shapeOf u).setPhase ((shapeOf u).final c).1 .finalized)
  | computed (hp : ((shapeOf u).phase c).isKeyed = true) (data : List Byte) :
      UnitStep c ((shapeOf u).setPhase ((shapeOf u).final ((shapeOf u).absorb ((shapeOf u).init c) data)).1 .finalized)
  | installed {c' : UnitCtx u} (h : Installs u c c') : UnitStep c c'
  | zeroized : UnitStep c (shapeOf u).zero

theorem Form.unitStep {i : Instr} {f : State → State} (h : Form i f) (s : State) :
    UnitStep (s.ctxOf i.unit) ((f s).ctxOf i.unit) := by
  have unchanged (e : ErrCode) : UnitStep (s.ctxOf i.unit) ((s.raise e).ctxOf i.unit) := by
    rw [ctxOf_raise]
    exact .unchanged
  cases h with
  | reset u =>
    rw [resetInstr_unit] at *
    obtain ⟨hp, h⟩ | ⟨-, h⟩ := resetShape_cases (shapeOf u) s <;> rw [h]
    · rw [ctxOf_succeed, ctxOf_put]
      exact .restarted hp
    · exact unchanged _
  | absorb u data =>
    rw [absorbInstr_unit] at *
    obtain ⟨-, h⟩ | ⟨-, -, h⟩ | ⟨hp, -, h⟩ := absorbShape_cases (shapeOf u) s data <;> rw [h]
    · exact unchanged _
    · exact unchanged _
    · rw [ctxOf_succeed, ctxOf_put]
      exact .absorbed hp data
  | finalize u cap =>
    rw [finalizeInstr_unit] at *
    obtain ⟨-, h⟩ | ⟨-, -, h⟩ | ⟨hp, -, h⟩ := finalizeShape_cases (shapeOf u) s cap <;> rw [h]
    · exact unchanged _
    · exact unchanged _
    · rw [ctxOf_produce]
      exact .finalized hp
  | compute u cap data =>
    rw [computeInstr_unit] at *
    obtain ⟨-, h⟩ | ⟨-, -, h⟩ | ⟨hp, -, h⟩ := computeShape_cases (shapeOf u) s cap data <;> rw [h]
    · exact unchanged _
    · exact unchanged _
    · rw [ctxOf_produce]
      exact .computed hp data
  | verify i tag =>
    obtain ⟨-, h⟩ | ⟨-, -, h⟩ | ⟨hp, -, h⟩ := verifyShape_cases (shapeOf i.unit) s tag <;> rw [h]
    · exact unchanged _
    · exact unchanged _
    · rw [ctxOf_setErr, ctxOf_put]
      exact .finalized hp
  | zeroize i =>
    rw [zeroizeShape, ctxOf_succeed, ctxOf_put]
    exact .zeroized
  | install i f code new hraise hput h =>
    cases hc : code (s.ctxOf i.unit) with
    | none =>
      rw [hput s hc, ctxOf_succeed, ctxOf_put]
      exact .installed (h _ hc)
    | some e =>
      rw [hraise s e hc]
      exact unchanged e

/-- The property `P` of `u`'s contexts is kept by what the unit's commands do to a context. -/
structure KeptBy (u : UnitId) (P : UnitCtx u → Prop) : Prop where
  restart : ∀ c, P c → ((shapeOf u).phase c).isKeyed = true → P ((shapeOf u).setPhase ((shapeOf u).init c) .active)
  absorb : ∀ c data, P c → (shapeOf u).phase c = .active → P ((shapeOf u).absorb c data)
  final : ∀ c, P c → (shapeOf u).phase c = .active → P ((shapeOf u).setPhase ((shapeOf u).final c).1 .finalized)
  zero : P (shapeOf u).zero
  install : ∀ c c', P c → Installs u c c' → P c'

/-- The phase in which a message was absorbed does not show in the finalized context, nor in the result. -/
theorem final_absorb_setPhase (u : UnitId) (c : UnitCtx u) (p : Phase) (data : List Byte) :
    (shapeOf u).setPhase ((shapeOf u).final ((shapeOf u).absorb ((shapeOf u).setPhase c p) data)).1 .finalized =
      (shapeOf u).setPhase ((shapeOf u).final ((shapeOf u).absorb c data)).1 .finalized ∧
    ((shapeOf u).final ((shapeOf u).absorb ((shapeOf u).setPhase c p) data)).2 =
      ((shapeOf u).final ((shapeOf u).absorb c data)).2 := by
  cases u <;> exact ⟨rfl, rfl⟩

/-- COMPUTE keeps what RESET, ABSORB and FINALIZE keep (R107). -/
theorem UnitStep.keeps {u : UnitId} {P : UnitCtx u → Prop} (hP : KeptBy u P) {c c' : UnitCtx u} (h : UnitStep c c')
    (hc : P c) : P c' := by
  cases h with
  | unchanged => exact hc
  | restarted hp => exact hP.restart c hc hp
  | absorbed hp data => exact hP.absorb c data hc hp
  | finalized hp => exact hP.final c hc hp
  | computed hp data =>
    have hactive (c : UnitCtx u) : (shapeOf u).phase ((shapeOf u).setPhase c .active) = .active :=
      (shapeOf_presents u).phase_setPhase c .active
    have habsorb := hP.absorb _ data (hP.restart c hc hp) (hactive _)
    obtain ⟨hsame, -⟩ := final_absorb_setPhase u ((shapeOf u).init c) .active data
    rw [← hsame]
    exact hP.final _ habsorb (((shapeOf_streams u).phase_absorb _ data).trans (hactive _))
  | installed h => exact hP.install c c' hc h
  | zeroized => exact hP.zero

/-- The three ways a step answers a next state: idle, the command it ran, or ILLEGAL. -/
theorem step_next_cases {s t : State} (h : step s = .next t) :
    t = s ∨ (∃ i, exec i s.advance = .next t) ∨ t = s.advance.raise .illegal := by
  cases hc : s.cmds[s.pos]? with
  | none =>
    rw [step_of_idle hc, Host.Outcome.next.injEq] at h
    exact .inl h.symm
  | some c =>
    rw [step_of_pending hc] at h
    obtain ⟨i, -, hi⟩ | ⟨-, rfl⟩ := issue_next_cases h
    · exact .inr (.inl ⟨i, hi⟩)
    · exact .inr (.inr rfl)

theorem exec_keeps {P : ∀ u, UnitCtx u → Prop} (hP : ∀ u, KeptBy u (P u)) {i : Instr} {s t : State}
    (h : exec i s = .next t) (hs : ∀ u, P u (s.ctxOf u)) (u : UnitId) : P u (t.ctxOf u) := by
  by_cases hu : u = i.unit
  · subst hu
    obtain ⟨f, hf, hform⟩ := exec_form i
    cases (hf s).symm.trans h
    exact (hform.unitStep s).keeps (hP i.unit) (hs _)
  · rw [ctxOf_exec_of_ne h hu]
    exact hs u

/-- Properties of the five contexts that the units' commands keep are kept by every step. -/
theorem step_keeps {P : ∀ u, UnitCtx u → Prop} (hP : ∀ u, KeptBy u (P u)) {s t : State} (h : step s = .next t)
    (hs : ∀ u, P u (s.ctxOf u)) (u : UnitId) : P u (t.ctxOf u) := by
  have hadvance (u : UnitId) : P u (s.advance.ctxOf u) := by rw [ctxOf_advance]; exact hs u
  obtain rfl | ⟨i, hi⟩ | rfl := step_next_cases h
  · exact hs u
  · exact exec_keeps hP hi hadvance u
  · rw [ctxOf_raise]
    exact hadvance u

end Sys2Proof.Machine

/-! ## The invariant of each unit (10_state.md R27 to R34) -/

namespace Sys2Proof.Machine

open Config (Cipher Registry)

theorem Phase.ne_unkeyed_of_isKeyed {p : Phase} (h : p.isKeyed = true) : p ≠ .unkeyed := by
  rintro rfl
  exact nomatch h

theorem Phase.ne_nonceWait_of_isKeyed {p : Phase} (h : p.isKeyed = true) : p ≠ .nonceWait := by
  rintro rfl
  exact nomatch h

theorem Phase.ne_unkeyed_of_active {p : Phase} (h : p = .active) : p ≠ .unkeyed := h.trans_ne (by decide)

theorem rmdUnit_inv_kept : KeptBy .rmd RmdUnit.Inv where
  restart _ _ _ := rmdInit_inv
  absorb c data hc hp := rmdAbsorb_inv c data hp hc
  final c _ _ := rmdFinal_inv c.toRmdCtx
  zero := rmdInit_inv
  install _ _ _ h := nomatch h

/-! ### HMAC -/

theorem HmacUnit.zero_inv (R : Registry) : HmacUnit.zero.Inv R where
  phase_legal := by decide
  unkeyed_zero _ := rfl
  bound h := absurd rfl h
  shaped := ⟨rfl, by decide, .of_eq (by decide) rfl⟩
  pads_end _ h _ := ⟨Vector.getElem_replicate h, Vector.getElem_replicate h⟩

/-- A keyed context meets HMAC's invariant with any inner digest of the bound code's form. -/
theorem HmacUnit.inv_of_shaped {R : Registry} {u : HmacUnit} (h : digestDesc R u.alg = some (u.B, u.L))
    (hpads : ∀ (i : Nat) (h : i < 128), u.B ≤ i → u.ipad[i] = 0 ∧ u.opad[i] = 0) {p : Phase}
    (hp : p.isKeyed = true) {d : DigestCtx} (hd : d.Shaped u.alg p) :
    HmacUnit.Inv R { u with phase := p, inner := d } where
  phase_legal := Phase.ne_nonceWait_of_isKeyed hp
  unkeyed_zero hu := absurd hu (Phase.ne_unkeyed_of_isKeyed hp)
  bound _ := h
  shaped := hd
  pads_end := hpads

/-- A pad is zero beyond K' (42_hmac.md R172). -/
theorem hmacPad_getElem_zero {k' : List Byte} (x : Byte) {i : Nat} (hi : i < 128) (h : k'.length ≤ i) :
    (hmacPad k' x)[i] = 0 := toArray_getElem_zero _ _ i hi (by simpa using h)

theorem hmacKeyed_inv {R : Registry} {a : BitVec 4} {B L : Nat} (h : digestDesc R a = some (B, L)) (key : List Byte) :
    (hmacKeyed R a B L key).Inv R := by
  have hlen := kPrime_length R a B L h key
  have hpad (x : Byte) (i : Nat) (hi : i < 128) (hB : B ≤ i) : (hmacPad (kPrime R a B key) x)[i] = 0 :=
    hmacPad_getElem_zero x hi (by omega)
  exact HmacUnit.inv_of_shaped (u := ⟨.active, a, B, L, _, _, dInit a⟩) h
    (fun i hi hB => ⟨hpad _ i hi hB, hpad _ i hi hB⟩) (p := .active) rfl (dInit_shaped a _)

theorem hmacUnit_inv_kept : KeptBy .hmac (HmacUnit.Inv Config.extDigest) where
  restart c hc hp := HmacUnit.inv_of_shaped (hc.bound_of_isKeyed hp) hc.pads_end rfl (dInit_shaped c.alg _)
  absorb c data hc hp := by
    have hp' : c.phase = .active := hp
    have hshaped := hc.shaped
    rw [hp'] at hshaped
    have h := HmacUnit.inv_of_shaped (hc.bound_of_isKeyed (by rw [hp']; rfl)) hc.pads_end (p := .active) rfl
      (dAbsorb_shaped c.inner c.alg data hshaped)
    rw [← hp'] at h
    exact h
  final c hc hp := HmacUnit.inv_of_shaped (hc.bound (Phase.ne_unkeyed_of_active hp)) hc.pads_end rfl
    (dFinal_shaped _ c.inner c.alg _ hc.shaped)
  zero := HmacUnit.zero_inv _
  install _ _ _ h := by
    cases h with
    | hmacKey _ key h => exact hmacKeyed_inv h key

/-! ### CMAC -/

theorem CmacUnit.zero_inv : CmacUnit.zero.Inv where
  phase_legal := by decide
  unkeyed_zero _ := rfl
  keylen_valid h := absurd rfl h
  key_end _ h _ := Vector.getElem_replicate h
  fill_le := by decide

/-- A keyed context meets CMAC's invariant with any chaining value and any buffer in range. -/
theorem CmacUnit.inv_of_fill_le {u : CmacUnit} (hlen : u.keylen ∈ Config.cipherKeyLengths)
    (hkey : ∀ (i : Nat) (h : i < 32), u.keylen ≤ i → u.key[i] = 0) {p : Phase} (hp : p.isKeyed = true) (C : Block)
    {buf : Buf 16} (hfill : buf.fill ≤ 16) : CmacUnit.Inv { u with phase := p, C := C, buf := buf } where
  phase_legal := Phase.ne_nonceWait_of_isKeyed hp
  unkeyed_zero hu := absurd hu (Phase.ne_unkeyed_of_isKeyed hp)
  keylen_valid _ := hlen
  key_end := hkey
  fill_le := hfill

/-- The cipher key of a keyed context is in range, and the array is zero beyond it (R190). -/
theorem cipherKey_fields {key : List Byte} (h : validCipherKey key = true) :
    key.length ∈ Config.cipherKeyLengths ∧
      ∀ (i : Nat) (h : i < 32), key.length ≤ i → (toArray 32 key)[i] = 0 :=
  ⟨by simpa [validCipherKey] using h, fun i hi hlen => toArray_getElem_zero 32 key i hi hlen⟩

theorem cmacUnit_inv_kept : KeptBy .cmac CmacUnit.Inv where
  restart c hc hp := CmacUnit.inv_of_fill_le (hc.keylen_valid (Phase.ne_unkeyed_of_isKeyed hp)) hc.key_end rfl 0
    (Nat.zero_le 16)
  absorb c data hc hp := by
    have hp' : c.phase = .active := hp
    have h := CmacUnit.inv_of_fill_le (hc.keylen_valid (Phase.ne_unkeyed_of_active hp)) hc.key_end (p := .active) rfl
      (cmacAbsorb Config.cipher c data).C (cmacAbsorb_fill_le Config.cipher c data hc.fill_le)
    rw [← hp'] at h
    exact h
  final c hc hp := CmacUnit.inv_of_fill_le (hc.keylen_valid (Phase.ne_unkeyed_of_active hp)) hc.key_end rfl c.C
    (Nat.zero_le 16)
  zero := CmacUnit.zero_inv
  install c c' _ h := by
    cases h with
    | cmacKey _ h =>
      obtain ⟨hlen, hend⟩ := cipherKey_fields h
      exact CmacUnit.inv_of_fill_le (u := cmacKeyed Config.cipher _) hlen hend (p := .active) rfl 0 (Nat.zero_le 16)

/-! ### GMAC -/

theorem GmacUnit.zero_inv : GmacUnit.zero.Inv where
  unkeyed_zero _ := rfl
  keylen_valid h := absurd rfl h
  key_end _ h _ := Vector.getElem_replicate h
  waiting h := nomatch h
  fill_lt := by decide
  counted := .of_eq (by decide) rfl

theorem gmacKeyed_inv (E : Cipher) {key : List Byte} (h : validCipherKey key = true) : (gmacKeyed E key).Inv where
  unkeyed_zero h := nomatch h
  keylen_valid _ := (cipherKey_fields h).1
  key_end := (cipherKey_fields h).2
  waiting _ := ⟨rfl, rfl, rfl, rfl⟩
  fill_lt := Nat.zero_lt_succ 15
  counted := .of_eq (fun h => nomatch h) rfl

theorem gmacUnit_inv_kept : KeptBy .gmac GmacUnit.Inv where
  restart c hc hp := gmacInit_inv c c.J0 (Phase.ne_unkeyed_of_isKeyed hp) hc
  absorb c data hc hp := gmacAbsorb_inv c data hp hc
  final c hc hp := gmacFinal_inv _ c (Phase.ne_unkeyed_of_active hp) hc
  zero := GmacUnit.zero_inv
  install c c' hc h := by
    cases h with
    | gmacKey _ h => exact gmacKeyed_inv _ h
    | gmacNonce _ nonce h => exact gmacInit_inv c _ h hc

/-! ### Poly1305 -/

theorem polyP_pos : 0 < polyP := by decide

theorem PolyUnit.zero_inv : PolyUnit.zero.Inv where
  phase_legal := by decide
  unkeyed_zero _ := rfl
  clamped := by decide
  h_lt := by decide
  fill_lt := by decide

/-- A keyed context meets P1305's invariant with any residue and any buffer in range. -/
theorem PolyUnit.inv_of_lt {u : PolyUnit} (hr : u.r &&& ~~~polyClamp = 0) {p : Phase} (hp : p.isKeyed = true) {h : Nat}
    (hh : h < polyP) {buf : Buf 16} (hfill : buf.fill < 16) :
    PolyUnit.Inv { u with phase := p, h := h, buf := buf } where
  phase_legal := Phase.ne_nonceWait_of_isKeyed hp
  unkeyed_zero hu := absurd hu (Phase.ne_unkeyed_of_isKeyed hp)
  clamped := hr
  h_lt := hh
  fill_lt := hfill

theorem polyUnit_inv_kept : KeptBy .p1305 PolyUnit.Inv where
  restart c hc _ := PolyUnit.inv_of_lt hc.clamped rfl polyP_pos (Nat.zero_lt_succ 15)
  absorb c data hc hp := by
    have hp' : c.phase = .active := hp
    have h := PolyUnit.inv_of_lt hc.clamped (p := .active) rfl (polyAbsorb_h_lt c data hc.h_lt)
      (polyAbsorb_fill_lt c data hc.fill_lt)
    rw [← hp'] at h
    exact h
  final c hc _ := PolyUnit.inv_of_lt hc.clamped rfl (polyLastH_lt c hc.h_lt) (Nat.zero_lt_succ 15)
  zero := PolyUnit.zero_inv
  install c c' _ h := by
    cases h with
    | p1305Key _ key =>
      exact PolyUnit.inv_of_lt (u := polyKeyed key) (polyR_clamped key) (p := .active) rfl polyP_pos
        (Nat.zero_lt_succ 15)

/-! ## The state invariant -/

/-- The invariant of a unit's context. -/
def UnitInv : (u : UnitId) → UnitCtx u → Prop
  | .rmd => RmdUnit.Inv
  | .hmac => HmacUnit.Inv Config.extDigest
  | .cmac => CmacUnit.Inv
  | .gmac => GmacUnit.Inv
  | .p1305 => PolyUnit.Inv

theorem unitInv_kept (u : UnitId) : KeptBy u (UnitInv u) :=
  match u with
  | .rmd => rmdUnit_inv_kept
  | .hmac => hmacUnit_inv_kept
  | .cmac => cmacUnit_inv_kept
  | .gmac => gmacUnit_inv_kept
  | .p1305 => polyUnit_inv_kept

theorem State.Inv.unitInv {s : State} (h : s.Inv) (u : UnitId) : UnitInv u (s.ctxOf u) :=
  match u with
  | .rmd => h.rmd
  | .hmac => h.hmac
  | .cmac => h.cmac
  | .gmac => h.gmac
  | .p1305 => h.p1305

theorem errValue_le (c : ErrCode) : (errValue c).toNat ≤ 10 := by cases c <;> decide

/-- However a command ends, ERR is a code and OUTLEN is what it was or an output size (R25, R251). -/
theorem Ending.registers_le {u : UnitId} {o : OpId} {s t : State} (h : Ending u o s t) (hi : s.Inv) :
    t.err.toNat ≤ 10 ∧ t.outlen.toNat ≤ Config.outMax := by
  cases h with
  | raised c => exact ⟨errValue_le c, hi.outlen_le⟩
  | updated s' hs c => exact ⟨errValue_le c, hs.outlen ▸ hi.outlen_le⟩
  | produced s' hs T =>
    refine ⟨errValue_le .ok, ?_⟩
    have hL := outSizeOf_le hi u
    exact (BitVec.toNat_ofNat _ _).trans_le ((Nat.mod_le _ _).trans hL)

theorem State.Inv.advance {s : State} (h : s.Inv) : s.advance.Inv := { h with }

/-- Settles O13: the contexts by `step_keeps`, the registers by `Ending.registers_le`. -/
theorem stepKeepsInvariant : Obligations.StepKeepsInvariant := by
  intro s t hs h
  have hregs : t.err.toNat ≤ 10 ∧ t.outlen.toNat ≤ Config.outMax := by
    obtain rfl | ⟨i, hi⟩ | rfl := step_next_cases h
    · exact ⟨hs.err_le, hs.outlen_le⟩
    · exact (ending_of_exec hi).registers_le hs.advance
    · exact ⟨errValue_le .illegal, hs.outlen_le⟩
  have hunits := step_keeps unitInv_kept h hs.unitInv
  exact ⟨hregs.1, hregs.2, hunits .rmd, hunits .hmac, hunits .cmac, hunits .gmac, hunits .p1305⟩

/-! ## The cached subkeys -/

/-- The subkeys a context caches are those of the key it holds; only CMAC and GMAC cache any (R192, R213). -/
def CachedSubkeys (E : Cipher) : (u : UnitId) → UnitCtx u → Prop
  | .cmac, (c : CmacUnit) => c.phase ≠ .unkeyed → (c.K1, c.K2) = cmacSubkeys E c.cipherKey
  | .gmac, (c : GmacUnit) => c.phase ≠ .unkeyed → c.H = E c.cipherKey 0
  | .rmd, _ | .hmac, _ | .p1305, _ => True

theorem validCipherKey_length_le {key : List Byte} (h : validCipherKey key = true) : key.length ≤ 32 := by
  have := (validCipherKey_iff key).mp h
  omega

theorem cachedSubkeys_kept (u : UnitId) : KeptBy u (CachedSubkeys Config.cipher u) :=
  match u with
  | .rmd | .hmac | .p1305 => ⟨fun _ _ _ => trivial, fun _ _ _ _ => trivial, fun _ _ _ => trivial, trivial,
      fun _ _ _ _ => trivial⟩
  | .cmac =>
    { restart := fun _ hc hp _ => hc (Phase.ne_unkeyed_of_isKeyed hp)
      absorb := fun _ _ hc hp _ => hc (Phase.ne_unkeyed_of_active hp)
      final := fun _ hc hp _ => hc (Phase.ne_unkeyed_of_active hp)
      zero := fun h => absurd rfl h
      install := fun _ _ _ h => by
        cases h with
        | cmacKey _ h => exact fun _ => by rw [cmacKeyed_cipherKey _ _ (validCipherKey_length_le h)]; rfl }
  | .gmac =>
    { restart := fun _ hc hp _ => hc (Phase.ne_unkeyed_of_isKeyed hp)
      absorb := fun _ _ hc hp _ => hc (Phase.ne_unkeyed_of_active hp)
      final := fun _ hc hp _ => hc (Phase.ne_unkeyed_of_active hp)
      zero := fun h => absurd rfl h
      install := fun _ _ hc h => by
        cases h with
        | gmacKey _ h => exact fun _ => by rw [gmacKeyed_cipherKey _ _ (validCipherKey_length_le h)]; rfl
        | gmacNonce _ _ h => exact fun _ => hc h }

/-- Settles O14: no command but SETKEY writes the key or what is derived from it, and SETKEY derives it anew. -/
theorem stepKeepsSubkeysMatch : Obligations.StepKeepsSubkeysMatch := by
  intro s t _ hs h
  have hcached (u : UnitId) : CachedSubkeys Config.cipher u (s.ctxOf u) :=
    match u with
    | .rmd | .hmac | .p1305 => trivial
    | .cmac => hs.cmac
    | .gmac => hs.gmac
  have hkept := step_keeps cachedSubkeys_kept h hcached
  exact ⟨hkept .cmac, hkept .gmac⟩

/-- Settles O12: each context is the unit's zero, or a fresh message for RMD. -/
theorem invariantsHoldAtReset : Obligations.InvariantsHoldAtReset :=
  ⟨⟨by decide, by decide, rmdInit_inv, HmacUnit.zero_inv _, CmacUnit.zero_inv, GmacUnit.zero_inv, PolyUnit.zero_inv⟩,
    fun h => absurd rfl h, fun h => absurd rfl h⟩

end Sys2Proof.Machine

/-! # UNITSTATE and what the read port shows -/

namespace Sys2Proof.Machine

/-- Above a 2-bit field stands the word before it was appended. -/
theorem extractLsb'_append_two {w : Nat} (a : BitVec w) (p : BitVec 2) (k : Nat) :
    (a ++ p).extractLsb' (2 * (k + 1)) 2 = a.extractLsb' (2 * k) 2 :=
  BitVec.extractLsb'_append_eq_of_le (show 2 ≤ 2 * (k + 1) by omega)

/-- The fields of UNITSTATE, from bit 0 up (10_state.md R24). -/
theorem unitStateWord_extract (s : State) (u : UnitId) :
    s.unitStateWord.extractLsb' (2 * (unitCode u).toNat) 2 = phaseValue (s.phaseOf u) := by
  cases u with
  | rmd => exact BitVec.extractLsb'_append_eq_right
  | hmac => exact (extractLsb'_append_two _ _ 0).trans BitVec.extractLsb'_append_eq_right
  | cmac =>
    exact (extractLsb'_append_two _ _ 1).trans <|
      (extractLsb'_append_two _ _ 0).trans BitVec.extractLsb'_append_eq_right
  | gmac =>
    exact (extractLsb'_append_two _ _ 2).trans <| (extractLsb'_append_two _ _ 1).trans <|
      (extractLsb'_append_two _ _ 0).trans BitVec.extractLsb'_append_eq_right
  | p1305 =>
    exact (extractLsb'_append_two _ _ 3).trans <| (extractLsb'_append_two _ _ 2).trans <|
      (extractLsb'_append_two _ _ 1).trans <| (extractLsb'_append_two _ _ 0).trans BitVec.extractLsb'_append_eq_right

/-- Ten bits hold the five phases; those above are 0 (R24). -/
theorem unitStateWord_getLsbD_of_le (s : State) {i : Nat} (hi : 10 ≤ i) : s.unitStateWord.getLsbD i = false := by
  have hfields : ¬i < 2 ∧ ¬i - 2 < 2 ∧ ¬i - 2 - 2 < 2 ∧ ¬i - 2 - 2 - 2 < 2 ∧ ¬i - 2 - 2 - 2 - 2 < 2 := by omega
  obtain ⟨hr, hh, hc, hg, hp⟩ := hfields
  rw [State.unitStateWord, BitVec.getLsbD_append, if_neg hr, BitVec.getLsbD_append, if_neg hh, BitVec.getLsbD_append,
    if_neg hc, BitVec.getLsbD_append, if_neg hg, BitVec.getLsbD_append, if_neg hp]
  exact BitVec.getLsbD_zero

/-- Settles O25: field by field, and the bits above them. -/
theorem unitStateHoldsPhases : Obligations.UnitStateHoldsPhases :=
  ⟨unitStateWord_extract, fun s _ => unitStateWord_getLsbD_of_le s, rfl, rfl, rfl, rfl, unitStateWord_reset⟩

/-- UNITSTATE depends on the phases alone. -/
theorem unitStateWord_congr {s t : State} (h : ∀ u, s.phaseOf u = t.phaseOf u) : s.unitStateWord = t.unitStateWord := by
  have hr : s.rmd.phase = t.rmd.phase := h .rmd
  have hh : s.hmac.phase = t.hmac.phase := h .hmac
  have hc : s.cmac.phase = t.cmac.phase := h .cmac
  have hg : s.gmac.phase = t.gmac.phase := h .gmac
  have hp : s.p1305.phase = t.p1305.phase := h .p1305
  simp only [State.unitStateWord, hr, hh, hc, hg, hp]

theorem portWord_congr {s t : State} (h : samePublic s t) (n : Nat) : portWord s n = portWord t n := by
  simp only [portWord, State.statusWord, State.outlenWord, h.err, h.outlen, h.out, unitStateWord_congr h.phases]

/-- Settles O26: each word of the map is made of public fields, and a refusal depends on the offset alone. -/
theorem readPortShowsOnlyPublicState : Obligations.ReadPortShowsOnlyPublicState := by
  intro s t h n
  simp only [readPort, portWord_congr h]

end Sys2Proof.Machine

/-! # Where the common shapes complete -/

namespace Sys2Proof.Machine

/-! ## The common shapes in an accepted phase -/

section Completes

variable {C : Type} {U : UnitShape C} {s : State}

theorem resetShape_of_keyed (hp : (U.phase (U.get s)).isKeyed = true) :
    resetShape U s = (U.put s (U.setPhase (U.init (U.get s)) .active)).succeed := if_pos hp

theorem finalizeShape_of_fits (hp : U.phase (U.get s) = .active) {cap : BitVec 8}
    (hc : U.outSize (U.get s) ≤ capValue cap) : finalizeShape U cap s = produce U (U.get s) s := by
  simp [finalizeShape, hp, Nat.not_lt.mpr hc]

theorem computeShape_of_fits (hp : (U.phase (U.get s)).isKeyed = true) {cap : BitVec 8}
    (hc : U.outSize (U.get s) ≤ capValue cap) (data : List Byte) :
    computeShape U cap data s = produce U (U.absorb (U.init (U.get s)) data) s := by
  simp [computeShape, hp, Nat.not_lt.mpr hc]

/-- VERIFY of a tag as long as the result answers OK iff it is the result (R108, R254). -/
theorem verifyShape_of_length (hp : U.phase (U.get s) = .active) {tag : List Byte}
    (hlen : tag.length = U.outSize (U.get s)) (hfinal : (U.final (U.get s)).2.length = U.outSize (U.get s)) :
    verifyShape U tag s = (U.put s (U.setPhase (U.final (U.get s)).1 .finalized)).setErr
      (if tag = (U.final (U.get s)).2 then .ok else .authFail) := by
  rw [← verifyResult_eq _ _ (hfinal.trans hlen.symm)]
  simp [verifyShape, hp, hlen]

end Completes

/-! ## RESET, ABSORB and FINALIZE -/

/-- Settles O39: RESET of a keyed unit restarts it. -/
theorem resetCompletes : Obligations.ResetCompletes := by
  have completes {C : Type} (U : UnitShape C) (s : State)
      (hp : U.phase (U.get s) = .active ∨ U.phase (U.get s) = .finalized) :
      (.next (resetShape U s) : Answer) = .next (U.put s (U.setPhase (U.init (U.get s)) .active)).succeed :=
    congrArg _ (resetShape_of_keyed ((Phase.isKeyed_iff _).mpr hp))
  exact fun s => ⟨completes rmdShape s, completes (hmacShape _) s, completes (cmacShape _) s,
    completes (gmacShape _) s, completes polyShape s⟩

/-- HMAC.ABSORB feeds the payload to the inner digest (42_hmac.md R177). -/
theorem exec_hmacAbsorb {data : List Byte} {s : State} (hp : s.hmac.phase = .active)
    (hc : exceedsMaxMsg (hmacCount s.hmac) data.length = false) {d : DigestCtx} (hd : dAbsorb s.hmac.inner data = d) :
    exec (.hmacAbsorb data) s = .next (s.setHmac { s.hmac with inner := d }).succeed := by
  subst hd
  exact congrArg Host.Outcome.next (absorbShape_of_fits (U := hmacShape Config.extDigest) hp hc)

/-- Settles O40: ABSORB of an active unit whose count does not run over feeds the payload to `ABSORB_u`. -/
theorem absorbCompletes : Obligations.AbsorbCompletes := by
  intro data s
  have completes {C : Type} (U : UnitShape C) (hp : U.phase (U.get s) = .active)
      (hc : exceedsMaxMsg (U.count (U.get s)) data.length = false) :
      (.next (absorbShape U data s) : Answer) = .next (U.put s (U.absorb (U.get s) data)).succeed :=
    congrArg _ (absorbShape_of_fits hp hc)
  refine ⟨fun hp hc => ?_, fun c hp halg hinner hc => ?_, fun m hp hinner => ?_, fun hp => ?_, fun hp hc => ?_,
    fun hp => ?_⟩
  · exact completes rmdShape hp ((exceedsMaxMsg_some_eq_false_iff _ _).mpr hc)
  · have hcount : hmacCount s.hmac = some c.nbytes.toNat := by simp [hmacCount, hinner, halg]
    exact exec_hmacAbsorb hp (by rwa [hcount, exceedsMaxMsg_some_eq_false_iff]) (congrArg (dAbsorb · data) hinner)
  · have hcount : hmacCount s.hmac = none := by simp [hmacCount, hinner]
    exact exec_hmacAbsorb hp (by rw [hcount]; rfl) (congrArg (dAbsorb · data) hinner)
  · exact completes (cmacShape Config.cipher) hp rfl
  · exact completes (gmacShape Config.cipher) hp ((exceedsMaxMsg_some_eq_false_iff _ _).mpr hc)
  · exact completes polyShape hp rfl

/-- Settles O41: FINALIZE of an active unit with enough capacity produces its result. -/
theorem finalizeCompletes : Obligations.FinalizeCompletes := by
  intro cap s
  have completes {C : Type} (U : UnitShape C) (hp : U.phase (U.get s) = .active)
      (hc : U.outSize (U.get s) ≤ cap.toNat) :
      (.next (finalizeShape U cap s) : Answer) = .next (produce U (U.get s) s) :=
    congrArg _ (finalizeShape_of_fits hp hc)
  exact ⟨completes rmdShape, completes (hmacShape _), completes (cmacShape _), completes (gmacShape _),
    completes polyShape⟩

/-! ## VERIFY -/

theorem exec_verifyInstr {u : UnitId} {tag : List Byte} {i : Instr} (h : verifyInstr u tag = some i) (s : State) :
    exec i s = .next (verifyShape (shapeOf u) tag s) := by
  cases u with
  | rmd => exact nomatch h
  | hmac | cmac | gmac | p1305 => cases h; rfl

theorem errValue_ite (p : Prop) [Decidable p] : errValue (if p then .ok else .authFail) = if p then 0 else 9 := by
  split_ifs <;> rfl

/-- Settles O27: under the invariant the result has `L_u` bytes, and every wrong tag leaves AUTH_FAIL beside the
finalized context. -/
theorem verifyDependsOnlyOnMatch : Obligations.VerifyDependsOnlyOnMatch := by
  intro u s tag tag' i i' hinv hi hi' hp hlen hlen'
  have hU := shapeOf_presents u
  have hactive : (shapeOf u).phase ((shapeOf u).get s) = .active := (hU.phase_get s).trans hp
  have hfinal := (hU.length s hinv (by rw [hactive]; rfl)).trans (hU.outSize s).symm
  have hverify {tag : List Byte} {i : Instr} (hi : verifyInstr u tag = some i) (hlen : tag.length = s.outSizeOf u) :
      exec i s = .next (((shapeOf u).put s ((shapeOf u).setPhase ((shapeOf u).final ((shapeOf u).get s)).1
        .finalized)).setErr (if tag = s.resultOf u then .ok else .authFail)) := by
    rw [exec_verifyInstr hi, verifyShape_of_length hactive (hlen.trans (hU.outSize s).symm) hfinal, hU.result]
  refine ⟨⟨_, hverify hi hlen, errValue_ite _⟩, fun hne hne' => ?_⟩
  rw [hverify hi hlen, hverify hi' hlen', if_neg hne, if_neg hne']

/-- Settles O42: VERIFY of an active unit with a tag of its size finalizes it and answers the comparison. -/
theorem verifyCompletes : Obligations.VerifyCompletes := by
  intro tag s
  have completes {C : Type} (U : UnitShape C) (hp : U.phase (U.get s) = .active)
      (hlen : tag.length = U.outSize (U.get s)) (hfinal : (U.final (U.get s)).2.length = U.outSize (U.get s)) :
      (.next (verifyShape U tag s) : Answer) =
        .next { U.put s (U.setPhase (U.final (U.get s)).1 .finalized) with
          err := if tag = (U.final (U.get s)).2 then 0 else 9 } := by
    rw [verifyShape_of_length hp hlen hfinal, State.setErr, errValue_ite]
  refine ⟨fun hinv hp hlen => ?_, fun hp hlen => ?_, fun hp hlen => ?_, fun hp hlen => ?_⟩
  · exact completes (hmacShape Config.extDigest) hp hlen
      (hmacFinal_length _ _ (hinv.hmac.bound (Phase.ne_unkeyed_of_active hp)))
  · exact completes (cmacShape Config.cipher) hp hlen (cmacFinal_length _ _)
  · exact completes (gmacShape Config.cipher) hp hlen (gmacFinal_length _ _)
  · exact completes polyShape hp hlen (polyFinal_length _)

/-! ## SETKEY and SETNONCE -/

/-- Settles O45: a valid key installs `gmacKeyed`, and a nonce on a keyed unit `gmacNonced`. -/
theorem gmacSetkeyAndSetnonceComplete : Obligations.GmacSetkeyAndSetnonceComplete := by
  intro key nonce s
  constructor
  · intro hlen
    have hset : gmacSetkey Config.cipher key s = (s.setGmac (gmacKeyed Config.cipher key)).succeed := by
      simp [gmacSetkey, (validCipherKey_iff key).mpr hlen]
    exact congrArg Host.Outcome.next hset
  · intro hp hne
    have hset : gmacSetnonce nonce s = (s.setGmac (gmacNonced s.gmac nonce)).succeed := by
      simp [gmacSetnonce, hp, validNonce, hne]
    exact congrArg Host.Outcome.next hset

theorem polySetkey_of_length {key : List Byte} (h : key.length = 32) (s : State) :
    polySetkey key s = (s.setP1305 (polyKeyed key)).succeed := by
  simp [polySetkey, validPolyKey, h]

/-- Settles O46: a key of 32 bytes installs `polyKeyed`. -/
theorem polySetkeyCompletes : Obligations.PolySetkeyCompletes := fun _ s h =>
  congrArg Host.Outcome.next (polySetkey_of_length h s)

end Sys2Proof.Machine

/-! # COMPUTE is RESET, ABSORB in pieces, and FINALIZE -/

namespace Sys2Proof.Machine

/-! ## The units' commands as common shapes -/

theorem exec_resetInstr (u : UnitId) (s : State) : exec (resetInstr u) s = .next (resetShape (shapeOf u) s) := by
  cases u <;> rfl

theorem exec_absorbInstr_eq (u : UnitId) (data : List Byte) (s : State) :
    exec (absorbInstr u data) s = .next (absorbShape (shapeOf u) data s) := by cases u <;> rfl

theorem exec_finalizeInstr (u : UnitId) (cap : BitVec 8) (s : State) :
    exec (finalizeInstr u cap) s = .next (finalizeShape (shapeOf u) cap s) := by cases u <;> rfl

theorem exec_computeInstr (u : UnitId) (cap : BitVec 8) (data : List Byte) (s : State) :
    exec (computeInstr u cap data) s = .next (computeShape (shapeOf u) cap data s) := by cases u <;> rfl

/-- A sequence in two parts, when the first answers a next state. -/
theorem execAll_append_of_next {is : List Instr} {s t : State} (h : execAll is s = .next t) (js : List Instr) :
    execAll (is ++ js) s = execAll js t := by
  induction is generalizing s with
  | nil =>
    cases h
    rfl
  | cons i is ih =>
    obtain ⟨t₁, ht₁, -⟩ := exec_ending s i
    rw [execAll_cons_of_next ht₁] at h
    rw [List.cons_append, execAll_cons_of_next ht₁, ih h]

theorem execAll_singleton (i : Instr) (s : State) : execAll [i] s = exec i s := by
  obtain ⟨t, ht, -⟩ := exec_ending s i
  rw [execAll_cons_of_next ht, ht, execAll]

/-! ## A message from RESET on -/

/-- The context after RESET. -/
def restarted (u : UnitId) (c : UnitCtx u) : UnitCtx u := (shapeOf u).setPhase ((shapeOf u).init c) .active

theorem phase_restarted (u : UnitId) (c : UnitCtx u) : (shapeOf u).phase (restarted u c) = .active :=
  (shapeOf_presents u).phase_setPhase _ _

theorem outSize_absorb_restarted (u : UnitId) (c : UnitCtx u) (data : List Byte) :
    (shapeOf u).outSize ((shapeOf u).absorb (restarted u c) data) = (shapeOf u).outSize c := by cases u <;> rfl

/-- Absorbing nothing leaves the context. -/
theorem absorb_nil (u : UnitId) (c : UnitCtx u) : (shapeOf u).absorb c [] = c := by
  have hrmd (c : RmdCtx) : rmdAbsorb c [] = c := by simp [rmdAbsorb]
  cases u with
  | rmd => exact congrArg (fun x => RmdUnit.mk x _) (hrmd _)
  | hmac =>
    have hd (d : DigestCtx) : dAbsorb d [] = d := by
      cases d with
      | rmd c => exact congrArg DigestCtx.rmd (hrmd c)
      | ext m => exact congrArg DigestCtx.ext (List.append_nil m)
    exact congrArg (fun d => { (c : HmacUnit) with inner := d }) (hd _)
  | cmac => rfl
  | gmac => exact congrArg (fun n => { (c : GmacUnit) with nbytes := n }) (BitVec.add_zero _)
  | p1305 => rfl

theorem fits_hmacCount_init (u : HmacUnit) {n : Nat} (hn : n ≤ Config.lenMax) :
    exceedsMaxMsg (hmacCount (hmacInit u)) n = false := by
  have hlen : (u.ipad.toList.take u.B).length ≤ 128 := by simp
  by_cases ha : u.alg = 0
  · have hcount : hmacCount (hmacInit u) = some (BitVec.ofNat 61 (u.ipad.toList.take u.B).length).toNat := by
      simp [hmacCount, hmacInit, dInit, dAbsorb, rmdAbsorb, rmdInit, ha]
    rw [hcount, exceedsMaxMsg_some_eq_false_iff, BitVec.toNat_ofNat]
    have hmax : Config.maxMsg = 2 ^ 61 - 1 := rfl
    have hlenMax : Config.lenMax = 65535 := rfl
    omega
  · have hd : dInit u.alg = .ext [] := if_neg ha
    have hcount : hmacCount (hmacInit u) = none := by simp [hmacCount, hmacInit, hd, dAbsorb]
    rw [hcount]
    rfl

/-- After RESET a payload of at most LENMAX bytes fits the length count (R105). -/
theorem fits_restarted (u : UnitId) (c : UnitCtx u) {n : Nat} (hn : n ≤ Config.lenMax) :
    exceedsMaxMsg ((shapeOf u).count (restarted u c)) n = false := by
  have hmax : Config.lenMax ≤ Config.maxMsg := by decide
  have hzero : exceedsMaxMsg (some (0#61).toNat) n = false :=
    (exceedsMaxMsg_some_eq_false_iff _ _).mpr (by simpa using hn.trans hmax)
  cases u with
  | rmd | gmac => exact hzero
  | hmac => exact fits_hmacCount_init c hn
  | cmac | p1305 => rfl

/-- Absorbing pieces after RESET leaves the unit with their concatenation absorbed. -/
theorem execAll_absorb_restarted (u : UnitId) (c : UnitCtx u) (s : State) {ps : List (List Byte)}
    (hlen : ps.flatten.length ≤ Config.lenMax) :
    execAll (ps.map (absorbInstr u)) ((shapeOf u).put s (restarted u c)).succeed =
      .next ((shapeOf u).put s ((shapeOf u).absorb (restarted u c) ps.flatten)).succeed := by
  have hS := shapeOf_streams u
  by_cases hps : ps = []
  · subst hps
    rw [List.flatten_nil, absorb_nil]
    rfl
  · have hget : (shapeOf u).get ((shapeOf u).put s (restarted u c)).succeed = restarted u c := by
      rw [State.succeed, hS.get_setErr, hS.get_put]
    refine execAll_map_absorbInstr hps ?_ (by decide : (0 : BitVec 4) ≠ errValue .msgTooLong)
    rw [exec_absorbInstr_eq, absorbShape_of_fits (by rw [hget, phase_restarted])
      (by rw [hget]; exact fits_restarted u c hlen), hget, hS.put_put]
    rfl

/-- A result does not depend on what the unit held when it is produced from a context. -/
theorem produce_put (u : UnitId) (c c' : UnitCtx u) (s : State) :
    produce (shapeOf u) c ((shapeOf u).put s c').succeed = produce (shapeOf u) c s := by
  cases u <;> rfl

/-- A result does not depend on the phase in which the message was absorbed. -/
theorem produce_absorb_restarted (u : UnitId) (c : UnitCtx u) (data : List Byte) (s : State) :
    produce (shapeOf u) ((shapeOf u).absorb (restarted u c) data) s =
      produce (shapeOf u) ((shapeOf u).absorb ((shapeOf u).init c) data) s := by
  cases u <;> rfl

/-- Settles O31: after RESET and the pieces, FINALIZE produces the result of the context that COMPUTE builds. -/
theorem streamEqualsCompute : Obligations.StreamEqualsCompute := by
  intro u ps cap s hp hcap hlen
  have hS := shapeOf_streams u
  have hkeyed : ((shapeOf u).phase (s.ctxOf u)).isKeyed = true := by rwa [phase_ctxOf]
  have hsize : (shapeOf u).outSize (s.ctxOf u) ≤ capValue cap := by rwa [outSize_ctxOf]
  have hreset : exec (resetInstr u) s = .next ((shapeOf u).put s (restarted u (s.ctxOf u))).succeed := by
    rw [exec_resetInstr, resetShape_of_keyed hkeyed]
    rfl
  have habsorb := execAll_absorb_restarted u (s.ctxOf u) s hlen
  have hget : (shapeOf u).get ((shapeOf u).put s ((shapeOf u).absorb (restarted u (s.ctxOf u)) ps.flatten)).succeed =
      (shapeOf u).absorb (restarted u (s.ctxOf u)) ps.flatten := by rw [State.succeed, hS.get_setErr, hS.get_put]
  have hactive : (shapeOf u).phase ((shapeOf u).absorb (restarted u (s.ctxOf u)) ps.flatten) = .active := by
    rw [hS.phase_absorb, phase_restarted]
  have hsize' : (shapeOf u).outSize ((shapeOf u).absorb (restarted u (s.ctxOf u)) ps.flatten) ≤ capValue cap := by
    rwa [outSize_absorb_restarted]
  rw [List.cons_append, execAll_cons_of_next hreset, execAll_append_of_next habsorb, execAll_singleton,
    exec_finalizeInstr, finalizeShape_of_fits (by rw [hget, hactive]) (by rw [hget]; exact hsize'), hget, produce_put,
    produce_absorb_restarted, exec_computeInstr, computeShape_of_fits hkeyed hsize]
  rfl

/-! ## ABSORB_LONG -/

/-- Settles O32: the pieces fit LEN, and absorbing them in turn is absorbing the message. -/
theorem absorbLongEqualsAbsorb : Obligations.AbsorbLongEqualsAbsorb := by
  intro u msg s t hmsg h herr
  constructor
  · have hpieces := (chunkedAbsorbEqualsWhole u [msg] s t (List.cons_ne_nil _ _) (by simpa using h)
      (by rw [herr]; decide)).2
    simpa using hpieces (by simpa using hmsg)
  · intro i hi
    obtain ⟨p, hp, rfl⟩ := List.mem_map.mp hi
    have hfits : fitsLen p = true := decide_eq_true (pieces_length_le _ _ p hp)
    cases u <;> exact hfits

end Sys2Proof.Machine

/-! # COMPUTE gives the whole-message algorithms

An eager unit that absorbed a message and then takes any tail block by block has taken the message with that tail
(`eagerAbsorb_then_pieces`); RIPEMD-160, GHASH and Poly1305 are its uses with the padding each has. CMAC holds its last
piece back, so its cut is `holdbackSplit`. -/

namespace Sys2Proof.Machine

open Config (Cipher Registry)

/-! ## Eager absorption, then a tail -/

section EagerTail

variable {α : Type} {n : Nat}

/-- A message is whole blocks and a rest shorter than a block. -/
theorem exists_blocks_rest (hn : 0 < n) (m : List Byte) :
    ∃ full rest, m = full ++ rest ∧ n ∣ full.length ∧ rest.length < n := by
  have hle : n * (m.length / n) ≤ m.length := Nat.mul_div_le _ _
  refine ⟨m.take (n * (m.length / n)), m.drop (n * (m.length / n)), (List.take_append_drop _ _).symm, ?_, ?_⟩
  · rw [List.length_take_of_le hle]
    exact Nat.dvd_mul_right _ _
  · rw [List.length_drop, ← Nat.mod_def]
    exact Nat.mod_lt _ hn

/-- Absorbing a message and then transforming the pieces of the pending bytes and a tail is transforming the pieces of
the message and the tail (40_contract_and_buffer.md R110). -/
theorem eagerAbsorb_then_pieces (T : α → List Byte → α) (p : α × Buf n) (h : p.2.fill < n) (data tail : List Byte) :
    (pieces n ((eagerAbsorb T p data).2.pending ++ tail)).foldl T (eagerAbsorb T p data).1 =
      (pieces n (p.2.pending ++ data ++ tail)).foldl T p.1 := by
  have hn : 0 < n := by omega
  obtain ⟨full, rest, hm, hdvd, hrest⟩ := exists_blocks_rest hn (p.2.pending ++ data)
  obtain ⟨hacc, hpending⟩ := eagerAbsorb_blocks T p data full rest h hm hdvd hrest
  rw [hacc, hpending, hm, List.append_assoc, pieces_append n full _ hn hdvd, List.foldl_append]

/-- Only whole blocks are transformed, so a transform matters on whole blocks alone. -/
theorem eagerAbsorb_congr {T T' : α → List Byte → α} (h : ∀ acc b, b.length = n → T acc b = T' acc b) (p : α × Buf n)
    (data : List Byte) : eagerAbsorb T p data = eagerAbsorb T' p data := by
  have hbyte : eagerByte (n := n) T = eagerByte T' := by
    funext p x
    simp only [eagerByte, h _ _ (Vector.length_toList)]
  rw [eagerAbsorb, hbyte, eagerAbsorb]

end EagerTail

/-! ## Length fields -/

theorem leBytes_mod (n v : Nat) : leBytes n (v % 256 ^ n) = leBytes n v := by
  have h := leBytes_leNat (leBytes n v)
  rwa [leBytes_length, leNat_leBytes] at h

/-- The 64-bit length field of a 61-bit byte count is that of the byte count itself. -/
theorem leBytes_bitLength (k : Nat) : leBytes 8 (8 * (BitVec.ofNat 61 k).toNat) = leBytes 8 (8 * k) := by
  have hmod : 8 * (k % 2 ^ 61) = 8 * k % 256 ^ 8 := by omega
  rw [BitVec.toNat_ofNat, hmod, leBytes_mod]

/-! ## COMPUTE, given what its `FINAL_u` answers -/

theorem computeShape_of_final {C : Type} {U : UnitShape C} {s : State}
    (hp : U.phase (U.get s) = .active ∨ U.phase (U.get s) = .finalized) {cap : BitVec 8}
    (hc : U.outSize (U.get s) ≤ cap.toNat) {data : List Byte} {c : C} {T : List Byte}
    (hfinal : U.final (U.absorb (U.init (U.get s)) data) = (c, T)) :
    computeShape U cap data s =
      ((U.put s (U.setPhase c .finalized)).writeResult T (U.outSize (U.absorb (U.init (U.get s)) data))).succeed := by
  rw [computeShape_of_fits ((Phase.isKeyed_iff _).mpr hp) hc, produce, hfinal]

/-! ## RIPEMD-160 (41_ripemd160.md) -/

/-- The digest after a message, from a fresh context (R148). -/
theorem rmdFinal_absorb_init (m : List Byte) : rmdFinal (rmdAbsorb rmdInit m) =
    (⟨ripemdChain m, Buf.zero 64, BitVec.ofNat 61 m.length⟩, ripemd160 m) := by
  have hcount : (rmdAbsorb rmdInit m).nbytes = BitVec.ofNat 61 m.length := BitVec.zero_add _
  have hfill : (rmdAbsorb rmdInit m).buf.fill = m.length % 64 :=
    (eagerAbsorb_fill_mod rmdBlock (ripemdIV, Buf.zero 64) m (by decide)).trans (by simp)
  have htail : rmdTail (m.length % 64) (BitVec.ofNat 61 m.length).toNat = rmdTail (m.length % 64) m.length := by
    simp only [rmdTail, leBytes_bitLength]
  have hchain := eagerAbsorb_then_pieces rmdBlock (ripemdIV, Buf.zero 64) (by decide) m
    (rmdTail (m.length % 64) m.length)
  have hfinal : (pieces 64 ((rmdAbsorb rmdInit m).buf.pending ++
      rmdTail (rmdAbsorb rmdInit m).buf.fill (rmdAbsorb rmdInit m).nbytes.toNat)).foldl rmdBlock
        (rmdAbsorb rmdInit m).h = ripemdChain m := by
    rw [hcount, hfill, htail]
    exact hchain
  rw [rmdFinal, hfinal, hcount, ripemd160]

/-- Settles O33: the digest of a fresh context that absorbed the payload. -/
theorem rmdComputeGivesRipemd160 : Obligations.RmdComputeGivesRipemd160 := by
  intro cap m s hp hcap _
  have hfinal : rmdShape.final (rmdShape.absorb (rmdShape.init s.rmd) m) =
      (⟨⟨ripemdChain m, Buf.zero 64, BitVec.ofNat 61 m.length⟩, s.rmd.phase⟩, ripemd160 m) :=
    congrArg (fun r : RmdCtx × List Byte => (RmdUnit.mk r.1 s.rmd.phase, r.2)) (rmdFinal_absorb_init m)
  exact congrArg Host.Outcome.next (computeShape_of_final (U := rmdShape) hp hcap hfinal)

/-- Settles O53: the padding completes the block, or the next one where 9 bytes do not fit. -/
theorem ripemdPaddingFillsWholeBlocks : Obligations.RipemdPaddingFillsWholeBlocks := by
  intro c hfill
  refine ⟨?_, rmdFinal_length c, rmdFinal_buf c, rmdFinal_nbytes c⟩
  simp only [rmdTail, List.length_append, List.length_cons, zeros_length, leBytes_length]
  split_ifs <;> omega

/-! ## Digests and HMAC (42_hmac.md) -/

/-- A digest by its operations is the digest of the whole message (40_contract_and_buffer.md R114). -/
theorem digest_eq_digestOf (R : Registry) (a : BitVec 4) (m : List Byte) : digest R a m = digestOf R a m := by
  by_cases ha : a = 0
  · have hd : dInit a = .rmd rmdInit := if_pos ha
    simp only [digest, digestOf, hd, dAbsorb, dFinal, rmdFinal_absorb_init, if_pos ha]
  · have hd : dInit a = .ext [] := if_neg ha
    simp only [digest, digestOf, hd, dAbsorb, dFinal, List.nil_append, if_neg ha]

/-- The tag after a message, from a started unit (R173, R174). -/
theorem hmacFinal_absorb_init (R : Registry) (u : HmacUnit) (m : List Byte) :
    hmacFinal R { hmacInit u with inner := dAbsorb (hmacInit u).inner m } =
      ({ u with inner := (dFinal R u.alg (dAbsorb (dInit u.alg) (u.ipad.toList.take u.B ++ m))).1 },
        digestOf R u.alg (u.opad.toList.take u.B ++ digestOf R u.alg (u.ipad.toList.take u.B ++ m))) := by
  have hinner : digestOf R u.alg (u.ipad.toList.take u.B ++ m) =
      (dFinal R u.alg (dAbsorb (dAbsorb (dInit u.alg) (u.ipad.toList.take u.B)) m)).2 := by
    rw [← digest_eq_digestOf, digest, dAbsorb_append]
  rw [hinner, ← digest_eq_digestOf, dAbsorb_append]
  rfl

/-- Settles O34: the inner digest absorbs the inner pad and then the payload. -/
theorem hmacComputeGivesHmac : Obligations.HmacComputeGivesHmac := by
  intro cap m s hp hcap _
  exact congrArg Host.Outcome.next (computeShape_of_final (U := hmacShape Config.extDigest) hp hcap
    (hmacFinal_absorb_init Config.extDigest s.hmac m))

theorem kPrime_eq_kPrimeOf (R : Registry) (a : BitVec 4) (B : Nat) (key : List Byte) :
    kPrime R a B key = kPrimeOf R a B key := by
  simp only [kPrime, kPrimeOf, digest_eq_digestOf]

/-- The context SETKEY installs, by K' (R171 to R173). -/
theorem hmacKeyed_eq {R : Registry} {a : BitVec 4} {B L : Nat} (h : digestDesc R a = some (B, L)) (key : List Byte) :
    hmacKeyed R a B L key = ⟨.active, a, B, L, hmacPad (kPrimeOf R a B key) 0x36, hmacPad (kPrimeOf R a B key) 0x5c,
      dAbsorb (dInit a) ((kPrimeOf R a B key).map (· ^^^ 0x36))⟩ := by
  obtain ⟨-, -, hB, -⟩ := digestDesc_bounds R a B L h
  have hlen := kPrime_length R a B L h key
  have hpad := hmacPad_take (kPrime R a B key) 0x36 (hlen.trans_le hB)
  rw [hlen] at hpad
  rw [← kPrime_eq_kPrimeOf, ← hpad]
  rfl

theorem validHmacKey_iff (emptyOk : Bool) (key : List Byte) :
    validHmacKey emptyOk key = true ↔ key ≠ [] ∨ emptyOk = true := by
  simp [validHmacKey]

/-- Settles O43: SETKEY installs `hmacKeyed`, whose pads and inner digest are those of K'. -/
theorem hmacSetkeyCompletes : Obligations.HmacSetkeyCompletes := by
  intro a key B L s hdesc hkey _
  have hset := hmacSetkey_of_valid hdesc ((validHmacKey_iff Config.hmacEmptyKey key).mpr hkey) s
  rw [hmacKeyed_eq hdesc] at hset
  refine ⟨congrArg Host.Outcome.next hset, ?_⟩
  rw [← kPrime_eq_kPrimeOf, kPrime_length _ _ _ _ hdesc]

/-! ## CMAC (43_cmac.md) -/

/-- Blocks before the last are chained by CMAC_BLOCK (R193). -/
theorem cmacBlocks_concat (E : Cipher) (key : List Byte) (C : Block) (bs : List (List Byte)) (b : List Byte) :
    cmacBlocks E key C (bs ++ [b]) = cmacBlocks E key (bs.foldl (cmacBlock E key) C) [b] := by
  induction bs generalizing C with
  | nil => rfl
  | cons x bs ih =>
    have hcons : cmacBlocks E key C (x :: (bs ++ [b])) = cmacBlocks E key (cmacBlock E key C x) (bs ++ [b]) := by
      cases bs <;> rfl
    exact hcons.trans (ih _)

/-- The last piece, held in the buffer, goes through the selector (R194). -/
theorem cmacBlocks_last (E : Cipher) (key : List Byte) (C : Block) (buf : Buf 16) (h : buf.fill ≤ 16) :
    cmacBlocks E key C [buf.pending] =
      E key (C ^^^ cmacLastBlock (cmacSubkeys E key).1 (cmacSubkeys E key).2 buf) := by
  have hlen := buf.pending_length h
  rw [cmacBlocks, cmacLastBlock, hlen]
  split_ifs with hfull
  · rw [buf.toList_of_full hfull]
  · rfl

theorem holdbackSplit_append {m : List Byte} (n : Nat) (h : pieces n m ≠ []) :
    pieces n m = (holdbackSplit n m).1 ++ [(holdbackSplit n m).2] := by
  rw [holdbackSplit, List.getLast?_eq_some_getLast h, Option.getD_some, List.dropLast_append_getLast h]

/-- From an empty buffer, the blocks before the last piece are transformed and the last piece is pending (R112). -/
theorem holdbackAbsorb_zero {α : Type} (T : α → List Byte → α) (acc : α) (m : List Byte) :
    (holdbackAbsorb T (acc, Buf.zero 16) m).1 = (holdbackSplit 16 m).1.foldl T acc ∧
      (holdbackAbsorb T (acc, Buf.zero 16) m).2.pending = (holdbackSplit 16 m).2 := by
  by_cases hm : m = []
  · subst hm
    exact ⟨rfl, rfl⟩
  · obtain ⟨hacc, hpending, -, -⟩ := holdbackKeepsLastBlock α T acc (Buf.zero 16) m (Nat.zero_le 16) hm
    exact ⟨hacc, hpending⟩

/-- The tag after a message, from a fresh buffer, with the subkeys of the key (R192 to R194). -/
theorem cmacOf_eq (E : Cipher) (key m : List Byte) : cmacOf E key m =
    blockBytes (E key ((holdbackAbsorb (cmacBlock E key) (0, Buf.zero 16) m).1 ^^^
      cmacLastBlock (cmacSubkeys E key).1 (cmacSubkeys E key).2
        (holdbackAbsorb (cmacBlock E key) (0, Buf.zero 16) m).2)) := by
  by_cases hm : m = []
  · subst hm
    rfl
  · have hpieces : pieces 16 m ≠ [] := fun h0 => hm (by rw [← pieces_flatten 16 m (by decide), h0, List.flatten_nil])
    obtain ⟨hacc, hpending⟩ := holdbackAbsorb_zero (cmacBlock E key) 0 m
    rw [cmacOf, holdbackSplit_append 16 hpieces, cmacBlocks_concat, ← hacc, ← hpending,
      cmacBlocks_last _ _ _ _ (holdbackAbsorb_fill_le _ _ m (Nat.zero_le 16) (by decide))]

/-- Settles O35: with the subkeys of the loaded key CMAC_FINAL is the selector on the piece held back. -/
theorem cmacComputeGivesCmac : Obligations.CmacComputeGivesCmac := by
  intro cap m s hsub hp hcap
  have hkeys := hsub.cmac (Phase.ne_unkeyed_of_isKeyed ((Phase.isKeyed_iff _).mpr hp))
  obtain ⟨hacc, -⟩ := holdbackAbsorb_zero (cmacBlock Config.cipher s.cmac.cipherKey) 0 m
  have hfinal : cmacFinal Config.cipher (cmacAbsorb Config.cipher (cmacInit s.cmac) m) =
      ({ s.cmac with
          C := (holdbackSplit 16 m).1.foldl (cmacBlock Config.cipher s.cmac.cipherKey) 0, buf := Buf.zero 16 },
        cmacOf Config.cipher s.cmac.cipherKey m) := by
    rw [← hacc, cmacOf_eq, ← hkeys]
    rfl
  exact congrArg Host.Outcome.next (computeShape_of_final (U := cmacShape Config.cipher) hp hcap hfinal)

/-! ## GMAC (44_gmac.md) -/

/-- GMAC_FINAL's accumulator is GHASH over the pending bytes, zeros to a block boundary, and the length block (R216). -/
theorem gmacLastX_eq (u : GmacUnit) (h : u.buf.fill < 16) : gmacLastX u =
    (pieces 16 (u.buf.pending ++ (zeros ((16 - u.buf.fill) % 16) ++ (beBytes 8 (8 * u.nbytes.toNat) ++ zeros 8)))).foldl
      (ghashBlock u.H) u.X := by
  have hlen := u.buf.pending_length (Nat.le_of_lt h)
  have hlast : pieces 16 (beBytes 8 (8 * u.nbytes.toNat) ++ zeros 8) = [beBytes 8 (8 * u.nbytes.toNat) ++ zeros 8] :=
    pieces_short 16 _ (by decide) (List.append_ne_nil_of_right_ne_nil _ (by decide)) (by simp)
  rw [gmacLastX]
  split_ifs with hfill
  · have hblock : (u.buf.pending ++ zeros (16 - u.buf.fill)).length = 16 := by
      rw [List.length_append, hlen, zeros_length]
      omega
    rw [Nat.mod_eq_of_lt (by omega), ← List.append_assoc, pieces_full_append 16 _ _ (by decide) hblock, hlast]
    rfl
  · have hzero : u.buf.fill = 0 := by omega
    have hpending : u.buf.pending = [] := List.eq_nil_of_length_eq_zero (hlen.trans hzero)
    rw [hzero, hpending]
    exact (congrArg (List.foldl (ghashBlock u.H) u.X) hlast).symm

theorem beBytes_bitLength (k : Nat) : beBytes 8 (8 * (BitVec.ofNat 61 k).toNat) = beBytes 8 (8 * k) := by
  rw [beBytes, leBytes_bitLength, beBytes]

/-- The accumulator after a message, from a started unit (R215, R216). -/
theorem gmacLastX_absorb_init (u : GmacUnit) (m : List Byte) :
    gmacLastX (gmacAbsorb (gmacInit u) m) = gmacHash u.H m := by
  have hcount : (gmacAbsorb (gmacInit u) m).nbytes = BitVec.ofNat 61 m.length := BitVec.zero_add _
  have hfill : (gmacAbsorb (gmacInit u) m).buf.fill = m.length % 16 :=
    (eagerAbsorb_fill_mod (ghashBlock u.H) (0, Buf.zero 16) m (by decide)).trans (by simp)
  have hblocks := eagerAbsorb_then_pieces (ghashBlock u.H) (0, Buf.zero 16) (by decide) m
    (zeros ((16 - m.length % 16) % 16) ++ (beBytes 8 (8 * m.length) ++ zeros 8))
  rw [gmacLastX_eq _ (by rw [hfill]; exact Nat.mod_lt _ (by decide)), hcount, hfill, beBytes_bitLength, gmacHash, ghash,
    List.append_assoc]
  exact hblocks

/-- Settles O36: the accumulator is GHASH of the padded payload and its length block. -/
theorem gmacComputeGivesGmac : Obligations.GmacComputeGivesGmac := by
  intro cap m s hp hcap _
  have hcount : (0 : BitVec 61) + BitVec.ofNat 61 m.length = BitVec.ofNat 61 m.length := BitVec.zero_add _
  have hfinal : gmacFinal Config.cipher (gmacAbsorb (gmacInit s.gmac) m) =
      ({ s.gmac with X := gmacHash s.gmac.H m, buf := Buf.zero 16, nbytes := BitVec.ofNat 61 m.length },
        blockBytes (gmacHash s.gmac.H m ^^^ Config.cipher s.gmac.cipherKey s.gmac.J0)) := by
    rw [gmacFinal, gmacLastX_absorb_init, ← hcount]
    rfl
  exact congrArg Host.Outcome.next (computeShape_of_final (U := gmacShape Config.cipher) hp hcap hfinal)

/-! ## Poly1305 (45_poly1305.md) -/

/-- A whole block with the bit 2^128 is its bytes with a 0x01 byte after them (R232). -/
theorem polyBlock_eq_polyStep (r : BitVec 128) (h : Nat) (b : List Byte) (hb : b.length = 16) :
    polyBlock r h b = polyStep r h b := by
  rw [polyBlock, polyStep, leNat_append, hb]
  rfl

/-- POLY_FINAL's accumulator takes the pending bytes, if any, as a block with a 0x01 byte after them (R233, R234). -/
theorem polyLastH_eq (u : PolyUnit) (h : u.buf.fill < 16) :
    polyLastH u = (pieces 16 u.buf.pending).foldl (polyStep u.r) u.h := by
  have hlen := u.buf.pending_length (Nat.le_of_lt h)
  rw [polyLastH]
  split_ifs with hfill
  · have hne : u.buf.pending ≠ [] := List.length_pos_iff.mp (by omega)
    have hblock : leNat (polyPartialBlock u.buf) = leNat (u.buf.pending ++ [0x01]) := by
      rw [polyPartialBlock, ← List.singleton_append, ← List.append_assoc, leNat_append _ (zeros _), leNat_zeros,
        Nat.mul_zero, Nat.add_zero]
    rw [pieces_short 16 _ (by decide) hne (by omega), hblock]
    rfl
  · have hpending : u.buf.pending = [] := List.eq_nil_of_length_eq_zero (by omega)
    rw [hpending]
    rfl

/-- The accumulator after a message, from a started unit (R231 to R234). -/
theorem polyLastH_absorb_init (u : PolyUnit) (m : List Byte) :
    polyLastH (polyAbsorb (polyInit u) m) = polyHash u.r m := by
  have hblocks := eagerAbsorb_then_pieces (polyStep u.r) (0, Buf.zero 16) (by decide) m []
  rw [List.append_nil, List.append_nil, ← eagerAbsorb_congr (polyBlock_eq_polyStep u.r)] at hblocks
  exact (polyLastH_eq _ (polyAbsorb_fill_lt _ m (Nat.zero_lt_succ 15))).trans hblocks

/-- Settles O37: the accumulator is that of the whole message, pending bytes and all. -/
theorem polyComputeGivesPoly1305 : Obligations.PolyComputeGivesPoly1305 := by
  intro cap m s hp hcap
  have hfinal : polyFinal (polyAbsorb (polyInit s.p1305) m) =
      ({ s.p1305 with h := polyHash s.p1305.r m, buf := Buf.zero 16 },
        leBytes 16 ((polyHash s.p1305.r m + s.p1305.s.toNat) % 2 ^ 128)) := by
    rw [polyFinal, polyLastH_absorb_init]
    rfl
  exact congrArg Host.Outcome.next (computeShape_of_final (U := polyShape) hp hcap hfinal)

/-- With r = 0 every block leaves 0. -/
theorem polyHash_zero (m : List Byte) : polyHash 0 m = 0 := by
  have hfold (bs : List (List Byte)) : bs.foldl (polyStep 0) 0 = 0 := by
    induction bs with
    | nil => rfl
    | cons b bs ih =>
      have hstep : polyStep 0 0 b = 0 := by simp [polyStep, polyMulAdd]
      rw [List.foldl_cons, hstep, ih]
  exact hfold _

/-- Settles O49: a zero key gives r = 0 and s = 0, so the tag is that of a zero accumulator. -/
theorem polyZeroKeyGivesZeroTag : Obligations.PolyZeroKeyGivesZeroTag := by
  intro cap m s t hcap h
  have hr : polyR (zeros 32) = 0 := by decide
  have hs : polyS (zeros 32) = 0 := by decide
  have htag : leBytes 16 ((polyHash (polyR (zeros 32)) m + (polyS (zeros 32)).toNat) % 2 ^ 128) = zeros 16 := by
    rw [hr, hs, polyHash_zero]
    rfl
  rw [execAll_cons_of_next (polySetkeyCompletes (zeros 32) s rfl), execAll_singleton,
    polyComputeGivesPoly1305 cap m _ (.inl rfl) hcap, Host.Outcome.next.injEq] at h
  subst h
  exact ⟨congrArg (overlay s.out) htag, rfl, rfl⟩

end Sys2Proof.Machine

/-! # The GHASH multiplier (44_gmac.md R210, R211)

`gfMulX` is one step of `V`: multiplication by x. The product of two blocks is the sum, over the bits of the first, of
the second after that many steps (`gfMul_eq_gfSum`). It is additive and commutes with `gfMulX` in its second operand, and
multiplying by the identity gives the first operand back; as every block is a sum of powers of x, commutativity follows. -/

namespace Sys2Proof.Machine

/-- One step of `V` in GFMUL: a right shift, with 0xE1 entering the top byte when a 1-bit is shifted out (R211). -/
def gfMulX (v : Block) : Block := if v.getLsbD 0 then (v >>> 1) ^^^ ((0xE1 : Block) <<< 120) else v >>> 1

/-- The multiplier's identity (R210). -/
def gfOne : Block := (1 : Block) <<< 127

/-- The sum of the `v i` for which bit `127 - i` of `x` is set, over `i < n`. -/
def gfSum (x : Block) (v : Nat → Block) : Nat → Block
  | 0 => 0
  | n + 1 => if x.getLsbD (127 - n) then gfSum x v n ^^^ v n else gfSum x v n

/-! ## The product as a sum -/

theorem foldl_gfStep (x y : Block) (n : Nat) :
    (List.range n).foldl (gfStep x) (0, y) = (gfSum x (fun i => gfMulX^[i] y) n, gfMulX^[n] y) := by
  induction n with
  | zero => rfl
  | succ n ih =>
    rw [List.range_succ, List.foldl_append, ih, Function.iterate_succ_apply']
    rfl

theorem gfMul_eq_gfSum (x y : Block) : gfMul x y = gfSum x (fun i => gfMulX^[i] y) 128 :=
  congrArg Prod.fst (foldl_gfStep x y 128)

/-- An additive function of a sum is the sum of the function's values. -/
theorem map_gfSum {f : Block → Block} (h0 : f 0 = 0) (hf : ∀ a b, f (a ^^^ b) = f a ^^^ f b) (x : Block)
    (v : Nat → Block) (n : Nat) : f (gfSum x v n) = gfSum x (fun i => f (v i)) n := by
  induction n with
  | zero => exact h0
  | succ n ih =>
    simp only [gfSum, ← ih]
    split_ifs
    · exact hf _ _
    · rfl

theorem gfSum_xor_right (x : Block) (v w : Nat → Block) (n : Nat) :
    gfSum x (fun i => v i ^^^ w i) n = gfSum x v n ^^^ gfSum x w n := by
  induction n with
  | zero => exact (BitVec.xor_self (x := (0 : Block))).symm
  | succ n ih =>
    simp only [gfSum, ih]
    split_ifs
    · ac_rfl
    · rfl

theorem gfSum_congr (x : Block) {v w : Nat → Block} {n : Nat} (h : ∀ i < n, v i = w i) : gfSum x v n = gfSum x w n := by
  induction n with
  | zero => exact (BitVec.xor_self (x := (0 : Block))).symm
  | succ n ih => rw [gfSum, gfSum, ih fun i hi => h i (Nat.lt_succ_of_lt hi), h n (Nat.lt_succ_self n)]

/-! ## Multiplying by x -/

theorem gfMulX_eq (v : Block) : gfMulX v = (v >>> 1) ^^^ (if v.getLsbD 0 then (0xE1 : Block) <<< 120 else 0) := by
  rw [gfMulX]
  split_ifs
  · rfl
  · exact (BitVec.xor_zero).symm

theorem gfMulX_zero : gfMulX 0 = 0 := by decide

theorem gfMulX_xor (a b : Block) : gfMulX (a ^^^ b) = gfMulX a ^^^ gfMulX b := by
  have hreduce : ∀ p q : Bool, (if (p ^^ q) = true then (0xE1 : Block) <<< 120 else 0) =
      (if p = true then (0xE1 : Block) <<< 120 else 0) ^^^ (if q = true then (0xE1 : Block) <<< 120 else 0) := by decide
  rw [gfMulX_eq, gfMulX_eq, gfMulX_eq, BitVec.ushiftRight_xor_distrib, BitVec.getLsbD_xor, hreduce]
  ac_rfl

theorem iterate_gfMulX_xor (i : Nat) (a b : Block) : gfMulX^[i] (a ^^^ b) = gfMulX^[i] a ^^^ gfMulX^[i] b := by
  induction i with
  | zero => rfl
  | succ i ih => simp only [Function.iterate_succ_apply', ih, gfMulX_xor]

/-- A single bit. -/
theorem one_shiftLeft_getLsbD {j : Nat} (hj : j < 128) (k : Nat) : ((1 : Block) <<< j).getLsbD k = decide (k = j) := by
  have hone : (1 : Block) <<< j = BitVec.twoPow 128 j := (BitVec.twoPow_eq 128 j).symm
  rw [hone, BitVec.getLsbD_twoPow, decide_eq_true hj, Bool.true_and, decide_eq_decide]
  exact eq_comm

/-- Below the reduction, multiplying by x moves a single bit one place down. -/
theorem gfMulX_one_shiftLeft {j : Nat} (hj : j + 1 < 128) : gfMulX ((1 : Block) <<< (j + 1)) = (1 : Block) <<< j := by
  have hlow : ((1 : Block) <<< (j + 1)).getLsbD 0 = false := by rw [one_shiftLeft_getLsbD hj]; rfl
  rw [gfMulX, hlow, if_neg Bool.false_ne_true]
  apply BitVec.eq_of_getLsbD_eq
  intro k _
  rw [BitVec.getLsbD_ushiftRight, one_shiftLeft_getLsbD hj, one_shiftLeft_getLsbD (by omega), decide_eq_decide]
  omega

/-- The powers of x below x^128 are the single bits, from the top down (R210). -/
theorem iterate_gfMulX_one {i : Nat} (hi : i < 128) : gfMulX^[i] gfOne = (1 : Block) <<< (127 - i) := by
  induction i with
  | zero => rfl
  | succ i ih =>
    have hnext : 127 - i = 127 - (i + 1) + 1 := by omega
    rw [Function.iterate_succ_apply', ih (by omega), hnext, gfMulX_one_shiftLeft (by omega)]

/-! ## The product's laws -/

theorem gfMul_zero_left (y : Block) : gfMul 0 y = 0 := by
  have hsum (v : Nat → Block) (n : Nat) : gfSum 0 v n = 0 := by
    induction n with
    | zero => rfl
    | succ n ih =>
      have hbit : (0 : Block).getLsbD (127 - n) = false := BitVec.getLsbD_zero
      rw [gfSum, hbit, if_neg Bool.false_ne_true, ih]
  rw [gfMul_eq_gfSum, hsum]

theorem gfMul_xor_right (x a b : Block) : gfMul x (a ^^^ b) = gfMul x a ^^^ gfMul x b := by
  simp only [gfMul_eq_gfSum, iterate_gfMulX_xor, gfSum_xor_right]

theorem gfMul_zero_right (x : Block) : gfMul x 0 = 0 := by
  have h := gfMul_xor_right x 0 0
  rwa [BitVec.xor_self, BitVec.xor_self] at h

/-- Multiplying the second operand by x multiplies the product by x. -/
theorem gfMul_gfMulX (x y : Block) : gfMul x (gfMulX y) = gfMulX (gfMul x y) := by
  simp only [gfMul_eq_gfSum, map_gfSum gfMulX_zero gfMulX_xor, ← Function.iterate_succ_apply,
    Function.iterate_succ_apply']

theorem gfMul_iterate_gfMulX (x y : Block) (i : Nat) : gfMul x (gfMulX^[i] y) = gfMulX^[i] (gfMul x y) := by
  induction i with
  | zero => rfl
  | succ i ih => rw [Function.iterate_succ_apply', gfMul_gfMulX, ih, Function.iterate_succ_apply']

/-- The first `n` powers of x, summed over the bits of `x`, give the top `n` bits of `x`. -/
theorem gfSum_bits_getLsbD (x : Block) {n : Nat} (hn : n ≤ 128) {k : Nat} (hk : k < 128) :
    (gfSum x (fun i => (1 : Block) <<< (127 - i)) n).getLsbD k = (x.getLsbD k && decide (128 - n ≤ k)) := by
  induction n with
  | zero =>
    have hout : decide (128 - 0 ≤ k) = false := decide_eq_false (by omega)
    rw [hout, Bool.and_false]
    exact BitVec.getLsbD_zero
  | succ n ih =>
    have hbit := one_shiftLeft_getLsbD (j := 127 - n) (by omega) k
    specialize ih (by omega)
    rw [gfSum]
    by_cases hkn : k = 127 - n
    · -- bit `k` is the one that the `n`-th power adds
      have hbefore : decide (128 - n ≤ k) = false := decide_eq_false (by omega)
      have hafter : decide (128 - (n + 1) ≤ k) = true := decide_eq_true (by omega)
      rw [hbefore, Bool.and_false] at ih
      rw [hafter, Bool.and_true, ← hkn]
      rw [decide_eq_true hkn, ← hkn] at hbit
      cases hx : x.getLsbD k with
      | false => rw [if_neg Bool.false_ne_true, ih]
      | true => rw [if_pos rfl, BitVec.getLsbD_xor, ih, hbit]; rfl
    · have hsame : decide (128 - (n + 1) ≤ k) = decide (128 - n ≤ k) := decide_eq_decide.mpr (by omega)
      rw [decide_eq_false hkn] at hbit
      rw [hsame, ← ih]
      split_ifs
      · rw [BitVec.getLsbD_xor, hbit, Bool.xor_false]
      · rfl

/-- A block is the sum of the powers of x that its bits name. -/
theorem gfMul_one_right (x : Block) : gfMul x gfOne = x := by
  rw [gfMul_eq_gfSum, gfSum_congr x fun i hi => iterate_gfMulX_one hi]
  apply BitVec.eq_of_getLsbD_eq
  intro k hk
  rw [gfSum_bits_getLsbD x (Nat.le_refl _) hk, Nat.sub_self, decide_eq_true (Nat.zero_le k), Bool.and_true]

/-- Settles O50: `x` is a sum of powers of x, and `y` times a power of x is that power applied to `y`. -/
theorem gfMulCommutes : Obligations.GfMulCommutes := by
  intro x y
  have hpowers : x = gfSum x (fun i => gfMulX^[i] gfOne) 128 := by rw [← gfMul_eq_gfSum, gfMul_one_right]
  calc gfMul x y = gfSum x (fun i => gfMulX^[i] y) 128 := gfMul_eq_gfSum x y
    _ = gfSum x (fun i => gfMul y (gfMulX^[i] gfOne)) 128 := by simp only [gfMul_iterate_gfMulX, gfMul_one_right]
    _ = gfMul y (gfSum x (fun i => gfMulX^[i] gfOne) 128) :=
      (map_gfSum (gfMul_zero_right y) (gfMul_xor_right y) x _ 128).symm
    _ = gfMul y x := by rw [← hpowers]

/-- Multiplying by the power x^i, the bit `j = 127 - i`, is `i` steps of `V`. -/
theorem gfMul_power_left (y : Block) {i j : Nat} (h : j + i = 127) : gfMul ((1 : Block) <<< j) y = gfMulX^[i] y := by
  have hj : j = 127 - i := by omega
  rw [gfMulCommutes, hj, ← iterate_gfMulX_one (by omega), gfMul_iterate_gfMulX, gfMul_one_right]

/-- Settles O51: from the laws of the product, the first operand's by commutativity. -/
theorem gfMulIdentityAndZero : Obligations.GfMulIdentityAndZero := by
  refine ⟨fun x => ⟨gfMul_one_right x, gfMul_power_left x (i := 0) rfl, gfMul_zero_right x, gfMul_zero_left x⟩,
    fun x x' y => ?_, fun y => ?_, fun y i hi => ?_⟩
  · rw [gfMulCommutes, gfMul_xor_right, gfMulCommutes y x, gfMulCommutes y x']
  · rw [gfMul_power_left y (i := 1) rfl, Function.iterate_one, gfMulX_eq]
  · rw [gfMul_power_left y (i := i + 1) (by omega), Function.iterate_succ_apply', gfMulX_eq,
      gfMul_power_left y (i := i) (by omega)]

end Sys2Proof.Machine
